-- ==== Sys2Proof/Word.lean ====
section
/-!
DEFINITION. The word types of the block: every value is unsigned (spec/00_scope.md R7) and each
stored element has the width spec/10_state.md gives it.
-/

namespace Sys2Proof

/-- One byte of IN or OUT, and one symbol 0..255 (R11, R26, R27). -/
abbrev Byte := BitVec 8

/-- A command word: the 32 bits a host writes to CMD (R21, R91). -/
abbrev CmdWord := BitVec 32

/-- A 64-bit host register or counter: ARG, RESULT, in_pos, bsr_count, bsr_target (R22, R23, R26, R30). -/
abbrev Word64 := BitVec 64

/-- An index into the node arena; 0x1FF means "no child" (R6, R34). -/
abbrev NodeIdx := BitVec 9

/-- A node weight (R6, R34). -/
abbrev Weight := BitVec 40

/-- The frequency table: 256 counts of 32 bits, indexed by symbol (R32). -/
abbrev Freq := Vector (BitVec 32) 256

end Sys2Proof
end

