-- ==== Sys2Proof/Syntax.lean ====
section
/-!
DEFINITION. The 24 commands of spec/30_encoding.md R93, one constructor per row of
spec/opcode_table.json. The operands are those of R94 that stand in the command word; the operands
that come from ARG are read by the meanings.
-/

namespace Sys2Proof

/-- A host command. -/
inductive Instr
  /-- CTRL.ABORT (40_control.md R125). -/
  | ctrlAbort
  /-- CTRL.REWIND (40_control.md R126). -/
  | ctrlRewind
  /-- BSW.OPEN (41_bit_stream_writer.md R141). -/
  | bswOpen
  /-- BSW.PUTBIT b (R142): `imm` is the IMM8 field, whose bit 0 is the bit; IMM8 must be 0 or 1 (R95). -/
  | bswPutbit (imm : Byte)
  /-- BSW.CLOSE (R143). -/
  | bswClose
  /-- BSR.OPEN (42_bit_stream_reader.md R161): `u` is the "unlimited" flag CMD[8]. -/
  | bsrOpen (u : Bool)
  /-- BSR.NEXT (R163). -/
  | bsrNext
  /-- BSR.CLOSE (R164). -/
  | bsrClose
  /-- TB.SETFREQ s (43_huffman_tree_builder.md R181). -/
  | tbSetfreq (sym : Byte)
  /-- TB.GETFREQ s (R182). -/
  | tbGetfreq (sym : Byte)
  /-- TB.BUILD (R188). -/
  | tbBuild
  /-- TB.INFO (R191). -/
  | tbInfo
  /-- TB.NODE (R192). -/
  | tbNode
  /-- ENC.COUNT (44_huffman_encoder.md R211). -/
  | encCount
  /-- ENC.HEADER (R212). -/
  | encHeader
  /-- ENC.DERIVE (R214). -/
  | encDerive
  /-- ENC.CODELEN s (R216). -/
  | encCodelen (sym : Byte)
  /-- ENC.CODEWORD s (R217). -/
  | encCodeword (sym : Byte)
  /-- ENC.EMIT s (R219). -/
  | encEmit (sym : Byte)
  /-- ENC.STEP (R220). -/
  | encStep
  /-- ENC.RUN (R221). -/
  | encRun
  /-- DEC.HEADER (45_huffman_decoder.md R251). -/
  | decHeader
  /-- DEC.SYMBOL (R253). -/
  | decSymbol
  /-- DEC.RUN (R254). -/
  | decRun
  deriving DecidableEq, Repr

end Sys2Proof
end

