-- ==== Sys2Proof/WellFormed.lean ====
section
/-!
DEFINITION. When a term of `Instr` is a command a word can carry: the operand constraints of
spec/30_encoding.md R93 and R95. A symbol operand is any of 0..255 (R94), which its type says; the one
check left is BSW.PUTBIT's IMM8, which must be 0 or 1.
-/

namespace Sys2Proof

/-- The operand constraint of each row of R93. -/
def Instr.wellFormed : Instr → Bool
  | .bswPutbit imm => decide (imm.toNat ≤ 1)
  | .ctrlAbort | .ctrlRewind => true
  | .bswOpen | .bswClose => true
  | .bsrOpen _ | .bsrNext | .bsrClose => true
  | .tbSetfreq _ | .tbGetfreq _ | .tbBuild | .tbInfo | .tbNode => true
  | .encCount | .encHeader | .encDerive => true
  | .encCodelen _ | .encCodeword _ | .encEmit _ | .encStep | .encRun => true
  | .decHeader | .decSymbol | .decRun => true

end Sys2Proof
end

