-- ==== Sys2Proof/Decode.lean ====
section
/-!
DEFINITION. The command-word format of spec/30_encoding.md: fields (R91), decoder and legality (R93,
R95), and the encoder (R100). The decoder is total on every 32-bit word and names why it rejects one.
-/

namespace Sys2Proof

/-- Why a word is illegal (R95). -/
inductive Illegal
  /-- CMD[31:24] is none of the 24 values of R93: condition 1 of R95 fails. -/
  | undefinedCommand (unitOp : BitVec 8)
  /-- CMD[31:24] is defined, and the rest of the word breaks that row's operand constraint. -/
  | operandConstraint (unitOp : BitVec 8)
  deriving DecidableEq, Repr

/-! ## Fields (R91) -/

/-- UNIT:OP, CMD[31:24]. -/
def unitOpField (w : CmdWord) : BitVec 8 := w.extractLsb' 24 8

/-- RSV, CMD[23:9]: reserved, must be 0. -/
def rsvField (w : CmdWord) : BitVec 15 := w.extractLsb' 9 15

/-- U, CMD[8]: the "unlimited" flag of BSR.OPEN. -/
def uField (w : CmdWord) : Bool := w.getLsbD 8

/-- IMM8, CMD[7:0]. -/
def imm8Field (w : CmdWord) : Byte := w.extractLsb' 0 8

/-! ## Decoder -/

/-- A row whose constraint is CMD[23:0] = 0. -/
def decodePlain (w : CmdWord) (i : Instr) : Except Illegal Instr :=
  if rsvField w = 0#15 ∧ uField w = false ∧ imm8Field w = 0#8 then .ok i
  else .error (.operandConstraint (unitOpField w))

/-- A row whose constraint is CMD[23:8] = 0, with s = IMM8. -/
def decodeSymbol (w : CmdWord) (mk : Byte → Instr) : Except Illegal Instr :=
  if rsvField w = 0#15 ∧ uField w = false then .ok (mk (imm8Field w))
  else .error (.operandConstraint (unitOpField w))

/-- BSW.PUTBIT: CMD[23:1] = 0. -/
def decodePutbit (w : CmdWord) : Except Illegal Instr :=
  if rsvField w = 0#15 ∧ uField w = false ∧ (imm8Field w).toNat ≤ 1 then .ok (.bswPutbit (imm8Field w))
  else .error (.operandConstraint (unitOpField w))

/-- BSR.OPEN: CMD[23:9] = 0 and CMD[7:0] = 0. -/
def decodeBsrOpen (w : CmdWord) : Except Illegal Instr :=
  if rsvField w = 0#15 ∧ imm8Field w = 0#8 then .ok (.bsrOpen (uField w))
  else .error (.operandConstraint (unitOpField w))

/-- The decoder: by `CMD[31:24]` alone, then that row's operand constraint (R91, R93, R95). -/
def decode (w : CmdWord) : Except Illegal Instr :=
  match unitOpField w with
  | 0x01#8 => decodePlain w .ctrlAbort
  | 0x02#8 => decodePlain w .ctrlRewind
  | 0x10#8 => decodePlain w .bswOpen
  | 0x11#8 => decodePutbit w
  | 0x12#8 => decodePlain w .bswClose
  | 0x20#8 => decodeBsrOpen w
  | 0x21#8 => decodePlain w .bsrNext
  | 0x22#8 => decodePlain w .bsrClose
  | 0x30#8 => decodeSymbol w .tbSetfreq
  | 0x31#8 => decodeSymbol w .tbGetfreq
  | 0x32#8 => decodePlain w .tbBuild
  | 0x33#8 => decodePlain w .tbInfo
  | 0x34#8 => decodePlain w .tbNode
  | 0x40#8 => decodePlain w .encCount
  | 0x41#8 => decodePlain w .encHeader
  | 0x42#8 => decodePlain w .encDerive
  | 0x43#8 => decodeSymbol w .encCodelen
  | 0x44#8 => decodeSymbol w .encCodeword
  | 0x45#8 => decodeSymbol w .encEmit
  | 0x46#8 => decodePlain w .encStep
  | 0x4F#8 => decodePlain w .encRun
  | 0x50#8 => decodePlain w .decHeader
  | 0x51#8 => decodePlain w .decSymbol
  | 0x5F#8 => decodePlain w .decRun
  | op => .error (.undefinedCommand op)

/-- The host's question: the instruction this decoder reads from an instruction whose bits are `w`, `nbits`
of them given and the rest 0. Every command is one 32-bit word (R91), so more bits are no command. -/
def decodeTableWord (nbits w : Nat) : Option Instr :=
  if nbits ≤ 32 then
    match decode (BitVec.ofNat 32 (w % 2 ^ nbits)) with
    | .ok i => some i
    | .error _ => none
  else none

/-! ## Encoder (R100): `word = (UNITOP << 24) | (U << 8) | IMM8` -/

/-- CMD[31:24] of each command, from the table of R93. -/
def Instr.unitOp : Instr → BitVec 8
  | .ctrlAbort => 0x01
  | .ctrlRewind => 0x02
  | .bswOpen => 0x10
  | .bswPutbit _ => 0x11
  | .bswClose => 0x12
  | .bsrOpen _ => 0x20
  | .bsrNext => 0x21
  | .bsrClose => 0x22
  | .tbSetfreq _ => 0x30
  | .tbGetfreq _ => 0x31
  | .tbBuild => 0x32
  | .tbInfo => 0x33
  | .tbNode => 0x34
  | .encCount => 0x40
  | .encHeader => 0x41
  | .encDerive => 0x42
  | .encCodelen _ => 0x43
  | .encCodeword _ => 0x44
  | .encEmit _ => 0x45
  | .encStep => 0x46
  | .encRun => 0x4F
  | .decHeader => 0x50
  | .decSymbol => 0x51
  | .decRun => 0x5F

/-- The U bit of each command's word: 1 only for BSR.OPEN.U. -/
def Instr.uBit : Instr → Bool
  | .bsrOpen u => u
  | .ctrlAbort | .ctrlRewind | .bswOpen | .bswPutbit _ | .bswClose | .bsrNext | .bsrClose => false
  | .tbSetfreq _ | .tbGetfreq _ | .tbBuild | .tbInfo | .tbNode => false
  | .encCount | .encHeader | .encDerive | .encCodelen _ | .encCodeword _ | .encEmit _ | .encStep => false
  | .encRun | .decHeader | .decSymbol | .decRun => false

/-- IMM8 of each command's word: the symbol or bit, and 0 where the command takes none. -/
def Instr.imm8 : Instr → Byte
  | .bswPutbit imm => imm
  | .tbSetfreq s | .tbGetfreq s | .encCodelen s | .encCodeword s | .encEmit s => s
  | .ctrlAbort | .ctrlRewind | .bswOpen | .bswClose | .bsrOpen _ | .bsrNext | .bsrClose => 0
  | .tbBuild | .tbInfo | .tbNode | .encCount | .encHeader | .encDerive | .encStep | .encRun => 0
  | .decHeader | .decSymbol | .decRun => 0

/-- The command word of a command: UNIT:OP, fifteen reserved zeros, U, IMM8 (R91, R100). -/
def encode (i : Instr) : CmdWord :=
  i.unitOp ++ (0#15) ++ BitVec.ofBool i.uBit ++ i.imm8

/-! ## Legality, from the opcode map's match and mask columns (R93, R95) -/

/-- One row of the map: a word of the row is one whose bits under `mask` are those of `match`. -/
structure OpcodeRow where
  bits : CmdWord
  mask : CmdWord
  deriving DecidableEq, Repr

/-- The 24 rows of spec/opcode_table.json, in its order. -/
def opcodeRows : List OpcodeRow :=
  [⟨0x01000000, 0xFFFFFFFF⟩, ⟨0x02000000, 0xFFFFFFFF⟩, ⟨0x10000000, 0xFFFFFFFF⟩, ⟨0x11000000, 0xFFFFFFFE⟩,
   ⟨0x12000000, 0xFFFFFFFF⟩, ⟨0x20000000, 0xFFFFFEFF⟩, ⟨0x21000000, 0xFFFFFFFF⟩, ⟨0x22000000, 0xFFFFFFFF⟩,
   ⟨0x30000000, 0xFFFFFF00⟩, ⟨0x31000000, 0xFFFFFF00⟩, ⟨0x32000000, 0xFFFFFFFF⟩, ⟨0x33000000, 0xFFFFFFFF⟩] ++
  [⟨0x34000000, 0xFFFFFFFF⟩, ⟨0x40000000, 0xFFFFFFFF⟩, ⟨0x41000000, 0xFFFFFFFF⟩, ⟨0x42000000, 0xFFFFFFFF⟩,
   ⟨0x43000000, 0xFFFFFF00⟩, ⟨0x44000000, 0xFFFFFF00⟩, ⟨0x45000000, 0xFFFFFF00⟩, ⟨0x46000000, 0xFFFFFFFF⟩,
   ⟨0x4F000000, 0xFFFFFFFF⟩, ⟨0x50000000, 0xFFFFFFFF⟩, ⟨0x51000000, 0xFFFFFFFF⟩, ⟨0x5F000000, 0xFFFFFFFF⟩]

/-- A word is legal when it is a word of one of the rows (R95, both conditions at once). -/
def legalWord (w : CmdWord) : Bool := opcodeRows.any fun r => w &&& r.mask == r.bits

end Sys2Proof
end

