-- ==== Sys2Proof/Config.lean ====
section
/-!
DEFINITION. The parameters of spec/00_scope.md R6. Every one has one fixed value; IN_LEN_MAX, the one
OPEN parameter (92_eei_decisions.md D31), is taken at its largest value (assumption 4).
-/

namespace Sys2Proof.Config

/-- NSYM: the number of symbols. -/
abbrev nsym : Nat := 256

/-- HDR_BYTES: the length of a container's header in bytes. -/
abbrev hdrBytes : Nat := 1024

/-- NODE_CAP: the capacity of the node arena, 2·NSYM − 1. -/
abbrev nodeCap : Nat := 511

/-- NONE: the node index that means "no child". -/
abbrev noneIdx : NodeIdx := 0x1FF#9

/-- MAX_CODE_LEN: the longest possible code, in bits (R189). -/
abbrev maxCodeLen : Nat := 255

/-- IN_LEN_MAX: the longest input LOAD_INPUT accepts, in bytes.
DESIGN CHOICE (assumption 4): the OPEN parameter at its largest value. -/
def inLenMax : Nat := 2 ^ 64 - 1

end Sys2Proof.Config
end

