-- ==== Sys2Proof/Machine/State.lean ====
section
/-!
DEFINITION. The state of the block (spec/10_state.md R20 to R37), the host's pending moves and I/O draws
(40_control.md R127 to R129), the reset state (70_reset_and_hazards.md R310), and the reasons a step can
stop. State is plain data.
-/

namespace Sys2Proof.Machine

/-- The status codes of 60_exceptions.md R280. Codes 9..15 are never written, so they have no name here. -/
inductive StatusCode
  | ok
  | ioError
  | formatError
  | emptyInput
  | corruptStream
  | overflow
  | illegalCommand
  | protocolError
  | aborted
  deriving DecidableEq, Repr

/-- The sequencer's labels (R25): IDLE, the steps of ENC.RUN, the steps of DEC.RUN. -/
inductive Seq
  | idle
  | eCount
  | eHeader
  | eBuild
  | eDerive
  | eRewind
  | eOpen
  | eStep
  | eClose
  | dHeader
  | dBuild
  | dOpen
  | dSymbol
  deriving DecidableEq, Repr

/-- The kind of an arena entry (R34): LEAF is 0, INTERNAL is 1. -/
inductive NodeKind
  | leaf
  | internal
  deriving DecidableEq, Repr

/-- One arena entry (R34). -/
structure Node where
  kind : NodeKind
  sym : Byte
  left : NodeIdx
  right : NodeIdx
  weight : Weight
  deriving DecidableEq, Repr

/-- The reset value of every arena entry (R34, R310). -/
def Node.reset : Node :=
  { kind := .leaf, sym := 0#8, left := Config.noneIdx, right := Config.noneIdx, weight := 0#40 }

/-- The node arena (R34). -/
abbrev Arena := Vector Node 511

/-- The writer's state (R28): `bsw_open`, `bsw_acc`, `bsw_n`. -/
structure Writer where
  isOpen : Bool
  acc : BitVec 8
  n : BitVec 3
  deriving DecidableEq, Repr

/-- The closed writer: its value at reset and after BSW.CLOSE (R28, R143). -/
def Writer.closed : Writer := { isOpen := false, acc := 0#8, n := 0#3 }

/-- The reader's state (R30): `bsr_open`, `bsr_end`, `bsr_unl`, `bsr_byte`, `bsr_pos` (a 4-bit element that
holds 0..8), `bsr_count`, `bsr_target`. -/
structure Reader where
  isOpen : Bool
  ended : Bool
  unlimited : Bool
  byte : Byte
  pos : Fin 9
  count : Word64
  target : Word64
  deriving DecidableEq, Repr

/-- The closed reader: its value at reset and after BSR.CLOSE (R30, R164). -/
def Reader.closed : Reader :=
  { isOpen := false, ended := false, unlimited := false, byte := 0#8, pos := 8, count := 0#64, target := 0#64 }

/-- The outcome the host draws for one InRead or OutWrite (R129). -/
inductive IoDraw
  | ok
  | ioerr
  deriving DecidableEq, Repr

/-- What the host does at one step (R120, R127, R128, R310). -/
inductive HostMove
  /-- The host does nothing: the core takes its step, if it has one (R74, R124, R295). -/
  | yield
  /-- A write of CMD submits a command word (R120). -/
  | writeCmd (w : CmdWord)
  /-- A write of ARG stores the value (R128). -/
  | writeArg (v : Word64)
  /-- A write of RESULT is ignored (R128). -/
  | writeResult (v : Word64)
  /-- A write of STATUS is ignored (R128). -/
  | writeStatus (v : BitVec 32)
  /-- A write of any other offset in 0x00..0x1F is ignored (R90). -/
  | writeUnmapped (off : BitVec 5) (v : Word64)
  /-- A read of the register space: no side effect (R128); what it returns is `State.readReg`. -/
  | readAt (off : BitVec 5)
  /-- A read of OUT: no side effect; what it returns is the list `out` (R128). -/
  | readOut
  /-- LOAD_INPUT (R127). -/
  | loadInput (bytes : List Byte)
  /-- The reset event (R310). -/
  | reset
  deriving DecidableEq, Repr

/-- Why the machine stops with a fault. The spec's errors are status codes, never faults; the one fault
stands for a computation the spec's pseudocode would never end. -/
inductive Fault
  /-- Raised by ENC.DERIVE alone, when the arena has a cycle under the root, so that the work-stack of R213
  never empties. Safe: no state that a run reaches has such an arena (R189). -/
  | derivationNeverEnds
  deriving DecidableEq, Repr

/-- Why a step is refused. No command is refused; the two host refusals stand for moves R127 says the host
does not have. -/
inductive Refusal
  /-- Raised by `exec` for a command that has no meaning yet; no arm does. Safe. -/
  | notModelled (mnemonic : String)
  /-- Raised by the host move LOAD_INPUT while BUSY = 1: "the host has no such move" (R63, R127). Safe: the
  model stops, and says nothing of a host the spec forbids. -/
  | loadInputWhileBusy
  /-- Raised by the host move LOAD_INPUT with more than IN_LEN_MAX bytes: no such move (R127). Safe. -/
  | inputTooLong
  deriving DecidableEq, Repr

/-- The state: the elements of R20, then the host's side (assumptions 1 and 2). STATUS is not stored: every
field of it is a view of an element below, or DONE or CODE (R24); `State.statusWord` is the register. -/
structure State where
  /-- CMD (R21): the last word written. -/
  cmd : CmdWord
  /-- ARG (R22). -/
  arg : Word64
  /-- RESULT (R23). -/
  result : Word64
  /-- STATUS.DONE (R24). -/
  done : Bool
  /-- STATUS.CODE (R24). -/
  code : StatusCode
  /-- The sequencer (R25); STATUS.BUSY is `seq ≠ IDLE`. -/
  seq : Seq
  /-- IN (R26). -/
  input : List Byte
  /-- in_pos (R26). -/
  inPos : Word64
  /-- OUT (R27), in write order. -/
  out : List Byte
  /-- The writer (R28). -/
  bsw : Writer
  /-- The reader (R30). -/
  bsr : Reader
  /-- freq[0..255] (R32). -/
  freq : Freq
  /-- node[0..510] (R34). -/
  node : Arena
  /-- node_count (R35). -/
  nodeCount : BitVec 10
  /-- root (R35). -/
  root : NodeIdx
  /-- tree_valid (R35). -/
  treeValid : Bool
  /-- code_len[0..255] (R36). -/
  codeLen : Vector (BitVec 8) 256
  /-- code_bits[0..255] (R36): bit j is the j-th edge from the root. -/
  codeBits : Vector (BitVec 255) 256
  /-- codes_valid (R36). -/
  codesValid : Bool
  /-- emitted (R37). -/
  emitted : BitVec 40
  /-- The host's next I/O draws (R129), first access first; OK when the list has run out (assumption 2). -/
  ioDraws : List IoDraw
  /-- The host's next moves (R127, R128), first move first; the host is silent when the list has run out
  (assumption 1). -/
  hostMoves : List HostMove
  deriving DecidableEq, Repr

/-- The state after power-on: every element at its value in R310, IN empty, and the host with nothing
pending. -/
def State.reset : State :=
  { cmd := 0#32, arg := 0#64, result := 0#64
    done := false, code := .ok
    seq := .idle
    input := [], inPos := 0#64, out := []
    bsw := Writer.closed
    bsr := Reader.closed
    freq := Vector.replicate 256 0#32
    node := Vector.replicate 511 Node.reset
    nodeCount := 0#10, root := 0#9, treeValid := false
    codeLen := Vector.replicate 256 0#8
    codeBits := Vector.replicate 256 0#255
    codesValid := false
    emitted := 0#40
    ioDraws := [], hostMoves := [] }

end Sys2Proof.Machine
end

