-- ==== Sys2Proof/Machine/Ops.lean ====
section
/-!
DEFINITION. The operations every family shares: the outcome of a unit rule (spec/00_scope.md R10), the I/O
primitives (20_memory.md R61, R62; 40_control.md R129), access to the tables (10_state.md R32 to R36), and
how a command starts and ends (40_control.md R120 to R125; 60_exceptions.md R281).
-/

namespace Sys2Proof.Machine

/-! ## The outcome of a unit rule -/

/-- How a unit rule ends (R10): normally with a value, or by `raise E`; either way with the state it wrote up
to that point. `stuck` is a rule whose pseudocode never ends (`Fault.derivationNeverEnds`). -/
inductive Res (α : Type) where
  | ret (a : α) (s : State)
  | raise (e : StatusCode) (s : State)
  | stuck (f : Fault)

/-- Go on with `k` after a normal end; a raise ends the command at once (R10, R282). -/
def Res.bind {α β : Type} (r : Res α) (k : α → State → Res β) : Res β :=
  match r with
  | .ret a s => k a s
  | .raise e s => .raise e s
  | .stuck f => .stuck f

/-- What a unit rule gives back: the value for RESULT, when the rule names RESULT (R23). -/
abbrev UnitRes := Res (Option Word64)

/-- BUSY = (`seq ≠ IDLE`) (R24, R25). -/
def State.busy (s : State) : Bool := decide (s.seq ≠ .idle)

/-! ## I/O primitives -/

/-- The host's draw for one access (R129): the head of the pending draws, and OK when none is pending
(assumption 2). -/
def nextDraw (s : State) : IoDraw × State :=
  match s.ioDraws with
  | [] => (.ok, s)
  | d :: ds => (d, { s with ioDraws := ds })

/-- What InRead returns (R9, R61). -/
inductive ReadOutcome
  | byte (b : Byte)
  | eof
  | ioerr
  deriving DecidableEq, Repr

/-- `InRead()` (R61): the draw first, then the end of IN, then the byte at `in_pos`. -/
def inRead (s : State) : ReadOutcome × State :=
  match nextDraw s with
  | (.ioerr, s1) => (.ioerr, s1)
  | (.ok, s1) =>
    match s1.input[s1.inPos.toNat]? with
    | none => (.eof, s1)
    | some b => (.byte b, { s1 with inPos := s1.inPos + 1#64 })

/-- `OutWrite(b)` (R62): a failed write appends nothing. -/
def outWrite (b : Byte) (s : State) : IoDraw × State :=
  match nextDraw s with
  | (.ioerr, s1) => (.ioerr, s1)
  | (.ok, s1) => (.ok, { s1 with out := s1.out ++ [b] })

/-- OutWrite of each byte in turn; the first failure raises IO_ERROR (R212). -/
def writeBytes : List Byte → State → Res Unit
  | [], s => .ret () s
  | b :: bs, s =>
    match outWrite b s with
    | (.ioerr, s1) => .raise .ioError s1
    | (.ok, s1) => writeBytes bs s1

/-- The bytes of IN not yet read. -/
def State.remaining (s : State) : Nat := s.input.length - s.inPos.toNat

/-! ## Tables -/

/-- `freq[s]` (R32). -/
def freqAt (f : Freq) (sym : Byte) : BitVec 32 := f[sym.toNat]'(by have := sym.isLt; omega)

/-- `f[s] <- v`. -/
def setFreq (f : Freq) (sym : Byte) (v : BitVec 32) : Freq :=
  f.set sym.toNat v (by have := sym.isLt; omega)

/-- total = Σ freq[s], a natural number (R33). -/
def total (f : Freq) : Nat := (f.toList.map BitVec.toNat).sum

/-- A write of the frequency table: every such write clears tree_valid and codes_valid (R32, R180). -/
def writeFreq (f : Freq) (s : State) : State :=
  { s with freq := f, treeValid := false, codesValid := false }

/-- `node[i]` (R34). The arena has 511 entries; index 511 is NONE and no rule reads it in a tree that
TB.BUILD made, so what it reads as here matters in no state a run reaches (assumption 9). -/
def nodeAt (a : Arena) (i : NodeIdx) : Node := a[i.toNat]?.getD Node.reset

/-- `node[i] <- e`. -/
def setNode (a : Arena) (i : NodeIdx) (e : Node) : Arena := a.setIfInBounds i.toNat e

/-- `code_len[s]` (R36). -/
def State.codeLenAt (s : State) (sym : Byte) : BitVec 8 :=
  s.codeLen[sym.toNat]'(by have := sym.isLt; omega)

/-- `code_bits[s]` (R36). -/
def State.codeBitsAt (s : State) (sym : Byte) : BitVec 255 :=
  s.codeBits[sym.toNat]'(by have := sym.isLt; omega)

/-- The code of a symbol, root edge first: bits 0..code_len[s]−1 of `code_bits[s]` (R36). -/
def State.codeOf (s : State) (sym : Byte) : List Bool :=
  (List.range (s.codeLenAt sym).toNat).map fun j => (s.codeBitsAt sym).getLsbD j

/-! ## Start and end of a command -/

/-- The start of an accepted command: DONE <- 0, CODE <- OK (R120). This is the only way CODE is cleared
apart from reset (R286). -/
def startCommand (s : State) : State := { s with done := false, code := .ok }

/-- The normal end of a unit command (R120), with its RESULT write if its rule names RESULT (R23). -/
def endOk (v : Option Word64) (s : State) : State :=
  { s with result := v.getD s.result, done := true, code := .ok }

/-- The end of a command with an error, the block's analogue of taking an exception (R281): CODE <- E,
DONE <- 1, and seq <- IDLE for a RUN. CMD and RESULT keep their values and nothing else is saved; there is no
handler, so there is no return either (R286). A unit command runs with `seq` IDLE already (R122). -/
def endError (e : StatusCode) (s : State) : State :=
  { s with seq := .idle, done := true, code := e }

/-- `finish(OK, r)`: the normal end of a RUN (R124). -/
def finishRun (r : Word64) (s : State) : State :=
  { s with seq := .idle, result := r, done := true, code := .ok }

/-- `Abort()` (R125). -/
def abort (s : State) : State :=
  if s.busy then endError .aborted s else { s with done := true, code := .ok }

/-- `AcceptRun` (R123): OUT and in_pos cleared, writer and reader closed, the sequencer at its first step. -/
def acceptRun (first : Seq) (s : State) : State :=
  { s with out := [], inPos := 0#64, bsw := Writer.closed, bsr := Reader.closed, seq := first }

/-- A unit command submitted by the host (R120 to R122): while BUSY it is not executed and ends the RUN with
PROTOCOL_ERROR; while idle its rule runs to its end inside this one step. -/
def unitCommand (rule : State → UnitRes) (s : State) : Host.Outcome State Fault Refusal :=
  if s.busy then .next (endError .protocolError s)
  else
    match rule (startCommand s) with
    | .ret v s1 => .next (endOk v s1)
    | .raise e s1 => .next (endError e s1)
    | .stuck f => .fault f

/-- A RUN command submitted by the host (R120, R121, R123). -/
def runCommand (first : Seq) (s : State) : Host.Outcome State Fault Refusal :=
  if s.busy then .next (endError .protocolError s)
  else .next (acceptRun first (startCommand s))

end Sys2Proof.Machine
end

