-- ==== Sys2Proof/Machine/Flags.lean ====
section
/-!
DEFINITION. The STATUS register (spec/10_state.md R24), whose fields are the block's only flags (R39), and the
numbering of the status codes (60_exceptions.md R280). The mirror fields are views, so they always equal the
elements they mirror; reserved bits read as 0.
-/

namespace Sys2Proof.Machine

/-- The 4-bit number of a status code (R280). -/
def StatusCode.bits : StatusCode → BitVec 4
  | .ok => 0
  | .ioError => 1
  | .formatError => 2
  | .emptyInput => 3
  | .corruptStream => 4
  | .overflow => 5
  | .illegalCommand => 6
  | .protocolError => 7
  | .aborted => 8

/-- `seq` as the 4-bit element of R25: IDLE = 0, the other labels 1..12 in the order listed. The numbering is not
visible to the host. -/
def Seq.bits : Seq → BitVec 4
  | .idle => 0
  | .eCount => 1
  | .eHeader => 2
  | .eBuild => 3
  | .eDerive => 4
  | .eRewind => 5
  | .eOpen => 6
  | .eStep => 7
  | .eClose => 8
  | .dHeader => 9
  | .dBuild => 10
  | .dOpen => 11
  | .dSymbol => 12

/-- STATUS (R24), from bit 31 down: 31:19 reserved, 18:16 BSW_N, 15:13 reserved, 12 CODES_VALID, 11 TREE_VALID,
10 BSR_END, 9 BSR_OPEN, 8 BSW_OPEN, 7:4 CODE, 3:2 reserved, 1 DONE, 0 BUSY. -/
def State.statusWord (s : State) : BitVec 32 :=
  (0#13) ++ s.bsw.n ++ (0#3) ++ BitVec.ofBool s.codesValid ++ BitVec.ofBool s.treeValid ++
    BitVec.ofBool s.bsr.ended ++ BitVec.ofBool s.bsr.isOpen ++ BitVec.ofBool s.bsw.isOpen ++
    s.code.bits ++ (0#2) ++ BitVec.ofBool s.done ++ BitVec.ofBool s.busy

end Sys2Proof.Machine
end

