-- ==== Sys2Proof/Machine/Operands.lean ====
section
/-!
DEFINITION. How operands are taken from the command word and ARG (spec/30_encoding.md R94), how values are
packed into RESULT (43_huffman_tree_builder.md R191, R192; 44_huffman_encoder.md R217, R220;
42_bit_stream_reader.md R163), and the header's byte layout (20_memory.md R65).
-/

namespace Sys2Proof.Machine

/-! ## Operands (R94) -/

/-- bit of BSW.PUTBIT: CMD[0], which is bit 0 of IMM8. -/
def bitOperand (imm : Byte) : Bool := imm.getLsbD 0

/-- count of TB.SETFREQ: ARG[31:0]; ARG[63:32] is ignored. -/
def countOperand (s : State) : BitVec 32 := s.arg.extractLsb' 0 32

/-- target of BSR.OPEN with U = 0: ARG[63:0]. -/
def targetOperand (s : State) : Word64 := s.arg

/-- chunk k of ENC.CODEWORD: ARG[1:0]. -/
def chunkOperand (s : State) : BitVec 2 := s.arg.extractLsb' 0 2

/-- index i of TB.NODE: ARG[8:0]. -/
def indexOperand (s : State) : NodeIdx := s.arg.extractLsb' 0 9

/-! ## RESULT layouts -/

/-- Zero extension to RESULT's 64 bits (R42: every RESULT is the zero extension of its value). -/
def zext64 {n : Nat} (v : BitVec n) : Word64 := v.setWidth 64

/-- BSR.NEXT: bit 0 the bit, bit 1 the END flag (R163). -/
def nextResult : Option Bool → Word64
  | none => 0x2#64
  | some b => zext64 (BitVec.ofBool b)

/-- TB.INFO: `node_count : 0b0000000 : root` (R191). -/
def infoResult (nodeCount : BitVec 10) (root : NodeIdx) : Word64 :=
  zext64 (nodeCount ++ (0#7) ++ root)

/-- Bits 48:40 of TB.NODE: the symbol of a leaf, the left child of an internal node (R192). -/
def nodeFieldA (e : Node) : BitVec 9 :=
  match e.kind with
  | .leaf => e.sym.setWidth 9
  | .internal => e.left

/-- Bits 57:49 of TB.NODE: NONE in a leaf, the right child or NONE in an internal node (R192). -/
def nodeFieldB (e : Node) : BitVec 9 :=
  match e.kind with
  | .leaf => Config.noneIdx
  | .internal => e.right

/-- Bit 62 of TB.NODE. -/
def nodeIsLeaf (e : Node) : Bool := decide (e.kind = .leaf)

/-- TB.NODE's packed entry (R192): valid[63], leaf[62], zero[61:58], B[57:49], A[48:40], weight[39:0]. -/
def nodeResult (e : Node) : Word64 :=
  (1#1) ++ BitVec.ofBool (nodeIsLeaf e) ++ (0#4) ++ nodeFieldB e ++ nodeFieldA e ++ e.weight

/-- ENC.CODEWORD (R217): bit `63 − j` of RESULT is code bit `64k + j`, and 0 past the code's end. -/
def codewordResult (len : BitVec 8) (bits : BitVec 255) (k : BitVec 2) : Word64 :=
  BitVec.ofFnLE (n := 64) fun i =>
    decide (64 * k.toNat + (63 - i.val) < len.toNat) && bits.getLsbD (64 * k.toNat + (63 - i.val))

/-- ENC.STEP: bit 8 the EOF flag, bits 7:0 the byte read (R220). -/
def stepResult : Option Byte → Word64
  | none => 0x100#64
  | some b => zext64 b

/-! ## The container's header (R65) -/

/-- Byte j of one field is bits [31−8j : 24−8j]: the most significant byte first (assumption 12). -/
def fieldBytes (c : BitVec 32) : List Byte :=
  [c.extractLsb' 24 8, c.extractLsb' 16 8, c.extractLsb' 8 8, c.extractLsb' 0 8]

/-- The 1024 header bytes of a frequency table, in symbol order. -/
def headerBytes (f : Freq) : List Byte := f.toList.flatMap fieldBytes

/-- `h[4s] : h[4s+1] : h[4s+2] : h[4s+3]` (R251). -/
def headerField (h : List Byte) (i : Nat) : BitVec 32 :=
  (h[4 * i]?.getD 0#8) ++ (h[4 * i + 1]?.getD 0#8) ++ (h[4 * i + 2]?.getD 0#8) ++ (h[4 * i + 3]?.getD 0#8)

/-- The frequency table a header holds (R65, R251). -/
def headerFreq (h : List Byte) : Freq := Vector.ofFn fun i => headerField h i.val

end Sys2Proof.Machine
end

