-- ==== Sys2Proof/Machine/Control.lean ====
section
/-!
DEFINITION. The CTRL commands (spec/40_control.md R125, R126).
-/

namespace Sys2Proof.Machine

/-- CTRL.ABORT (R125): while idle it ends OK with no other effect; while a RUN is in progress it ends the RUN with
ABORTED, flushing and undoing nothing. -/
def execCtrlAbort (s : State) : Host.Outcome State Fault Refusal := .next (abort s)

/-- The rule of CTRL.REWIND (R126): `in_pos <- 0`; the reader is untouched. -/
def ruleCtrlRewind (s : State) : UnitRes := .ret none { s with inPos := 0#64 }

/-- CTRL.REWIND (R126). -/
def execCtrlRewind (s : State) : Host.Outcome State Fault Refusal := unitCommand ruleCtrlRewind s

end Sys2Proof.Machine
end

