-- ==== Sys2Proof/Machine/Reader.lean ====
section
/-!
DEFINITION. The bit_stream_reader (spec/42_bit_stream_reader.md R160 to R164): its primitive NextBit and the three
BSR commands.
-/

namespace Sys2Proof.Machine

/-- Bit `7 − bsr_pos` of `bsr_byte`, most significant first (R160). -/
def readerBit (r : Reader) : Bool := r.byte.getLsbD (7 - r.pos.val)

/-- The last three assignments of NextBit: yield the bit at `bsr_pos` and count it (R160). -/
def yieldBit (s : State) : Res (Option Bool) :=
  .ret (some (readerBit s.bsr))
    { s with bsr := { s.bsr with pos := s.bsr.pos + 1, count := s.bsr.count + 1#64 } }

/-- The END of a reader: `bsr_end <- 1` (R160). -/
def endReader (s : State) : Res (Option Bool) :=
  .ret none { s with bsr := { s.bsr with ended := true } }

/-- `NextBit()` (R160): a bit, or none for END. The target is checked before a byte is fetched. -/
def nextBit (s : State) : Res (Option Bool) :=
  if s.bsr.ended then .ret none s
  else if s.bsr.unlimited = false ∧ s.bsr.count = s.bsr.target then endReader s
  else if s.bsr.pos = 8 then
    match inRead s with
    | (.ioerr, s1) => .raise .ioError s1
    | (.eof, s1) => endReader s1
    | (.byte b, s1) => yieldBit { s1 with bsr := { s1.bsr with byte := b, pos := 0 } }
  else yieldBit s

/-- The reader BSR.OPEN starts (R161): unlimited when U = 1, with ARG as its target when U = 0. -/
def openedReader (u : Bool) (target : Word64) : Reader :=
  { isOpen := true, ended := false, unlimited := u, byte := 0#8, pos := 8, count := 0#64,
    target := if u then 0#64 else target }

/-- The rule of BSR.OPEN (R161). -/
def ruleBsrOpen (u : Bool) (s : State) : UnitRes :=
  if s.bsr.isOpen then .raise .protocolError s
  else .ret none { s with bsr := openedReader u (targetOperand s) }

/-- BSR.OPEN (R161). -/
def execBsrOpen (u : Bool) (s : State) : Host.Outcome State Fault Refusal := unitCommand (ruleBsrOpen u) s

/-- The rule of BSR.NEXT (R163): END is not an error. -/
def ruleBsrNext (s : State) : UnitRes :=
  if s.bsr.isOpen then (nextBit s).bind fun r s1 => .ret (some (nextResult r)) s1
  else .raise .protocolError s

/-- BSR.NEXT (R163). -/
def execBsrNext (s : State) : Host.Outcome State Fault Refusal := unitCommand ruleBsrNext s

/-- The rule of BSR.CLOSE (R164): bits not yet yielded are dropped and in_pos is not moved back. -/
def ruleBsrClose (s : State) : UnitRes :=
  if s.bsr.isOpen then .ret none { s with bsr := Reader.closed } else .raise .protocolError s

/-- BSR.CLOSE (R164). -/
def execBsrClose (s : State) : Host.Outcome State Fault Refusal := unitCommand ruleBsrClose s

end Sys2Proof.Machine
end

