-- ==== Sys2Proof/Machine/Tree.lean ====
section
/-!
DEFINITION. The huffman_tree_builder (spec/43_huffman_tree_builder.md R180 to R192): the construction and the five
TB commands.
-/

namespace Sys2Proof.Machine

/-! ## Frequency table access -/

/-- The rule of TB.SETFREQ (R181). -/
def ruleTbSetfreq (sym : Byte) (s : State) : UnitRes :=
  .ret none (writeFreq (setFreq s.freq sym (countOperand s)) s)

/-- TB.SETFREQ (R181). -/
def execTbSetfreq (sym : Byte) (s : State) : Host.Outcome State Fault Refusal :=
  unitCommand (ruleTbSetfreq sym) s

/-- The rule of TB.GETFREQ (R182). -/
def ruleTbGetfreq (sym : Byte) (s : State) : UnitRes := .ret (some (zext64 (freqAt s.freq sym))) s

/-- TB.GETFREQ (R182). -/
def execTbGetfreq (sym : Byte) (s : State) : Host.Outcome State Fault Refusal :=
  unitCommand (ruleTbGetfreq sym) s

/-! ## The construction -/

/-- The symbols with a nonzero count, in increasing order (R183). -/
def usedSymbols (f : Freq) : List Byte :=
  ((List.range 256).map (BitVec.ofNat 8)).filter fun sym => freqAt f sym != 0#32

/-- The leaf of a symbol (R183, R188). -/
def leafNode (f : Freq) (sym : Byte) : Node :=
  { kind := .leaf, sym := sym, left := Config.noneIdx, right := Config.noneIdx,
    weight := (freqAt f sym).setWidth 40 }

/-- Leaves in entries k, k+1, …, one per symbol, in the order given (R183, R188). -/
def placeLeaves (f : Freq) : List Byte → Nat → Arena → Arena
  | [], _, a => a
  | sym :: rest, k, a => placeLeaves f rest (k + 1) (setNode a (BitVec.ofNat 9 k) (leafNode f sym))

/-- The least-key order (weight, index), lexicographic (R184). -/
def keyLess (a : Arena) (i j : NodeIdx) : Bool :=
  decide ((nodeAt a i).weight < (nodeAt a j).weight) ||
    (decide ((nodeAt a i).weight = (nodeAt a j).weight) && decide (i < j))

/-- The index of least key among `best` and the list (R184). -/
def leastKey (a : Arena) (best : NodeIdx) : List NodeIdx → NodeIdx
  | [] => best
  | i :: rest => leastKey a (if keyLess a i best then i else best) rest

/-- Extraction from the live set: the node of least key, and what remains (R184). -/
def extractLeast (a : Arena) : List NodeIdx → Option (NodeIdx × List NodeIdx)
  | [] => none
  | i :: rest => some (leastKey a i rest, (i :: rest).erase (leastKey a i rest))

/-- The node a merge creates: the first extracted is the left child, the second the right (R185). -/
def mergeNode (a : Arena) (i j : NodeIdx) : Node :=
  { kind := .internal, sym := 0#8, left := i, right := j, weight := (nodeAt a i).weight + (nodeAt a j).weight }

/-- The merges (R185, R188): while two live nodes remain, merge the two of least key into entry n. Each merge leaves
one live node fewer, so `fuel` merges are enough when the live set has at most `fuel + 1` nodes. Gives the arena and
the next free index. -/
def mergeAll : Nat → Nat → List NodeIdx → Arena → Arena × Nat
  | 0, n, _, a => (a, n)
  | fuel + 1, n, live, a =>
    match extractLeast a live with
    | none => (a, n)
    | some (i, live1) =>
      match extractLeast a live1 with
      | none => (a, n)
      | some (j, live2) =>
        mergeAll fuel (n + 1) (live2 ++ [BitVec.ofNat 9 n]) (setNode a (BitVec.ofNat 9 n) (mergeNode a i j))

/-- A tree the builder made: the arena, node_count and root. -/
structure Built where
  arena : Arena
  count : BitVec 10
  root : NodeIdx
  deriving DecidableEq, Repr

/-- The single-symbol tree (R186): an internal root over the one leaf, with no right child. -/
def singleRoot (a : Arena) : Node :=
  { kind := .internal, sym := 0#8, left := 0#9, right := Config.noneIdx, weight := (nodeAt a 0#9).weight }

/-- The construction (R188), in an arena whose later entries it leaves as they are; none when every count is 0
(R187). -/
def buildTree (f : Freq) (a : Arena) : Option Built :=
  let syms := usedSymbols f
  let k := syms.length
  let leaves := placeLeaves f syms 0 a
  if k = 0 then none
  else if k = 1 then some { arena := setNode leaves 1#9 (singleRoot leaves), count := 2#10, root := 1#9 }
  else
    let m := mergeAll k k ((List.range k).map (BitVec.ofNat 9)) leaves
    some { arena := m.1, count := BitVec.ofNat 10 m.2, root := BitVec.ofNat 9 (m.2 - 1) }

/-- The rule of TB.BUILD (R187, R188). -/
def ruleTbBuild (s : State) : UnitRes :=
  match buildTree s.freq s.node with
  | none => .raise .emptyInput { s with nodeCount := 0#10, root := 0#9, treeValid := false, codesValid := false }
  | some b =>
    .ret (some (zext64 (nodeAt b.arena b.root).weight))
      { s with node := b.arena, nodeCount := b.count, root := b.root, treeValid := true, codesValid := false }

/-- TB.BUILD (R188). -/
def execTbBuild (s : State) : Host.Outcome State Fault Refusal := unitCommand ruleTbBuild s

/-! ## Reading the tree -/

/-- The rule of TB.INFO (R191). -/
def ruleTbInfo (s : State) : UnitRes :=
  if s.treeValid then .ret (some (infoResult s.nodeCount s.root)) s else .raise .protocolError s

/-- TB.INFO (R191). -/
def execTbInfo (s : State) : Host.Outcome State Fault Refusal := unitCommand ruleTbInfo s

/-- The rule of TB.NODE (R192): 0 for an entry at or above node_count. -/
def ruleTbNode (s : State) : UnitRes :=
  if s.treeValid then
    if (indexOperand s).toNat ≥ s.nodeCount.toNat then .ret (some 0#64) s
    else .ret (some (nodeResult (nodeAt s.node (indexOperand s)))) s
  else .raise .protocolError s

/-- TB.NODE (R192). -/
def execTbNode (s : State) : Host.Outcome State Fault Refusal := unitCommand ruleTbNode s

end Sys2Proof.Machine
end

