-- ==== Sys2Proof/Machine/Decoder.lean ====
section
/-!
DEFINITION. The huffman_decoder (spec/45_huffman_decoder.md R250 to R254): the header, the tree walk, and the
acceptance of DEC.RUN (its core steps are in Machine/Sequencer.lean).
-/

namespace Sys2Proof.Machine

/-- The read loop of DEC.HEADER (R251): `n` bytes in order, FORMAT_ERROR at the end of IN. -/
def readBytes : Nat → State → Res (List Byte)
  | 0, s => .ret [] s
  | n + 1, s =>
    match inRead s with
    | (.ioerr, s1) => .raise .ioError s1
    | (.eof, s1) => .raise .formatError s1
    | (.byte b, s1) => (readBytes n s1).bind fun bs s2 => .ret (b :: bs) s2

/-- The rule of DEC.HEADER (R251): nothing but in_pos is written before all 1024 bytes are read. -/
def ruleDecHeader (s : State) : UnitRes :=
  (readBytes Config.hdrBytes s).bind fun h s1 =>
    .ret (some (BitVec.ofNat 64 (total (headerFreq h)))) { writeFreq (headerFreq h) s1 with emitted := 0#40 }

/-- DEC.HEADER (R251). -/
def execDecHeader (s : State) : Host.Outcome State Fault Refusal := unitCommand ruleDecHeader s

/-- A bound on the bits the reader can still yield: those left in its byte and those of the unread input. -/
def State.bitsLeft (s : State) : Nat := (8 - s.bsr.pos.val) + 8 * s.remaining

/-- The walk of DecodeSymbol from node `cur` (R252). Every pass but a last one that ends the walk takes one bit, so
`bitsLeft + 1` passes always reach a leaf, an absent child or the end of the payload (assumption 11). -/
def decodeWalk : Nat → NodeIdx → State → Res Byte
  | 0, _, s => .raise .formatError s
  | fuel + 1, cur, s =>
    (nextBit s).bind fun r s1 =>
      match r with
      | none => .raise .formatError s1
      | some bit =>
        let nxt := if bit then (nodeAt s1.node cur).right else (nodeAt s1.node cur).left
        if nxt = Config.noneIdx then .raise .corruptStream s1
        else if (nodeAt s1.node nxt).kind = .leaf then
          match outWrite (nodeAt s1.node nxt).sym s1 with
          | (.ioerr, s2) => .raise .ioError s2
          | (.ok, s2) => .ret (nodeAt s1.node nxt).sym { s2 with emitted := s2.emitted + 1#40 }
        else decodeWalk fuel nxt s1

/-- `DecodeSymbol()` (R252): one walk from the root to a leaf. -/
def decodeOne (s : State) : Res Byte := decodeWalk (s.bitsLeft + 1) s.root s

/-- The rule of DEC.SYMBOL (R253). -/
def ruleDecSymbol (s : State) : UnitRes :=
  if s.treeValid = false then .raise .protocolError s
  else if s.bsr.isOpen = false then .raise .protocolError s
  else (decodeOne s).bind fun sym s1 => .ret (some (zext64 sym)) s1

/-- DEC.SYMBOL (R253). -/
def execDecSymbol (s : State) : Host.Outcome State Fault Refusal := unitCommand ruleDecSymbol s

/-- DEC.RUN: acceptance (R123, R254). -/
def execDecRun (s : State) : Host.Outcome State Fault Refusal := runCommand .dHeader s

end Sys2Proof.Machine
end

