-- ==== Sys2Proof/Machine/Writer.lean ====
section
/-!
DEFINITION. The bit_stream_writer (spec/41_bit_stream_writer.md R140 to R143): its primitive PutBit and the three
BSW commands.
-/

namespace Sys2Proof.Machine

/-- `bsw_acc[6:0] : b`: the buffered bits moved up one place with `b` at bit 0 (R140). -/
def shiftIn (acc : BitVec 8) (b : Bool) : BitVec 8 := acc.extractLsb' 0 7 ++ BitVec.ofBool b

/-- `PutBit(b)` (R140). The 8th bit sends the byte at once; when that write fails the byte is lost and the writer is
closed. -/
def putBit (b : Bool) (s : State) : Res Unit :=
  if s.bsw.n = 7#3 then
    match outWrite (shiftIn s.bsw.acc b) { s with bsw := { s.bsw with acc := 0#8, n := 0#3 } } with
    | (.ok, s1) => .ret () s1
    | (.ioerr, s1) => .raise .ioError { s1 with bsw := { s1.bsw with isOpen := false } }
  else
    .ret () { s with bsw := { s.bsw with acc := shiftIn s.bsw.acc b, n := s.bsw.n + 1#3 } }

/-- PutBit of each bit in turn (R218). -/
def putBits : List Bool → State → Res Unit
  | [], s => .ret () s
  | b :: bs, s => (putBit b s).bind fun _ s1 => putBits bs s1

/-- The rule of BSW.OPEN (R141). -/
def ruleBswOpen (s : State) : UnitRes :=
  if s.bsw.isOpen then .raise .protocolError s
  else .ret none { s with bsw := { isOpen := true, acc := 0#8, n := 0#3 } }

/-- BSW.OPEN (R141). -/
def execBswOpen (s : State) : Host.Outcome State Fault Refusal := unitCommand ruleBswOpen s

/-- The rule of BSW.PUTBIT (R142). -/
def ruleBswPutbit (imm : Byte) (s : State) : UnitRes :=
  if s.bsw.isOpen then (putBit (bitOperand imm) s).bind fun _ s1 => .ret none s1
  else .raise .protocolError s

/-- BSW.PUTBIT (R142). -/
def execBswPutbit (imm : Byte) (s : State) : Host.Outcome State Fault Refusal :=
  unitCommand (ruleBswPutbit imm) s

/-- The final byte of a stream: `(a << (8 − n))[7:0]`, the n bits in bits 7..8−n and zeros below (R143). -/
def paddedByte (a : BitVec 8) (n : BitVec 3) : Byte := a <<< (8 - n.toNat)

/-- The rule of BSW.CLOSE (R143): the writer is closed whether or not the final byte can be written. -/
def ruleBswClose (s : State) : UnitRes :=
  if s.bsw.isOpen then
    if s.bsw.n = 0#3 then .ret none { s with bsw := Writer.closed }
    else
      match outWrite (paddedByte s.bsw.acc s.bsw.n) { s with bsw := Writer.closed } with
      | (.ok, s1) => .ret none s1
      | (.ioerr, s1) => .raise .ioError s1
  else .raise .protocolError s

/-- BSW.CLOSE (R143). -/
def execBswClose (s : State) : Host.Outcome State Fault Refusal := unitCommand ruleBswClose s

end Sys2Proof.Machine
end

