-- ==== Sys2Proof/Machine/Encoder.lean ====
section
/-!
DEFINITION. The huffman_encoder (spec/44_huffman_encoder.md R210 to R222): the frequency count, the header, the code
table, code emission, and the acceptance of ENC.RUN (its core steps are in Machine/Sequencer.lean).
-/

namespace Sys2Proof.Machine

/-! ## Frequency count -/

/-- The loop of ENC.COUNT (R211) over a scratch table. Every pass but the last reads one byte, so `remaining + 1`
passes always reach the end of IN (assumption 11). -/
def countLoop : Nat → Freq → State → Res Freq
  | 0, f, s => .ret f s
  | fuel + 1, f, s =>
    match inRead s with
    | (.ioerr, s1) => .raise .ioError s1
    | (.eof, s1) => .ret f s1
    | (.byte b, s1) =>
      if freqAt f b = BitVec.allOnes 32 then .raise .overflow s1
      else countLoop fuel (setFreq f b (freqAt f b + 1#32)) s1

/-- The rule of ENC.COUNT (R211): freq is written only at the end. -/
def ruleEncCount (s : State) : UnitRes :=
  (countLoop (s.remaining + 1) (Vector.replicate 256 0#32) s).bind fun f s1 =>
    .ret (some (BitVec.ofNat 64 (total f))) (writeFreq f s1)

/-- ENC.COUNT (R211). -/
def execEncCount (s : State) : Host.Outcome State Fault Refusal := unitCommand ruleEncCount s

/-! ## Header -/

/-- The rule of ENC.HEADER (R212): straight to OUT, not through the writer. -/
def ruleEncHeader (s : State) : UnitRes :=
  (writeBytes (headerBytes s.freq) s).bind fun _ s1 => .ret none s1

/-- ENC.HEADER (R212). -/
def execEncHeader (s : State) : Host.Outcome State Fault Refusal := unitCommand ruleEncHeader s

/-! ## Code table derivation -/

/-- The code table under construction: `code_len` and `code_bits` (R36). -/
structure CodeTable where
  len : Vector (BitVec 8) 256
  bits : Vector (BitVec 255) 256
  deriving DecidableEq, Repr

/-- The table Derive starts from: no symbol has a code (R213). -/
def CodeTable.empty : CodeTable := { len := Vector.replicate 256 0#8, bits := Vector.replicate 256 0#255 }

/-- `v[j] <- path[j]` for every j below the path's length; the other bits keep their values (R213). -/
def writePath (v : BitVec 255) (path : List Bool) : BitVec 255 :=
  BitVec.ofFnLE (n := 255) fun j => path[j.val]?.getD (v.getLsbD j.val)

/-- Bind a symbol to its root-to-leaf path (R213). -/
def bindCode (t : CodeTable) (sym : Byte) (path : List Bool) : CodeTable :=
  { len := t.len.set sym.toNat (BitVec.ofNat 8 path.length) (by have := sym.isLt; omega)
    bits := t.bits.set sym.toNat (writePath (t.bits[sym.toNat]'(by have := sym.isLt; omega)) path)
      (by have := sym.isLt; omega) }

/-- The depth-first traversal of R213 below node `i`, left subtree first, as the work-stack of the pseudocode takes
it. `depth` bounds the nodes on one path: the arena has 511 entries, so a path of more than 512 nodes repeats one, and
the traversal would never end (none; assumption 10). -/
def deriveBelow (a : Arena) : Nat → NodeIdx → List Bool → CodeTable → Option CodeTable
  | 0, _, _, _ => none
  | depth + 1, i, path, t =>
    match (nodeAt a i).kind with
    | .leaf => some (bindCode t (nodeAt a i).sym path)
    | .internal =>
      match deriveBelow a depth (nodeAt a i).left (path ++ [false]) t with
      | none => none
      | some t1 =>
        if (nodeAt a i).right = Config.noneIdx then some t1
        else deriveBelow a depth (nodeAt a i).right (path ++ [true]) t1

/-- `Derive()` (R213): the code table of the tree under `root`. -/
def deriveCodes (a : Arena) (root : NodeIdx) : Option CodeTable :=
  deriveBelow a 512 root [] CodeTable.empty

/-- Σ freq[s] · code_len[s], the payload's length in bits (R214). -/
def payloadBits (f : Freq) (len : Vector (BitVec 8) 256) : Nat :=
  ((f.toList.zip len.toList).map fun p => p.1.toNat * p.2.toNat).sum

/-- The rule of ENC.DERIVE (R214). -/
def ruleEncDerive (s : State) : UnitRes :=
  if s.treeValid then
    match deriveCodes s.node s.root with
    | none => .stuck .derivationNeverEnds
    | some t =>
      .ret (some (BitVec.ofNat 64 (payloadBits s.freq t.len)))
        { s with codeLen := t.len, codeBits := t.bits, codesValid := true }
  else .raise .protocolError s

/-- ENC.DERIVE (R214). -/
def execEncDerive (s : State) : Host.Outcome State Fault Refusal := unitCommand ruleEncDerive s

/-! ## Reading the code table -/

/-- The rule of ENC.CODELEN (R216). -/
def ruleEncCodelen (sym : Byte) (s : State) : UnitRes :=
  if s.codesValid then .ret (some (zext64 (s.codeLenAt sym))) s else .raise .protocolError s

/-- ENC.CODELEN (R216). -/
def execEncCodelen (sym : Byte) (s : State) : Host.Outcome State Fault Refusal :=
  unitCommand (ruleEncCodelen sym) s

/-- The rule of ENC.CODEWORD (R217). -/
def ruleEncCodeword (sym : Byte) (s : State) : UnitRes :=
  if s.codesValid then .ret (some (codewordResult (s.codeLenAt sym) (s.codeBitsAt sym) (chunkOperand s))) s
  else .raise .protocolError s

/-- ENC.CODEWORD (R217). -/
def execEncCodeword (sym : Byte) (s : State) : Host.Outcome State Fault Refusal :=
  unitCommand (ruleEncCodeword sym) s

/-! ## Emitting codes -/

/-- `EmitCode(s)` (R218): the code's bits through the writer, root edge first. -/
def emitCode (sym : Byte) (s : State) : Res Unit := putBits (s.codeOf sym) s

/-- The rule of ENC.EMIT (R219), its three checks in the order listed. -/
def ruleEncEmit (sym : Byte) (s : State) : UnitRes :=
  if s.codesValid = false then .raise .protocolError s
  else if s.bsw.isOpen = false then .raise .protocolError s
  else if s.codeLenAt sym = 0#8 then .raise .protocolError s
  else (emitCode sym s).bind fun _ s1 => .ret none s1

/-- ENC.EMIT (R219). -/
def execEncEmit (sym : Byte) (s : State) : Host.Outcome State Fault Refusal := unitCommand (ruleEncEmit sym) s

/-- ENC.STEP without its RESULT write (R220): the byte read and sent, or none at the end of IN. -/
def encStepByte (s : State) : Res (Option Byte) :=
  if s.codesValid = false then .raise .protocolError s
  else if s.bsw.isOpen = false then .raise .protocolError s
  else
    match inRead s with
    | (.ioerr, s1) => .raise .ioError s1
    | (.eof, s1) => .ret none s1
    | (.byte b, s1) =>
      if s1.codeLenAt b = 0#8 then .raise .protocolError s1
      else (emitCode b s1).bind fun _ s2 => .ret (some b) s2

/-- The rule of ENC.STEP (R220). -/
def ruleEncStep (s : State) : UnitRes :=
  (encStepByte s).bind fun r s1 => .ret (some (stepResult r)) s1

/-- ENC.STEP (R220). -/
def execEncStep (s : State) : Host.Outcome State Fault Refusal := unitCommand ruleEncStep s

/-- ENC.RUN: acceptance (R123, R221). -/
def execEncRun (s : State) : Host.Outcome State Fault Refusal := runCommand .eCount s

end Sys2Proof.Machine
end

