-- ==== Sys2Proof/Machine/Dispatch.lean ====
section
/-!
DEFINITION. The dispatch: one arm per command. `exec i s` is the whole effect of submitting command `i` at `s`, where
CMD already holds its word (spec/40_control.md R120 to R123).
-/

namespace Sys2Proof.Machine

def exec (i : Instr) (s : State) : Host.Outcome State Fault Refusal :=
  match i with
  | .ctrlAbort => Sys2Proof.Machine.execCtrlAbort s
  | .ctrlRewind => Sys2Proof.Machine.execCtrlRewind s
  | .bswOpen => Sys2Proof.Machine.execBswOpen s
  | .bswPutbit imm => Sys2Proof.Machine.execBswPutbit imm s
  | .bswClose => Sys2Proof.Machine.execBswClose s
  | .bsrOpen u => Sys2Proof.Machine.execBsrOpen u s
  | .bsrNext => Sys2Proof.Machine.execBsrNext s
  | .bsrClose => Sys2Proof.Machine.execBsrClose s
  | .tbSetfreq sym => Sys2Proof.Machine.execTbSetfreq sym s
  | .tbGetfreq sym => Sys2Proof.Machine.execTbGetfreq sym s
  | .tbBuild => Sys2Proof.Machine.execTbBuild s
  | .tbInfo => Sys2Proof.Machine.execTbInfo s
  | .tbNode => Sys2Proof.Machine.execTbNode s
  | .encCount => Sys2Proof.Machine.execEncCount s
  | .encHeader => Sys2Proof.Machine.execEncHeader s
  | .encDerive => Sys2Proof.Machine.execEncDerive s
  | .encCodelen sym => Sys2Proof.Machine.execEncCodelen sym s
  | .encCodeword sym => Sys2Proof.Machine.execEncCodeword sym s
  | .encEmit sym => Sys2Proof.Machine.execEncEmit sym s
  | .encStep => Sys2Proof.Machine.execEncStep s
  | .encRun => Sys2Proof.Machine.execEncRun s
  | .decHeader => Sys2Proof.Machine.execDecHeader s
  | .decSymbol => Sys2Proof.Machine.execDecSymbol s
  | .decRun => Sys2Proof.Machine.execDecRun s

end Sys2Proof.Machine
end

