-- ==== Sys2Proof/Machine/Sequencer.lean ====
section
/-!
DEFINITION. The core step (spec/40_control.md R124) with the sub-command tables of ENC.RUN (44_huffman_encoder.md
R221) and DEC.RUN (45_huffman_decoder.md R254).
-/

namespace Sys2Proof.Machine

/-- The end of a sub-command (R124): an error ends the RUN with RESULT unchanged; otherwise `k` says what follows. The
sub-command's RESULT value is not written. -/
def afterSub {α : Type} (r : Res α) (k : α → State → State) : Host.Outcome State Fault Refusal :=
  match r with
  | .ret a s => .next (k a s)
  | .raise e s => .next (endError e s)
  | .stuck f => .fault f

/-- `seq <- label`. -/
def goTo (label : Seq) (s : State) : State := { s with seq := label }

/-- What follows E_HEADER: the RUN ends when the input was empty (R221, R222). -/
def afterEHeader (s : State) : State :=
  if total s.freq = 0 then finishRun (BitVec.ofNat 64 s.out.length) s else goTo .eBuild s

/-- What follows E_STEP: E_CLOSE once it read EOF (R221). -/
def afterEStep : Option Byte → State → State
  | none, s => goTo .eClose s
  | some _, s => goTo .eStep s

/-- What follows D_HEADER: the RUN ends when the container holds nothing (R254, R255). -/
def afterDHeader (s : State) : State :=
  if total s.freq = 0 then finishRun 0#64 s else goTo .dBuild s

/-- What follows D_SYMBOL: the RUN ends once `total` symbols are out (R254). -/
def afterDSymbol (s : State) : State :=
  if s.emitted.toNat = total s.freq then finishRun (zext64 s.emitted) s else goTo .dSymbol s

/-- The core's one enabled step while `seq ≠ IDLE` (R124). While idle the core has no step and all state is kept
(R295). -/
def coreStep (s : State) : Host.Outcome State Fault Refusal :=
  match s.seq with
  | .idle => .next s
  | .eCount => afterSub (ruleEncCount s) fun _ s1 => goTo .eHeader s1
  | .eHeader => afterSub (ruleEncHeader s) fun _ s1 => afterEHeader s1
  | .eBuild => afterSub (ruleTbBuild s) fun _ s1 => goTo .eDerive s1
  | .eDerive => afterSub (ruleEncDerive s) fun _ s1 => goTo .eRewind s1
  | .eRewind => afterSub (ruleCtrlRewind s) fun _ s1 => goTo .eOpen s1
  | .eOpen => afterSub (ruleBswOpen s) fun _ s1 => goTo .eStep s1
  | .eStep => afterSub (encStepByte s) afterEStep
  | .eClose => afterSub (ruleBswClose s) fun _ s1 => finishRun (BitVec.ofNat 64 s1.out.length) s1
  | .dHeader => afterSub (ruleDecHeader s) fun _ s1 => afterDHeader s1
  | .dBuild => afterSub (ruleTbBuild s) fun _ s1 => goTo .dOpen s1
  | .dOpen => afterSub (ruleBsrOpen true s) fun _ s1 => goTo .dSymbol s1
  | .dSymbol => afterSub (ruleDecSymbol s) fun _ s1 => afterDSymbol s1

end Sys2Proof.Machine
end

