-- ==== Sys2Proof/Machine/HostPort.lean ====
section
/-!
DEFINITION. The host's side: the register map (spec/30_encoding.md R90), the submission of a command word
(40_control.md R120, R121), and every host move (R127, R128; 70_reset_and_hazards.md R310).
-/

namespace Sys2Proof.Machine

/-! ## The register map (R90) -/

/-- What a host read of a register offset returns (R90, R128): a 32-bit register in the low half. Every other offset
in 0x00..0x1F reads as 0. -/
def State.readReg (s : State) (off : BitVec 5) : Word64 :=
  if off = 0x00#5 then zext64 s.cmd
  else if off = 0x08#5 then s.arg
  else if off = 0x10#5 then s.result
  else if off = 0x18#5 then zext64 s.statusWord
  else 0#64

/-- The move that a host write at a register offset is (R90). Accesses are whole-register (R69), so a 32-bit register
takes the low 32 bits of the value (assumption 6). -/
def HostMove.writeAt (off : BitVec 5) (v : Word64) : HostMove :=
  if off = 0x00#5 then .writeCmd (v.extractLsb' 0 32)
  else if off = 0x08#5 then .writeArg v
  else if off = 0x10#5 then .writeResult v
  else if off = 0x18#5 then .writeStatus (v.extractLsb' 0 32)
  else .writeUnmapped off v

/-! ## Submission of a command word -/

/-- An illegal word (R96): CODE <- ILLEGAL_COMMAND, DONE <- 1. While BUSY it is not decoded and ends the RUN with
PROTOCOL_ERROR (R121, R284). -/
def illegalWord (s : State) : State :=
  if s.busy then endError .protocolError s else endError .illegalCommand s

/-- `HostWriteCMD(w)` (R120): CMD <- w, then the command or the refusal of the word; CMD holds
an illegal word too (assumption 7). -/
def submitWord (w : CmdWord) (s : State) : Host.Outcome State Fault Refusal :=
  match decode w with
  | .ok i => exec i { s with cmd := w }
  | .error _ => .next (illegalWord { s with cmd := w })

/-! ## The other moves -/

/-- The reset event (R310): every element at its reset value, IN unchanged. The host's own pending moves and draws are
not the block's (assumption 1). -/
def hardReset (s : State) : State :=
  { State.reset with input := s.input, ioDraws := s.ioDraws, hostMoves := s.hostMoves }

/-- LOAD_INPUT(L) (R127): enabled only while BUSY = 0 and for at most IN_LEN_MAX bytes; the host has no such move
otherwise. -/
def loadInput (bytes : List Byte) (s : State) : Host.Outcome State Fault Refusal :=
  if s.busy then .refused .loadInputWhileBusy
  else if bytes.length ≤ Config.inLenMax then .next { s with input := bytes, inPos := 0#64 }
  else .refused .inputTooLong

/-- One host move, each one atomic step (R74, R120, R127, R128, R310). -/
def hostStep (m : HostMove) (s : State) : Host.Outcome State Fault Refusal :=
  match m with
  | .yield => coreStep s
  | .writeCmd w => submitWord w s
  | .writeArg v => .next { s with arg := v }
  | .writeResult _ => .next s
  | .writeStatus _ => .next s
  | .writeUnmapped _ _ => .next s
  | .readAt _ => .next s
  | .readOut => .next s
  | .loadInput bytes => loadInput bytes s
  | .reset => .next (hardReset s)

/-- The next step of host and block together: the host's next pending move, or the core's own step when the host is
silent (R74, assumption 1). -/
def systemStep (s : State) : Host.Outcome State Fault Refusal :=
  match s.hostMoves with
  | [] => coreStep s
  | m :: rest => hostStep m { s with hostMoves := rest }

end Sys2Proof.Machine
end

