-- ==== Sys2Proof/Machine/Step.lean ====
section
/-!
DEFINITION. One step of the machine, and how an instruction is placed where the next step takes it. The block fetches
nothing (spec/20_memory.md R77): a command reaches it by a host write of CMD, so that write is the fetch.
-/

namespace Sys2Proof.Machine

/-- One step: one atomic transition of the host or of the core (R73, R74). -/
def step (s : State) : Host.Outcome State Fault Refusal := systemStep s

/-- `s` with a host write of the command word whose bits are `w` as the host's very next move (assumption 3). -/
def State.withFetchWord (s : State) (nbits w : Nat) : State :=
  { s with hostMoves := .writeCmd (BitVec.ofNat 32 (w % 2 ^ nbits)) :: s.hostMoves }

end Sys2Proof.Machine
end

