-- ==== Sys2Proof/Safety.lean ====
section
/-!
DEFINITION. What claims about the block are stated in: the premises on the host's draws (spec/40_control.md R129),
the bit strings and tables the spec's laws speak of (20_memory.md R66; 43_huffman_tree_builder.md R183 to R189;
44_huffman_encoder.md R213), the invariants of the state (10_state.md R26, R29, R31, R35, R36), what a RUN in
progress guarantees (44 R221, 45 R254), and what a safe step is.
-/

namespace Sys2Proof.Machine

/-! ## Premises on the host -/

/-- The host draws OK at each of the next `n` accesses (R129). -/
abbrev drawsOk (n : Nat) (s : State) : Prop := ∀ d ∈ s.ioDraws.take n, d = IoDraw.ok

/-- The host draws OK at every access (R129). -/
abbrev allDrawsOk (s : State) : Prop := ∀ d ∈ s.ioDraws, d = IoDraw.ok

/-- The host draws OK `n` times and then IOERR. -/
abbrev drawsFailAt (n : Nat) (s : State) : Prop := drawsOk n s ∧ s.ioDraws[n]? = some IoDraw.ioerr

/-- The bytes of IN from `in_pos` on. -/
def State.unread (s : State) : List Byte := s.input.drop s.inPos.toNat

/-- Commands submitted one after the other, each one unit step (R122). -/
def commands : List Instr → State → Host.Outcome State Fault Refusal
  | [], s => .next s
  | i :: rest, s =>
    match exec i s with
    | .next s1 => commands rest s1
    | .fault f => .fault f
    | .refused r => .refused r

/-! ## Bit strings -/

/-- The eight bits of a byte, most significant first (R68). -/
def bitsOfByte (b : Byte) : List Bool := (List.range 8).map fun j => b.getLsbD (7 - j)

/-- The bits of a byte string, in order. -/
def bitsOfBytes (bs : List Byte) : List Bool := bs.flatMap bitsOfByte

/-- Byte k of a packed bit string: bits 8k..8k+7 in bits 7..0, and 0 at or beyond the end (R66). -/
def packByte (bits : List Bool) (k : Nat) : Byte :=
  BitVec.ofFnLE (n := 8) fun i => bits.getD (8 * k + (7 - i.val)) false

/-- The `ceil(m / 8)` bytes of a bit string of length m (R66). -/
def packBits (bits : List Bool) : List Byte := (List.range ((bits.length + 7) / 8)).map (packByte bits)

/-- The writer's buffered bits, `bsw_acc[bsw_n−1:0]`, oldest first (R28). -/
def bufferedBits (w : Writer) : List Bool :=
  (List.range w.n.toNat).map fun i => w.acc.getLsbD (w.n.toNat - 1 - i)

/-- The reader's next `n` bits by NextBit (R160); stops at END. -/
def readBits : Nat → State → Res (List Bool)
  | 0, s => .ret [] s
  | n + 1, s => (nextBit s).bind fun r s1 =>
    match r with
    | none => .ret [] s1
    | some b => (readBits n s1).bind fun bs s2 => .ret (b :: bs) s2

/-! ## Counts -/

/-- `f` holds, for each byte value, how often it occurs in the list (R11, R211). -/
def CountsOf (f : Freq) (l : List Byte) : Prop := ∀ b : Byte, (freqAt f b).toNat = l.count b

/-! ## Trees -/

/-- Entry `j` is a child of one of the merged entries k..i−1. -/
def childBefore (a : Arena) (k i j : Nat) : Prop :=
  ∃ m, k ≤ m ∧ m < i ∧ ((nodeAt a (BitVec.ofNat 9 m)).left.toNat = j ∨ (nodeAt a (BitVec.ofNat 9 m)).right.toNat = j)

/-- Entry `j` is live when entry `i` is made: it exists and has not been merged (R184). -/
def liveBefore (a : Arena) (k i j : Nat) : Prop := j < i ∧ ¬ childBefore a k i j

/-- The key order (weight, index), lexicographic (R184). -/
def keyBefore (a : Arena) (i j : Nat) : Prop :=
  (nodeAt a (BitVec.ofNat 9 i)).weight.toNat < (nodeAt a (BitVec.ofNat 9 j)).weight.toNat ∨
    ((nodeAt a (BitVec.ofNat 9 i)).weight = (nodeAt a (BitVec.ofNat 9 j)).weight ∧ i < j)

/-- Entry `n` is the merge R184 and R185 ask for: of the two live entries of least key, the first as the left child and
the second as the right child, with the exact sum of their weights. -/
def GreedyMerge (a : Arena) (k n : Nat) : Prop :=
  ∃ i j, liveBefore a k n i ∧ liveBefore a k n j ∧ i ≠ j ∧
    (∀ m, liveBefore a k n m → m ≠ i → keyBefore a i m) ∧
    (∀ m, liveBefore a k n m → m ≠ i → m ≠ j → keyBefore a j m) ∧
    (nodeAt a (BitVec.ofNat 9 n)).kind = .internal ∧ (nodeAt a (BitVec.ofNat 9 n)).sym = 0#8 ∧
    (nodeAt a (BitVec.ofNat 9 n)).left = BitVec.ofNat 9 i ∧ (nodeAt a (BitVec.ofNat 9 n)).right = BitVec.ofNat 9 j ∧
    (nodeAt a (BitVec.ofNat 9 n)).weight.toNat =
      (nodeAt a (BitVec.ofNat 9 i)).weight.toNat + (nodeAt a (BitVec.ofNat 9 j)).weight.toNat

/-- The node a path leads to from node `i`: 0 to the left child, 1 to the right (R11); none when the path meets a leaf
or an absent child. -/
def descend (a : Arena) : NodeIdx → List Bool → Option NodeIdx
  | i, [] => some i
  | i, b :: path =>
    match (nodeAt a i).kind with
    | .leaf => none
    | .internal =>
      let c := if b then (nodeAt a i).right else (nodeAt a i).left
      if c = Config.noneIdx then none else descend a c path

/-- A path from the root to the leaf of a symbol. -/
def LeafPath (a : Arena) (root : NodeIdx) (path : List Bool) (sym : Byte) : Prop :=
  ∃ i, descend a root path = some i ∧ (nodeAt a i).kind = .leaf ∧ (nodeAt a i).sym = sym

/-! ## Invariants -/

/-- The writer invariants (R29); `bsw_n ≤ 7` is the width of `bsw_n`. -/
abbrev WriterInv (s : State) : Prop :=
  s.bsw.acc.toNat < 2 ^ s.bsw.n.toNat ∧ (s.bsw.isOpen = false → s.bsw.acc = 0#8 ∧ s.bsw.n = 0#3)

/-- The reader invariants (R31). -/
abbrev ReaderInv (s : State) : Prop :=
  (s.bsr.isOpen = false → s.bsr = Reader.closed) ∧
    (s.bsr.isOpen = true → s.bsr.unlimited = false → s.bsr.count.toNat ≤ s.bsr.target.toNat)

/-- The input invariant (R26): `0 ≤ in_pos ≤ |IN| ≤ IN_LEN_MAX`. -/
abbrev InputInv (s : State) : Prop :=
  s.inPos.toNat ≤ s.input.length ∧ s.input.length ≤ Config.inLenMax

/-- tree_valid = 1 only while the arena holds the tree built from the current freq (R35). -/
def TreeInv (s : State) : Prop :=
  s.treeValid = true →
    ∃ a, buildTree s.freq a = some { arena := s.node, count := s.nodeCount, root := s.root }

/-- codes_valid = 1 only while the code table is the one derived from the current, valid tree (R36). -/
def CodesInv (s : State) : Prop :=
  s.codesValid = true →
    s.treeValid = true ∧ deriveCodes s.node s.root = some { len := s.codeLen, bits := s.codeBits }

/-- What holds at each label while a RUN is in progress (R123, R221, R254). -/
def PhaseInv (s : State) : Prop :=
  match s.seq with
  | .idle => True
  | .eCount => s.inPos = 0#64 ∧ s.bsw = Writer.closed
  | .eHeader => CountsOf s.freq s.input ∧ s.bsw = Writer.closed
  | .eBuild => CountsOf s.freq s.input ∧ s.bsw = Writer.closed ∧ total s.freq ≠ 0
  | .eDerive => CountsOf s.freq s.input ∧ s.bsw = Writer.closed ∧ s.treeValid = true
  | .eRewind => CountsOf s.freq s.input ∧ s.bsw = Writer.closed ∧ s.codesValid = true
  | .eOpen => CountsOf s.freq s.input ∧ s.bsw = Writer.closed ∧ s.codesValid = true
  | .eStep => CountsOf s.freq s.input ∧ s.bsw.isOpen = true ∧ s.codesValid = true
  | .eClose => s.bsw.isOpen = true
  | .dHeader => s.bsr = Reader.closed
  | .dBuild => s.bsr = Reader.closed ∧ total s.freq ≠ 0 ∧ s.emitted = 0#40
  | .dOpen => s.bsr = Reader.closed ∧ total s.freq ≠ 0 ∧ s.emitted = 0#40 ∧ s.treeValid = true
  | .dSymbol => s.bsr.isOpen = true ∧ s.bsr.unlimited = true ∧ s.treeValid = true ∧ s.emitted.toNat < total s.freq

/-- While a RUN is in progress DONE = 0 and CODE = OK (R24, R123), and its phase's facts hold. -/
def RunInv (s : State) : Prop := (s.seq ≠ .idle → s.done = false ∧ s.code = .ok) ∧ PhaseInv s

/-- Every invariant of the state together. -/
structure Inv (s : State) : Prop where
  writer : WriterInv s
  reader : ReaderInv s
  input : InputInv s
  tree : TreeInv s
  codes : CodesInv s
  run : RunInv s

/-! ## Safe steps -/

/-- A step is safe when it gives a next state: no fault, no refusal. -/
def SafeStep (s : State) : Prop := ∃ t, step s = .next t

/-- A submitted command has ended (R130): DONE = 1 and BUSY = 0. -/
abbrev Ended (s : State) : Prop := s.done = true ∧ s.busy = false

/-! ## The RUN tables -/

/-- The sub-command each label names, as the command of that name (R221, R254). -/
def subCommand : Seq → Option Instr
  | .idle => none
  | .eCount => some .encCount
  | .eHeader => some .encHeader
  | .eBuild => some .tbBuild
  | .eDerive => some .encDerive
  | .eRewind => some .ctrlRewind
  | .eOpen => some .bswOpen
  | .eStep => some .encStep
  | .eClose => some .bswClose
  | .dHeader => some .decHeader
  | .dBuild => some .tbBuild
  | .dOpen => some (.bsrOpen true)
  | .dSymbol => some .decSymbol

/-- How a RUN goes on after a sub-command: to a label, or to its end with a value for RESULT. -/
inductive RunNext
  | label (q : Seq)
  | finish (r : Word64)
  deriving DecidableEq, Repr

/-- The "next" column of the two RUN tables (R221, R254), from the label, the state the sub-command left and the value
it has for RESULT. -/
def runNext (q : Seq) (t : State) (value : Word64) : RunNext :=
  match q with
  | .idle => .label .idle
  | .eCount => .label .eHeader
  | .eHeader => if total t.freq = 0 then .finish (BitVec.ofNat 64 t.out.length) else .label .eBuild
  | .eBuild => .label .eDerive
  | .eDerive => .label .eRewind
  | .eRewind => .label .eOpen
  | .eOpen => .label .eStep
  | .eStep => if value.getLsbD 8 then .label .eClose else .label .eStep
  | .eClose => .finish (BitVec.ofNat 64 t.out.length)
  | .dHeader => if total t.freq = 0 then .finish 0#64 else .label .dBuild
  | .dBuild => .label .dOpen
  | .dOpen => .label .dSymbol
  | .dSymbol => if t.emitted.toNat = total t.freq then .finish (zext64 t.emitted) else .label .dSymbol

end Sys2Proof.Machine
end

