-- ==== Sys2Proof/Certificates/Slice0/Obligations.lean ====
section
/-!
DEFINITION. The statements for the provers, one `def Obligations.<Name> : Prop` each. Statements about a command are
about `exec`: the effect of submitting it at a state whose CMD already holds its word. A statement with an equation
`exec i s = .next t` says the result, the frame (every field `t` does not name is that of `s`) and that the command
completes, at once.
-/

open Sys2Proof Sys2Proof.Machine

/-! ## Encoding -/

/-- R91, R93, R100: decoding a command's word gives the command back, whatever its operand. -/
def Obligations.DecodeOfEncode : Prop :=
  ∀ i : Instr, i.wellFormed = true → decode (encode i) = .ok i

/-- R93: each word has one meaning, so re-encoding a decoded command gives the word, and it is well formed. -/
def Obligations.EncodeOfDecode : Prop :=
  ∀ (w : CmdWord) (i : Instr), decode w = .ok i → encode i = w ∧ i.wellFormed = true

/-- R95: the decoder accepts exactly the words of the 24 rows, by their match and mask. -/
def Obligations.LegalWordsAreTheDecodedOnes : Prop :=
  ∀ w : CmdWord, legalWord w = true ↔ ∃ i, decode w = .ok i

/-- R91, R93: words written out from the field layout decode to the commands they stand for. -/
def Obligations.WordsOfTheOpcodeMapDecode : Prop :=
  decode 0b00000001_000000000000000_0_00000000#32 = .ok .ctrlAbort ∧
  decode 0b00010001_000000000000000_0_00000001#32 = .ok (.bswPutbit 1) ∧
  decode 0b00100000_000000000000000_1_00000000#32 = .ok (.bsrOpen true) ∧
  decode 0b00110000_000000000000000_0_01100001#32 = .ok (.tbSetfreq 0x61) ∧
  decode 0b01000101_000000000000000_0_11111111#32 = .ok (.encEmit 0xFF) ∧
  decode 0b01011111_000000000000000_0_00000000#32 = .ok .decRun ∧
  decode 0b00000000_000000000000000_0_00000000#32 = .error (.undefinedCommand 0x00) ∧
  decode 0b00010001_000000000000000_0_00000010#32 = .error (.operandConstraint 0x11) ∧
  decode 0b00110010_000000000000000_1_00000000#32 = .error (.operandConstraint 0x32)

/-! ## Submission of a word, and the other moves of the host

The pending moves are the model's own field (assumption 1). -/

/-- R120, R121: when the host's next move writes a word that decodes, the step is the command's, with CMD holding the
word. -/
def Obligations.StepRunsTheDecodedCommand : Prop :=
  ∀ (s : State) (w : CmdWord) (i : Instr) (rest : List HostMove),
    s.hostMoves = .writeCmd w :: rest → decode w = .ok i →
      step s = exec i { s with hostMoves := rest, cmd := w }

/-- R96 with R120: an illegal word written while idle sets CODE and DONE, is kept in CMD, and changes nothing else. -/
def Obligations.IllegalWordWhileIdle : Prop :=
  ∀ (s : State) (w : CmdWord) (rest : List HostMove),
    s.hostMoves = .writeCmd w :: rest → legalWord w = false → s.seq = .idle →
      step s = .next { s with hostMoves := rest, cmd := w, done := true, code := .illegalCommand }

/-- R121: a word written while BUSY. CTRL.ABORT ends the RUN with ABORTED; any other word, legal or not, is not executed
and ends it with PROTOCOL_ERROR. -/
def Obligations.WordWhileBusyEndsTheRun : Prop :=
  ∀ (s : State) (w : CmdWord) (rest : List HostMove),
    s.hostMoves = .writeCmd w :: rest → s.seq ≠ .idle →
      (w = 0x01000000#32 →
        step s = .next { s with hostMoves := rest, cmd := w, seq := .idle, done := true, code := .aborted }) ∧
      (w ≠ 0x01000000#32 →
        step s = .next { s with hostMoves := rest, cmd := w, seq := .idle, done := true, code := .protocolError })

/-- R127: LOAD_INPUT while idle replaces IN and rewinds, and changes nothing else; the host has no such move at any
other time (the refusal is the model's form of that, assumption 5). -/
def Obligations.LoadInputMove : Prop :=
  ∀ (s : State) (bytes : List Byte) (rest : List HostMove),
    s.hostMoves = .loadInput bytes :: rest →
      (s.seq = .idle → bytes.length ≤ Config.inLenMax →
        step s = .next { s with hostMoves := rest, input := bytes, inPos := 0#64 }) ∧
      (s.seq ≠ .idle → step s = .refused .loadInputWhileBusy) ∧
      (s.seq = .idle → bytes.length > Config.inLenMax → step s = .refused .inputTooLong)

/-- R90, R128: the register map. Reads have no side effect and return the register; a write of ARG stores; writes of
RESULT, STATUS and the unmapped offsets are ignored. -/
def Obligations.HostRegisterAccess : Prop :=
  (∀ s : State,
    s.readReg 0x00#5 = s.cmd.setWidth 64 ∧ s.readReg 0x08#5 = s.arg ∧ s.readReg 0x10#5 = s.result ∧
    s.readReg 0x18#5 = s.statusWord.setWidth 64 ∧
    ∀ off : BitVec 5, off ≠ 0x00#5 → off ≠ 0x08#5 → off ≠ 0x10#5 → off ≠ 0x18#5 → s.readReg off = 0#64) ∧
  (∀ (s : State) (off : BitVec 5) (rest : List HostMove),
    s.hostMoves = .readAt off :: rest → step s = .next { s with hostMoves := rest }) ∧
  (∀ (s : State) (rest : List HostMove), s.hostMoves = .readOut :: rest → step s = .next { s with hostMoves := rest }) ∧
  (∀ (s : State) (off : BitVec 5) (v : Word64) (rest : List HostMove),
    s.hostMoves = HostMove.writeAt off v :: rest → off ≠ 0x00#5 →
      step s = .next { s with hostMoves := rest, arg := if off = 0x08#5 then v else s.arg }) ∧
  (∀ v : Word64, HostMove.writeAt 0x00#5 v = .writeCmd (v.extractLsb' 0 32))

/-- R310: the reset event sets every element to its reset value and leaves IN as it is, busy or not. -/
def Obligations.ResetEvent : Prop :=
  ∀ (s : State) (rest : List HostMove), s.hostMoves = .reset :: rest →
    step s = .next
      { cmd := 0#32, arg := 0#64, result := 0#64, done := false, code := .ok, seq := .idle
        input := s.input, inPos := 0#64, out := []
        bsw := { isOpen := false, acc := 0#8, n := 0#3 }
        bsr := { isOpen := false, ended := false, unlimited := false, byte := 0#8, pos := 8, count := 0#64, target := 0#64 }
        freq := Vector.replicate 256 0#32
        node := Vector.replicate 511 { kind := .leaf, sym := 0#8, left := 0x1FF#9, right := 0x1FF#9, weight := 0#40 }
        nodeCount := 0#10, root := 0#9, treeValid := false
        codeLen := Vector.replicate 256 0#8, codeBits := Vector.replicate 256 0#255, codesValid := false
        emitted := 0#40, ioDraws := s.ioDraws, hostMoves := rest }

/-- R310, R312: the state after power-on. -/
def Obligations.PowerOnState : Prop :=
  let r := State.reset
  r.cmd = 0#32 ∧ r.arg = 0#64 ∧ r.result = 0#64 ∧ r.statusWord = 0#32 ∧ r.seq = .idle ∧
  r.input = [] ∧ r.inPos = 0#64 ∧ r.out = [] ∧
  r.bsw = { isOpen := false, acc := 0#8, n := 0#3 } ∧
  r.bsr = { isOpen := false, ended := false, unlimited := false, byte := 0#8, pos := 8, count := 0#64, target := 0#64 } ∧
  (∀ sym, freqAt r.freq sym = 0#32) ∧
  (∀ i : NodeIdx, nodeAt r.node i = { kind := .leaf, sym := 0#8, left := 0x1FF#9, right := 0x1FF#9, weight := 0#40 }) ∧
  r.nodeCount = 0#10 ∧ r.root = 0#9 ∧ r.treeValid = false ∧
  (∀ sym, r.codeLenAt sym = 0#8 ∧ r.codeBitsAt sym = 0#255) ∧ r.codesValid = false ∧ r.emitted = 0#40

/-- R24, R280: the fields of STATUS. The mirrors are always equal to the elements they mirror, BUSY is `seq ≠ IDLE`, the
reserved bits read as 0, and CODE holds the number R280 gives the status. -/
def Obligations.StatusRegisterFields : Prop :=
  (∀ s : State,
    s.statusWord.getLsbD 0 = decide (s.seq ≠ .idle) ∧ s.statusWord.getLsbD 1 = s.done ∧
    s.statusWord.extractLsb' 2 2 = 0#2 ∧ s.statusWord.extractLsb' 4 4 = s.code.bits ∧
    s.statusWord.getLsbD 8 = s.bsw.isOpen ∧ s.statusWord.getLsbD 9 = s.bsr.isOpen ∧
    s.statusWord.getLsbD 10 = s.bsr.ended ∧ s.statusWord.getLsbD 11 = s.treeValid ∧
    s.statusWord.getLsbD 12 = s.codesValid ∧ s.statusWord.extractLsb' 13 3 = 0#3 ∧
    s.statusWord.extractLsb' 16 3 = s.bsw.n ∧ s.statusWord.extractLsb' 19 13 = 0#13) ∧
  StatusCode.bits .ok = 0#4 ∧ StatusCode.bits .ioError = 1#4 ∧ StatusCode.bits .formatError = 2#4 ∧
  StatusCode.bits .emptyInput = 3#4 ∧ StatusCode.bits .corruptStream = 4#4 ∧ StatusCode.bits .overflow = 5#4 ∧
  StatusCode.bits .illegalCommand = 6#4 ∧ StatusCode.bits .protocolError = 7#4 ∧ StatusCode.bits .aborted = 8#4

/-! ## Control -/

/-- R125: CTRL.ABORT while idle has no effect but CODE = OK and DONE = 1; while a RUN is in progress it ends it with
ABORTED and changes nothing else. -/
def Obligations.AbortStopsTheRun : Prop :=
  encode .ctrlAbort = 0x01000000#32 ∧ ∀ s : State,
    (s.seq = .idle → exec .ctrlAbort s = .next { s with done := true, code := .ok }) ∧
    (s.seq ≠ .idle → exec .ctrlAbort s = .next { s with seq := .idle, done := true, code := .aborted })

/-- R126: CTRL.REWIND moves the input position to the first byte and leaves the reader alone. -/
def Obligations.RewindMovesToTheFirstByte : Prop :=
  encode .ctrlRewind = 0x02000000#32 ∧ ∀ s : State, s.seq = .idle →
    exec .ctrlRewind s = .next { s with inPos := 0#64, done := true, code := .ok }

/-- R123: accepting a RUN clears OUT and in_pos, closes the writer and the reader, and starts the sequencer; it reads
and writes nothing. -/
def Obligations.RunAcceptance : Prop :=
  ∀ s : State, s.seq = .idle →
    exec .encRun s = .next
      { s with out := [], inPos := 0#64, bsw := { isOpen := false, acc := 0#8, n := 0#3 }
               bsr := { isOpen := false, ended := false, unlimited := false, byte := 0#8, pos := 8, count := 0#64, target := 0#64 }
               seq := .eCount, done := false, code := .ok } ∧
    exec .decRun s = .next
      { s with out := [], inPos := 0#64, bsw := { isOpen := false, acc := 0#8, n := 0#3 }
               bsr := { isOpen := false, ended := false, unlimited := false, byte := 0#8, pos := 8, count := 0#64, target := 0#64 }
               seq := .dHeader, done := false, code := .ok }

/-! ## The writer -/

/-- R141: BSW.OPEN. -/
def Obligations.BswOpenStartsAStream : Prop :=
  encode .bswOpen = 0x10000000#32 ∧ ∀ s : State, s.seq = .idle →
    (s.bsw.isOpen = false →
      exec .bswOpen s = .next { s with bsw := { isOpen := true, acc := 0#8, n := 0#3 }, done := true, code := .ok }) ∧
    (s.bsw.isOpen = true → exec .bswOpen s = .next { s with done := true, code := .protocolError })

/-- R140, R142: BSW.PUTBIT buffers a bit, and the 8th bit sends the byte at once or, when the write fails, loses it and
closes the writer. -/
def Obligations.BswPutbitAppendsOneBit : Prop :=
  (∀ imm : Byte, imm.toNat ≤ 1 → encode (.bswPutbit imm) = 0x11000000#32 ||| imm.setWidth 32) ∧
  (∀ imm : Byte, 1 < imm.toNat → legalWord (0x11000000#32 ||| imm.setWidth 32) = false) ∧
  ∀ (s : State) (imm : Byte), s.seq = .idle →
    (s.bsw.isOpen = false → exec (.bswPutbit imm) s = .next { s with done := true, code := .protocolError }) ∧
    (s.bsw.isOpen = true → s.bsw.n ≠ 7#3 →
      exec (.bswPutbit imm) s = .next
        { s with bsw := { isOpen := true, acc := s.bsw.acc.extractLsb' 0 7 ++ BitVec.ofBool (imm.getLsbD 0)
                          n := s.bsw.n + 1#3 }
                 done := true, code := .ok }) ∧
    (s.bsw.isOpen = true → s.bsw.n = 7#3 → s.ioDraws.head? ≠ some .ioerr →
      exec (.bswPutbit imm) s = .next
        { s with bsw := { isOpen := true, acc := 0#8, n := 0#3 }
                 out := s.out ++ [s.bsw.acc.extractLsb' 0 7 ++ BitVec.ofBool (imm.getLsbD 0)]
                 ioDraws := s.ioDraws.tail, done := true, code := .ok }) ∧
    (s.bsw.isOpen = true → s.bsw.n = 7#3 → s.ioDraws.head? = some .ioerr →
      exec (.bswPutbit imm) s = .next
        { s with bsw := { isOpen := false, acc := 0#8, n := 0#3 }
                 ioDraws := s.ioDraws.tail, done := true, code := .ioError })

/-- R143: BSW.CLOSE writes the final padded byte if bits remain, and closes the writer whether or not that write
succeeds. -/
def Obligations.BswCloseEndsTheStream : Prop :=
  encode .bswClose = 0x12000000#32 ∧ ∀ s : State, s.seq = .idle →
    (s.bsw.isOpen = false → exec .bswClose s = .next { s with done := true, code := .protocolError }) ∧
    (s.bsw.isOpen = true → s.bsw.n = 0#3 →
      exec .bswClose s = .next { s with bsw := { isOpen := false, acc := 0#8, n := 0#3 }, done := true, code := .ok }) ∧
    (s.bsw.isOpen = true → s.bsw.n ≠ 0#3 → s.ioDraws.head? ≠ some .ioerr →
      exec .bswClose s = .next
        { s with bsw := { isOpen := false, acc := 0#8, n := 0#3 }, out := s.out ++ [s.bsw.acc <<< (8 - s.bsw.n.toNat)]
                 ioDraws := s.ioDraws.tail, done := true, code := .ok }) ∧
    (s.bsw.isOpen = true → s.bsw.n ≠ 0#3 → s.ioDraws.head? = some .ioerr →
      exec .bswClose s = .next
        { s with bsw := { isOpen := false, acc := 0#8, n := 0#3 }
                 ioDraws := s.ioDraws.tail, done := true, code := .ioError })

/-- R144: the writer law. From a closed writer, OPEN, any number of PUTBITs and CLOSE append exactly the packed bytes of
the bits, first bit in bit 7, zeros at the end. -/
def Obligations.WriterPacksTheBits : Prop :=
  ∀ (s : State) (bits : List Bool), s.seq = .idle → s.bsw.isOpen = false → allDrawsOk s →
    commands ([.bswOpen] ++ bits.map (fun b => .bswPutbit (if b then 1 else 0)) ++ [.bswClose]) s = .next
      { s with bsw := { isOpen := false, acc := 0#8, n := 0#3 }, out := s.out ++ packBits bits
               ioDraws := s.ioDraws.drop ((bits.length + 7) / 8), done := true, code := .ok }

/-- R29: the writer invariants, which every step keeps. -/
def Obligations.WriterInvariantsKept : Prop :=
  ∀ s t : State, WriterInv s → step s = .next t → WriterInv t

/-! ## The reader -/

/-- R161: BSR.OPEN, limited to ARG bits or unlimited. -/
def Obligations.BsrOpenStartsAReader : Prop :=
  encode (.bsrOpen false) = 0x20000000#32 ∧ encode (.bsrOpen true) = 0x20000100#32 ∧
  ∀ (s : State) (u : Bool), s.seq = .idle →
    (s.bsr.isOpen = true → exec (.bsrOpen u) s = .next { s with done := true, code := .protocolError }) ∧
    (s.bsr.isOpen = false →
      exec (.bsrOpen u) s = .next
        { s with bsr := { isOpen := true, ended := false, unlimited := u, byte := 0#8, pos := 8, count := 0#64
                          target := if u then 0#64 else s.arg }
                 done := true, code := .ok })

/-- R160, R163: BSR.NEXT. END when the reader has ended, the target is reached or IN has run out; otherwise the next
bit, most significant first, fetching a byte only when none is left; a failed fetch changes nothing. -/
def Obligations.BsrNextYieldsTheNextBit : Prop :=
  encode .bsrNext = 0x21000000#32 ∧ ∀ s : State, s.seq = .idle →
    (s.bsr.isOpen = false → exec .bsrNext s = .next { s with done := true, code := .protocolError }) ∧
    (s.bsr.isOpen = true → s.bsr.ended = true →
      exec .bsrNext s = .next { s with result := 2#64, done := true, code := .ok }) ∧
    (s.bsr.isOpen = true → s.bsr.ended = false → s.bsr.unlimited = false → s.bsr.count = s.bsr.target →
      exec .bsrNext s = .next
        { s with bsr := { s.bsr with ended := true }, result := 2#64, done := true, code := .ok }) ∧
    (s.bsr.isOpen = true → s.bsr.ended = false → (s.bsr.unlimited = true ∨ s.bsr.count ≠ s.bsr.target) →
      (s.bsr.pos ≠ 8 →
        exec .bsrNext s = .next
          { s with bsr := { s.bsr with pos := s.bsr.pos + 1, count := s.bsr.count + 1#64 }
                   result := if s.bsr.byte.getLsbD (7 - s.bsr.pos.val) then 1#64 else 0#64, done := true, code := .ok }) ∧
      (s.bsr.pos = 8 → s.ioDraws.head? = some .ioerr →
        exec .bsrNext s = .next { s with ioDraws := s.ioDraws.tail, done := true, code := .ioError }) ∧
      (s.bsr.pos = 8 → s.ioDraws.head? ≠ some .ioerr → s.input[s.inPos.toNat]? = none →
        exec .bsrNext s = .next
          { s with bsr := { s.bsr with ended := true }, ioDraws := s.ioDraws.tail
                   result := 2#64, done := true, code := .ok }) ∧
      (∀ b, s.bsr.pos = 8 → s.ioDraws.head? ≠ some .ioerr → s.input[s.inPos.toNat]? = some b →
        exec .bsrNext s = .next
          { s with bsr := { s.bsr with byte := b, pos := 1, count := s.bsr.count + 1#64 }
                   inPos := s.inPos + 1#64, ioDraws := s.ioDraws.tail
                   result := if b.getLsbD 7 then 1#64 else 0#64, done := true, code := .ok }))

/-- R164: BSR.CLOSE discards the reader; in_pos is not moved back. -/
def Obligations.BsrCloseDiscardsTheReader : Prop :=
  encode .bsrClose = 0x22000000#32 ∧ ∀ s : State, s.seq = .idle →
    (s.bsr.isOpen = false → exec .bsrClose s = .next { s with done := true, code := .protocolError }) ∧
    (s.bsr.isOpen = true →
      exec .bsrClose s = .next
        { s with bsr := { isOpen := false, ended := false, unlimited := false, byte := 0#8, pos := 8, count := 0#64, target := 0#64 }
                 done := true, code := .ok })

/-- R162: the reader law. After BSR.OPEN at in_pos = p, with every draw OK, the j-th NEXT gives bit j of IN[p], IN[p+1], …,
each byte from bit 7 down, and in_pos is then p + ceil((j+1)/8); after t = min(target, 8·(|IN| − p)) bits (without the
target when unlimited) NEXT gives END, with in_pos = p + ceil(t/8). -/
def Obligations.ReaderYieldsTheInputBits : Prop :=
  ∀ (s : State) (u : Bool) (j : Nat), s.seq = .idle → s.bsr.isOpen = false → allDrawsOk s → InputInv s →
    let t := if u then 8 * s.unread.length else min s.arg.toNat (8 * s.unread.length)
    ∃ s1, commands ([.bsrOpen u] ++ List.replicate (j + 1) .bsrNext) s = .next s1 ∧ s1.code = .ok ∧
      (j < t → s1.result = (if (bitsOfBytes s.unread).getD j false then 1#64 else 0#64) ∧
        s1.inPos.toNat = s.inPos.toNat + (j + 8) / 8) ∧
      (t ≤ j → s1.result = 2#64 ∧ s1.inPos.toNat = s.inPos.toNat + (t + 7) / 8)

/-- R31: the reader invariants, which every step keeps. -/
def Obligations.ReaderInvariantsKept : Prop :=
  ∀ s t : State, ReaderInv s → step s = .next t → ReaderInv t

/-! ## The tree builder -/

/-- R181: TB.SETFREQ writes one count from ARG[31:0] and clears both valid flags. -/
def Obligations.SetfreqWritesOneCount : Prop :=
  (∀ sym : Byte, encode (.tbSetfreq sym) = 0x30000000#32 ||| sym.setWidth 32) ∧
  ∀ (s : State) (sym : Byte), s.seq = .idle →
    ∃ f : Freq,
      exec (.tbSetfreq sym) s = .next
        { s with freq := f, treeValid := false, codesValid := false, done := true, code := .ok } ∧
      freqAt f sym = s.arg.extractLsb' 0 32 ∧ ∀ other, other ≠ sym → freqAt f other = freqAt s.freq other

/-- R182: TB.GETFREQ reads one count, whatever tree_valid is. -/
def Obligations.GetfreqReadsOneCount : Prop :=
  (∀ sym : Byte, encode (.tbGetfreq sym) = 0x31000000#32 ||| sym.setWidth 32) ∧
  ∀ (s : State) (sym : Byte), s.seq = .idle →
    exec (.tbGetfreq sym) s = .next
      { s with result := (freqAt s.freq sym).setWidth 64, done := true, code := .ok }

/-- R186, R187: the degenerate tables. An all-zero table ends TB.BUILD with EMPTY_INPUT; a single symbol gives an internal
root over one leaf. -/
def Obligations.BuildOfDegenerateTables : Prop :=
  (∀ s : State, s.seq = .idle → (∀ sym, freqAt s.freq sym = 0#32) →
    exec .tbBuild s = .next
      { s with nodeCount := 0#10, root := 0#9, treeValid := false, codesValid := false, done := true
               code := .emptyInput }) ∧
  ∀ (s : State) (sym : Byte), s.seq = .idle → freqAt s.freq sym ≠ 0#32 →
    (∀ other, other ≠ sym → freqAt s.freq other = 0#32) →
      exec .tbBuild s = .next
        { s with node := setNode
                   (setNode s.node 0#9 { kind := .leaf, sym := sym, left := 0x1FF#9, right := 0x1FF#9
                                         weight := (freqAt s.freq sym).setWidth 40 })
                   1#9 { kind := .internal, sym := 0#8, left := 0#9, right := 0x1FF#9
                         weight := (freqAt s.freq sym).setWidth 40 }
                 nodeCount := 2#10, root := 1#9, treeValid := true, codesValid := false
                 result := (freqAt s.freq sym).setWidth 64, done := true, code := .ok }

/-- R183 to R185, R188: with two or more symbols, TB.BUILD completes; the leaves stand in entries 0..k−1 in symbol order;
every further entry is the merge of the two least live keys, first left, second right; node_count = 2k − 1 and
root = 2k − 2; entries at or above node_count keep their values. -/
def Obligations.BuildMakesTheGreedyTree : Prop :=
  ∀ s : State, s.seq = .idle → 2 ≤ (usedSymbols s.freq).length →
    let k := (usedSymbols s.freq).length
    ∃ (a : Arena) (r : Word64),
      exec .tbBuild s = .next
        { s with node := a, nodeCount := BitVec.ofNat 10 (2 * k - 1), root := BitVec.ofNat 9 (2 * k - 2)
                 treeValid := true, codesValid := false, result := r, done := true, code := .ok } ∧
      (∀ (i : Nat) (sym : Byte), (usedSymbols s.freq)[i]? = some sym →
        nodeAt a (BitVec.ofNat 9 i) =
          { kind := .leaf, sym := sym, left := 0x1FF#9, right := 0x1FF#9, weight := (freqAt s.freq sym).setWidth 40 }) ∧
      (∀ n, k ≤ n → n < 2 * k - 1 → GreedyMerge a k n) ∧
      (∀ n, 2 * k - 1 ≤ n → n < 511 → nodeAt a (BitVec.ofNat 9 n) = nodeAt s.node (BitVec.ofNat 9 n))

/-- R188, R189 (law 3): TB.BUILD succeeds on any table that is not all zero, and RESULT and the root's weight are the
total. -/
def Obligations.BuiltRootWeighsTheTotal : Prop :=
  ∀ (s : State) (sym : Byte), s.seq = .idle → freqAt s.freq sym ≠ 0#32 →
    ∃ (a : Arena) (count : BitVec 10) (root : NodeIdx),
      exec .tbBuild s = .next
        { s with node := a, nodeCount := count, root := root, treeValid := true, codesValid := false
                 result := BitVec.ofNat 64 (total s.freq), done := true, code := .ok } ∧
      (nodeAt a root).weight.toNat = total s.freq

/-- R190: the tree is a function of freq alone. -/
def Obligations.BuildDependsOnFreqAlone : Prop :=
  ∀ s1 s2 t1 t2 : State, s1.seq = .idle → s2.seq = .idle → s1.freq = s2.freq →
    exec .tbBuild s1 = .next t1 → exec .tbBuild s2 = .next t2 →
      t1.code = t2.code ∧ t1.treeValid = t2.treeValid ∧ t1.nodeCount = t2.nodeCount ∧ t1.root = t2.root ∧
      ∀ i : NodeIdx, i.toNat < t1.nodeCount.toNat → nodeAt t1.node i = nodeAt t2.node i

/-- R191: TB.INFO. -/
def Obligations.InfoReadsSizeAndRoot : Prop :=
  encode .tbInfo = 0x33000000#32 ∧ ∀ s : State, s.seq = .idle →
    (s.treeValid = false → exec .tbInfo s = .next { s with done := true, code := .protocolError }) ∧
    (s.treeValid = true → ∃ r : Word64,
      exec .tbInfo s = .next { s with result := r, done := true, code := .ok } ∧
      r.extractLsb' 0 9 = s.root ∧ r.extractLsb' 9 7 = 0#7 ∧ r.extractLsb' 16 10 = s.nodeCount ∧
      r.extractLsb' 26 38 = 0#38)

/-- R192: TB.NODE. -/
def Obligations.NodeReadsOneEntry : Prop :=
  encode .tbNode = 0x34000000#32 ∧ ∀ s : State, s.seq = .idle →
    let i : NodeIdx := s.arg.extractLsb' 0 9
    (s.treeValid = false → exec .tbNode s = .next { s with done := true, code := .protocolError }) ∧
    (s.treeValid = true → s.nodeCount.toNat ≤ i.toNat →
      exec .tbNode s = .next { s with result := 0#64, done := true, code := .ok }) ∧
    (s.treeValid = true → i.toNat < s.nodeCount.toNat → ∃ r : Word64,
      exec .tbNode s = .next { s with result := r, done := true, code := .ok } ∧
      r.extractLsb' 0 40 = (nodeAt s.node i).weight ∧ r.extractLsb' 58 4 = 0#4 ∧ r.getLsbD 63 = true ∧
      ((nodeAt s.node i).kind = .leaf →
        r.extractLsb' 40 9 = (nodeAt s.node i).sym.setWidth 9 ∧ r.extractLsb' 49 9 = 0x1FF#9 ∧ r.getLsbD 62 = true) ∧
      ((nodeAt s.node i).kind = .internal →
        r.extractLsb' 40 9 = (nodeAt s.node i).left ∧ r.extractLsb' 49 9 = (nodeAt s.node i).right ∧
        r.getLsbD 62 = false))

/-! ## The encoder -/

/-- R211: ENC.COUNT counts the bytes from in_pos to the end of IN. -/
def Obligations.CountCountsTheUnreadBytes : Prop :=
  ∀ s : State, s.seq = .idle → InputInv s → drawsOk (s.unread.length + 1) s →
    (∀ b, s.unread.count b < 2 ^ 32) →
      ∃ f : Freq, CountsOf f s.unread ∧
        exec .encCount s = .next
          { s with freq := f, treeValid := false, codesValid := false
                   inPos := BitVec.ofNat 64 s.input.length, ioDraws := s.ioDraws.drop (s.unread.length + 1)
                   result := BitVec.ofNat 64 s.unread.length, done := true, code := .ok }

/-- R211, R282: how ENC.COUNT fails. A failed read ends it with IO_ERROR; the 2^32-th occurrence of a byte value with
OVERFLOW, that byte consumed; freq, the valid flags and RESULT are unchanged, and in_pos is past the last byte read. -/
def Obligations.CountFailsPrecisely : Prop :=
  ∀ (s : State) (j : Nat), s.seq = .idle → InputInv s → j ≤ s.unread.length →
    (∀ b, (s.unread.take j).count b < 2 ^ 32) →
      (drawsFailAt j s →
        exec .encCount s = .next
          { s with inPos := s.inPos + BitVec.ofNat 64 j, ioDraws := s.ioDraws.drop (j + 1)
                   done := true, code := .ioError }) ∧
      (∀ b, s.unread[j]? = some b → (s.unread.take j).count b = 2 ^ 32 - 1 → drawsOk (j + 1) s →
        exec .encCount s = .next
          { s with inPos := s.inPos + BitVec.ofNat 64 (j + 1), ioDraws := s.ioDraws.drop (j + 1)
                   done := true, code := .overflow })

/-- R65, R212: ENC.HEADER appends the 1024 header bytes straight to OUT, byte 4i + j holding bits [31−8j : 24−8j] of
freq[i]; a write that fails ends it with the bytes before it in OUT. -/
def Obligations.HeaderWritesTheCounts : Prop :=
  encode .encHeader = 0x41000000#32 ∧ ∀ s : State, s.seq = .idle →
    ∃ h : List Byte, h.length = 1024 ∧
      (∀ (sym : Byte) (j : Nat), j < 4 →
        h[4 * sym.toNat + j]? = some ((freqAt s.freq sym).extractLsb' (24 - 8 * j) 8)) ∧
      (drawsOk 1024 s →
        exec .encHeader s = .next
          { s with out := s.out ++ h, ioDraws := s.ioDraws.drop 1024, done := true, code := .ok }) ∧
      (∀ n, n < 1024 → drawsFailAt n s →
        exec .encHeader s = .next
          { s with out := s.out ++ h.take n, ioDraws := s.ioDraws.drop (n + 1), done := true, code := .ioError })

/-- R213, R214: ENC.DERIVE. Without a valid tree it ends with PROTOCOL_ERROR; with one it completes, and each symbol in
use gets its root-to-leaf path as its code, of 1 to 255 bits, and every other symbol none. -/
def Obligations.DeriveBindsRootToLeafPaths : Prop :=
  ∀ s : State, s.seq = .idle → TreeInv s →
    (s.treeValid = false → exec .encDerive s = .next { s with done := true, code := .protocolError }) ∧
    (s.treeValid = true → ∃ (len : Vector (BitVec 8) 256) (bits : Vector (BitVec 255) 256),
      let t : State :=
        { s with codeLen := len, codeBits := bits, codesValid := true
                 result := BitVec.ofNat 64 (payloadBits s.freq len), done := true, code := .ok }
      exec .encDerive s = .next t ∧
      ∀ sym : Byte,
        (freqAt s.freq sym = 0#32 → t.codeLenAt sym = 0#8 ∧ t.codeBitsAt sym = 0#255) ∧
        (freqAt s.freq sym ≠ 0#32 →
          LeafPath s.node s.root (t.codeOf sym) sym ∧ 1 ≤ (t.codeOf sym).length ∧
          ∀ j, (t.codeOf sym).length ≤ j → (t.codeBitsAt sym).getLsbD j = false))

/-- R215 (items 1 and 3): with a valid code table a symbol has a code exactly when it is in use, and no code is a prefix
of another. -/
def Obligations.CodesArePrefixFree : Prop :=
  ∀ s : State, TreeInv s → CodesInv s → s.codesValid = true → ∀ sym : Byte,
    (s.codeLenAt sym = 0#8 ↔ freqAt s.freq sym = 0#32) ∧
    ∀ other : Byte, freqAt s.freq sym ≠ 0#32 → freqAt s.freq other ≠ 0#32 → sym ≠ other →
      ¬ s.codeOf sym <+: s.codeOf other

/-- R216: ENC.CODELEN. -/
def Obligations.CodelenReadsTheLength : Prop :=
  (∀ sym : Byte, encode (.encCodelen sym) = 0x43000000#32 ||| sym.setWidth 32) ∧
  ∀ (s : State) (sym : Byte), s.seq = .idle →
    (s.codesValid = false → exec (.encCodelen sym) s = .next { s with done := true, code := .protocolError }) ∧
    (s.codesValid = true → exec (.encCodelen sym) s = .next
      { s with result := (s.codeLenAt sym).setWidth 64, done := true, code := .ok })

/-- R217: ENC.CODEWORD reads chunk k = ARG[1:0] of a code, code bit 64k + j in RESULT[63 − j], 0 past the code's end. -/
def Obligations.CodewordReadsAChunk : Prop :=
  (∀ sym : Byte, encode (.encCodeword sym) = 0x44000000#32 ||| sym.setWidth 32) ∧
  ∀ (s : State) (sym : Byte), s.seq = .idle →
    let k := (s.arg.extractLsb' 0 2).toNat
    (s.codesValid = false → exec (.encCodeword sym) s = .next { s with done := true, code := .protocolError }) ∧
    (s.codesValid = true → ∃ r : Word64,
      exec (.encCodeword sym) s = .next { s with result := r, done := true, code := .ok } ∧
      ∀ j, j < 64 → r.getLsbD (63 - j) =
        (if 64 * k + j < (s.codeLenAt sym).toNat then (s.codeBitsAt sym).getLsbD (64 * k + j) else false))

/-- R218, R219, R282: ENC.EMIT sends one code through the writer. Of the buffered bits followed by the code, every full
byte is written and the rest stays buffered; when a write fails the bytes before it are in OUT and the writer is
closed. -/
def Obligations.EmitSendsOneCode : Prop :=
  (∀ sym : Byte, encode (.encEmit sym) = 0x45000000#32 ||| sym.setWidth 32) ∧
  ∀ (s : State) (sym : Byte), s.seq = .idle →
    let bits := bufferedBits s.bsw ++ s.codeOf sym
    let m := bits.length / 8
    ((s.codesValid = false ∨ s.bsw.isOpen = false ∨ s.codeLenAt sym = 0#8) →
      exec (.encEmit sym) s = .next { s with done := true, code := .protocolError }) ∧
    (s.codesValid = true → s.bsw.isOpen = true → s.codeLenAt sym ≠ 0#8 →
      (drawsOk m s → ∃ w : Writer, w.isOpen = true ∧ bufferedBits w = bits.drop (8 * m) ∧
        exec (.encEmit sym) s = .next
          { s with bsw := w, out := s.out ++ packBits (bits.take (8 * m)), ioDraws := s.ioDraws.drop m
                   done := true, code := .ok }) ∧
      (∀ n, n < m → drawsFailAt n s →
        exec (.encEmit sym) s = .next
          { s with bsw := { isOpen := false, acc := 0#8, n := 0#3 }, out := s.out ++ packBits (bits.take (8 * n))
                   ioDraws := s.ioDraws.drop (n + 1), done := true, code := .ioError }))

/-- R220, R282: ENC.STEP reads one input byte and sends its code; EOF is not an error; a read that fails consumes
nothing, and a write that fails leaves the byte consumed and the writer closed. -/
def Obligations.StepReadsAByteAndSendsItsCode : Prop :=
  encode .encStep = 0x46000000#32 ∧ ∀ s : State, s.seq = .idle →
    ((s.codesValid = false ∨ s.bsw.isOpen = false) →
      exec .encStep s = .next { s with done := true, code := .protocolError }) ∧
    (s.codesValid = true → s.bsw.isOpen = true →
      (s.ioDraws.head? = some .ioerr →
        exec .encStep s = .next { s with ioDraws := s.ioDraws.tail, done := true, code := .ioError }) ∧
      (s.ioDraws.head? ≠ some .ioerr → s.input[s.inPos.toNat]? = none →
        exec .encStep s = .next
          { s with ioDraws := s.ioDraws.tail, result := 0x100#64, done := true, code := .ok }) ∧
      (∀ b, s.ioDraws.head? ≠ some .ioerr → s.input[s.inPos.toNat]? = some b →
        let bits := bufferedBits s.bsw ++ s.codeOf b
        let m := bits.length / 8
        (s.codeLenAt b = 0#8 →
          exec .encStep s = .next
            { s with inPos := s.inPos + 1#64, ioDraws := s.ioDraws.tail, done := true, code := .protocolError }) ∧
        (s.codeLenAt b ≠ 0#8 → drawsOk (m + 1) s →
          ∃ w : Writer, w.isOpen = true ∧ bufferedBits w = bits.drop (8 * m) ∧
            exec .encStep s = .next
              { s with inPos := s.inPos + 1#64, bsw := w, out := s.out ++ packBits (bits.take (8 * m))
                       ioDraws := s.ioDraws.drop (m + 1), result := b.setWidth 64, done := true, code := .ok }) ∧
        (s.codeLenAt b ≠ 0#8 → ∀ n, n < m → drawsFailAt (n + 1) s →
          exec .encStep s = .next
            { s with inPos := s.inPos + 1#64, bsw := { isOpen := false, acc := 0#8, n := 0#3 }
                     out := s.out ++ packBits (bits.take (8 * n)), ioDraws := s.ioDraws.drop (n + 2)
                     done := true, code := .ioError })))

/-! ## The decoder -/

/-- R251, R282: DEC.HEADER reads 1024 bytes into freq, big-endian; a short input or a failed read changes nothing but
in_pos, which is past the last byte read. -/
def Obligations.DecHeaderReadsTheCounts : Prop :=
  encode .decHeader = 0x50000000#32 ∧ ∀ s : State, s.seq = .idle → InputInv s →
    (1024 ≤ s.unread.length → drawsOk 1024 s →
      ∃ f : Freq,
        exec .decHeader s = .next
          { s with freq := f, treeValid := false, codesValid := false, emitted := 0#40
                   inPos := s.inPos + 1024#64, ioDraws := s.ioDraws.drop 1024
                   result := BitVec.ofNat 64 (total f), done := true, code := .ok } ∧
        ∀ (sym : Byte) (j : Nat), j < 4 →
          s.unread[4 * sym.toNat + j]? = some ((freqAt f sym).extractLsb' (24 - 8 * j) 8)) ∧
    (s.unread.length < 1024 → drawsOk (s.unread.length + 1) s →
      exec .decHeader s = .next
        { s with inPos := BitVec.ofNat 64 s.input.length, ioDraws := s.ioDraws.drop (s.unread.length + 1)
                 done := true, code := .formatError }) ∧
    (∀ n, n < 1024 → n ≤ s.unread.length → drawsFailAt n s →
      exec .decHeader s = .next
        { s with inPos := s.inPos + BitVec.ofNat 64 n, ioDraws := s.ioDraws.drop (n + 1)
                 done := true, code := .ioError })

/-- R252, R253: DEC.SYMBOL. When the reader's next bits are a path from the root to a leaf, it consumes exactly those
bits and emits that leaf's symbol; a payload that ends first is FORMAT_ERROR, an absent child CORRUPT_STREAM, a failed
read or write IO_ERROR with emitted and OUT as they were. -/
def Obligations.DecSymbolWalksToALeaf : Prop :=
  encode .decSymbol = 0x51000000#32 ∧ ∀ s : State, s.seq = .idle →
    ((s.treeValid = false ∨ s.bsr.isOpen = false) →
      exec .decSymbol s = .next { s with done := true, code := .protocolError }) ∧
    (s.treeValid = true → s.bsr.isOpen = true → InputInv s →
      ∀ (n : Nat) (bits : List Bool) (s1 : State), readBits n (startCommand s) = .ret bits s1 →
        (∀ sym, bits.length = n → n ≠ 0 → LeafPath s.node s.root bits sym → s1.ioDraws.head? ≠ some .ioerr →
          exec .decSymbol s = .next
            { s1 with out := s.out ++ [sym], emitted := s.emitted + 1#40, ioDraws := s1.ioDraws.tail
                      result := sym.setWidth 64, done := true, code := .ok }) ∧
        (∀ sym, bits.length = n → n ≠ 0 → LeafPath s.node s.root bits sym → s1.ioDraws.head? = some .ioerr →
          exec .decSymbol s = .next { s1 with ioDraws := s1.ioDraws.tail, done := true, code := .ioError }) ∧
        (∀ i, bits.length < n → descend s.node s.root bits = some i → (nodeAt s.node i).kind = .internal →
          exec .decSymbol s = .next { s1 with done := true, code := .formatError }) ∧
        (∀ i path b, bits = path ++ [b] → bits.length = n → descend s.node s.root path = some i →
          (nodeAt s.node i).kind = .internal →
          (if b then (nodeAt s.node i).right else (nodeAt s.node i).left) = 0x1FF#9 →
            exec .decSymbol s = .next { s1 with done := true, code := .corruptStream }) ∧
        (∀ i s2, bits.length = n → descend s.node s.root bits = some i → (nodeAt s.node i).kind = .internal →
          nextBit s1 = .raise .ioError s2 → exec .decSymbol s = .next { s2 with done := true, code := .ioError }))

/-- R65: the header's layout is lossless: the table read back from the bytes written is the table. -/
def Obligations.HeaderRoundTrip : Prop :=
  ∀ f : Freq, headerFreq (headerBytes f) = f

/-! ## RUNs -/

/-- R124, R221, R254: a core step is the unit rule of the label's sub-command, without its RESULT write: where that
command, issued on its own, ends with an error, the RUN ends with it and RESULT unchanged; where it ends OK, the RUN
goes on as its table says. -/
def Obligations.CoreStepPerformsTheSubCommand : Prop :=
  ∀ (s t : State) (i : Instr), s.done = false → s.code = .ok → subCommand s.seq = some i →
    exec i { s with seq := .idle } = .next t →
      (t.code ≠ .ok → coreStep s = .next { t with seq := .idle, result := s.result }) ∧
      (t.code = .ok → coreStep s = .next
        (match runNext s.seq t t.result with
         | .label q => { t with seq := q, result := s.result, done := false, code := .ok }
         | .finish r => { t with seq := .idle, result := r, done := true, code := .ok }))

/-- R295, R124: while idle and the host is silent nothing changes; the host's yield gives the core its step. -/
def Obligations.IdleBlockWaits : Prop :=
  (∀ s : State, s.hostMoves = [] → s.seq = .idle → step s = .next s) ∧
  (∀ (s : State) (rest : List HostMove), s.hostMoves = .yield :: rest → step s = coreStep { s with hostMoves := rest }) ∧
  (∀ s : State, s.hostMoves = [] → step s = coreStep s)

/-- R222, R255: the RUNs on nothing. ENC.RUN on an empty input ends OK after two core steps with 1024 zero bytes and no
tree or writer; DEC.RUN on a container whose total is 0 ends OK after the header and reads nothing past it. -/
def Obligations.RunsOnEmptyInput : Prop :=
  (∀ s s1 : State, s.seq = .idle → s.hostMoves = [] → s.input = [] → allDrawsOk s → exec .encRun s = .next s1 →
    ∃ t, Host.Core.run Sys2Proof.core 2 s1 = .next t ∧ t.seq = .idle ∧ t.done = true ∧ t.code = .ok ∧
      t.out = List.replicate 1024 0#8 ∧ t.result = 1024#64 ∧ t.bsw.isOpen = false ∧ t.treeValid = false) ∧
  ∀ (s s1 : State) (rest : List Byte), s.seq = .idle → s.hostMoves = [] →
    s.input = List.replicate 1024 0#8 ++ rest → s.input.length ≤ Config.inLenMax → allDrawsOk s →
    exec .decRun s = .next s1 →
      ∃ t, Host.Core.run Sys2Proof.core 1 s1 = .next t ∧ t.seq = .idle ∧ t.done = true ∧ t.code = .ok ∧
        t.out = [] ∧ t.result = 0#64 ∧ t.inPos = 1024#64

/-- R124, R316: every RUN ends when the host is silent: ENC.RUN within |IN| + 8 core steps, DEC.RUN within total + 3,
whatever the host draws. -/
def Obligations.EveryRunEnds : Prop :=
  ∀ s : State, s.hostMoves = [] → InputInv s →
    (s.seq = .eCount → ∃ t, Host.Core.run Sys2Proof.core (s.input.length + 8) s = .next t ∧ t.seq = .idle) ∧
    (s.seq = .dHeader → ∃ k t, Host.Core.run Sys2Proof.core k s = .next t ∧ t.seq = .idle ∧ k ≤ total t.freq + 3)

/-- R223: the encoder law. With every draw OK and fewer than 2^32 copies of any byte, ENC.RUN leaves the header of the
counts followed by the packed codes, with RESULT = |OUT| and in_pos = |S|. -/
def Obligations.EncoderLaw : Prop :=
  ∀ s s1 : State, s.seq = .idle → s.hostMoves = [] → allDrawsOk s → s.input.length ≤ Config.inLenMax →
    (∀ b, s.input.count b < 2 ^ 32) → exec .encRun s = .next s1 →
      ∃ t, Host.Core.run Sys2Proof.core (if s.input = [] then 2 else s.input.length + 8) s1 = .next t ∧
        t.seq = .idle ∧ t.done = true ∧ t.code = .ok ∧ CountsOf t.freq s.input ∧
        (s.input ≠ [] → CodesInv t ∧ TreeInv t ∧ t.codesValid = true) ∧
        t.out = headerBytes t.freq ++ packBits (s.input.flatMap t.codeOf) ∧
        t.result = BitVec.ofNat 64 t.out.length ∧ t.inPos = BitVec.ofNat 64 s.input.length

/-- R258: the round trip. Decoding what ENC.RUN left gives the input back, byte for byte, in any idle state and with
every draw OK. -/
def Obligations.DecodeOfEncodedInputIsTheInput : Prop :=
  ∀ (s s1 t u u1 : State) (n : Nat), s.seq = .idle → s.hostMoves = [] → s.input.length ≤ Config.inLenMax →
    exec .encRun s = .next s1 → Host.Core.run Sys2Proof.core n s1 = .next t → t.seq = .idle → t.code = .ok →
    u.seq = .idle → u.hostMoves = [] → allDrawsOk u → u.input = t.out → exec .decRun u = .next u1 →
      ∃ m v, Host.Core.run Sys2Proof.core m u1 = .next v ∧ v.seq = .idle ∧ v.done = true ∧ v.code = .ok ∧
        v.out = s.input ∧ v.result = BitVec.ofNat 64 s.input.length ∧ v.inPos = BitVec.ofNat 64 t.out.length

/-! ## The whole machine -/

/-- R22, R26: no command, and no core step of a RUN, changes ARG, IN or CMD (only host moves do), or the host's own
pending moves. -/
def Obligations.CommandsKeepTheHostsRegisters : Prop :=
  (∀ (i : Instr) (s t : State), exec i s = .next t →
    t.cmd = s.cmd ∧ t.arg = s.arg ∧ t.input = s.input ∧ t.hostMoves = s.hostMoves) ∧
  (∀ s t : State, coreStep s = .next t →
    t.cmd = s.cmd ∧ t.arg = s.arg ∧ t.input = s.input ∧ t.hostMoves = s.hostMoves)

/-- R281: what an error records, of a command and of a RUN in progress: CODE, DONE = 1, `seq` IDLE; CMD and RESULT keep
their values. -/
def Obligations.ErrorsRecordOnlyCodeAndDone : Prop :=
  (∀ (i : Instr) (s t : State), exec i s = .next t → t.code ≠ .ok →
    t.done = true ∧ t.seq = .idle ∧ t.cmd = s.cmd ∧ t.result = s.result) ∧
  (∀ s t : State, s.seq ≠ .idle → s.code = .ok → coreStep s = .next t → t.code ≠ .ok →
    t.done = true ∧ t.seq = .idle ∧ t.cmd = s.cmd ∧ t.result = s.result)

/-- R280, R285: the errors a command issued while idle can end with. -/
def Obligations.ErrorMatrix : Prop :=
  ∀ (i : Instr) (s t : State), s.seq = .idle → exec i s = .next t →
    t.code = .ok ∨
      (t.code = .ioError ∧ i ∈ [.bswClose, .bsrNext, .encCount, .encHeader, .encStep, .decHeader, .decSymbol]) ∨
      (t.code = .ioError ∧ ∃ x, i = .bswPutbit x ∨ i = .encEmit x) ∨
      (t.code = .formatError ∧ i ∈ [.decHeader, .decSymbol]) ∨
      (t.code = .emptyInput ∧ i = .tbBuild) ∨
      (t.code = .corruptStream ∧ i = .decSymbol) ∨
      (t.code = .overflow ∧ i = .encCount) ∨
      (t.code = .protocolError ∧
        i ∈ [.bswOpen, .bswClose, .bsrNext, .bsrClose, .tbInfo, .tbNode, .encDerive, .encStep, .decSymbol]) ∨
      (t.code = .protocolError ∧ ∃ x, i = .bswPutbit x ∨ i = .encCodelen x ∨ i = .encCodeword x ∨ i = .encEmit x) ∨
      (t.code = .protocolError ∧ ∃ u, i = .bsrOpen u)

/-- R32, R180: a command or core step that changes freq leaves both valid flags 0, and only ENC.COUNT, DEC.HEADER and
TB.SETFREQ change it. -/
def Obligations.FreqWritesClearTheValidFlags : Prop :=
  (∀ (i : Instr) (s t : State), exec i s = .next t → t.freq ≠ s.freq →
    t.treeValid = false ∧ t.codesValid = false ∧ (i = .encCount ∨ i = .decHeader ∨ ∃ x, i = .tbSetfreq x)) ∧
  (∀ s t : State, coreStep s = .next t → t.freq ≠ s.freq →
    t.treeValid = false ∧ t.codesValid = false ∧ (s.seq = .eCount ∨ s.seq = .dHeader))

/-- R27, R74: OUT only grows at its end, but for the acceptance of a RUN. -/
def Obligations.OutOnlyGrows : Prop :=
  (∀ (i : Instr) (s t : State), i ≠ .encRun → i ≠ .decRun → exec i s = .next t → s.out <+: t.out) ∧
  (∀ s t : State, coreStep s = .next t → s.out <+: t.out)

/-- R122, R289: every command ends, in the step that submits it. -/
def Obligations.EveryCommandEnds : Prop :=
  ∀ (i : Instr) (s : State), TreeInv s → ∃ t, exec i s = .next t

/-- The invariants of R26, R29, R31, R35 and R36, and what R123, R221 and R254 say of a RUN in progress, hold after every
step from a state where they hold. -/
def Obligations.EveryStepKeepsTheInvariants : Prop :=
  ∀ s t : State, Inv s → step s = .next t → Inv t

/-- The invariants hold at reset (R310). -/
def Obligations.ResetMeetsTheInvariants : Prop := Inv State.reset

/-- R221, R254, R285: in a state that meets the invariants a RUN's core step always gives a next state, and can end the
RUN only with OK or with the errors its own rule lists, IO_ERROR in an I/O sub-step alone: EMPTY_INPUT and the sub-commands' PROTOCOL_ERRORs cannot
arise. -/
def Obligations.RunsRaiseOnlyTheirOwnErrors : Prop :=
  ∀ s : State, Inv s → s.seq ≠ .idle → ∃ t, coreStep s = .next t ∧
    (t.code = .ok ∨
      (t.code = .ioError ∧
        (s.seq = .eCount ∨ s.seq = .eHeader ∨ s.seq = .eStep ∨ s.seq = .eClose ∨ s.seq = .dHeader ∨ s.seq = .dSymbol)) ∨
      (t.code = .overflow ∧ s.seq = .eCount) ∨
      (t.code = .formatError ∧ (s.seq = .dHeader ∨ s.seq = .dSymbol)) ∨ (t.code = .corruptStream ∧ s.seq = .dSymbol))
end

