-- ==== Sys2Proof/Laws/State.lean ====
section
/-!
SUPPORT. The named updates of State, field by field: one lemma for each field of each update, true by rfl, so that no
proof unfolds a record update to read a field.
-/

namespace Sys2Proof.Machine

/-! ## startCommand -/

@[simp] theorem startCommand_cmd (s : State) : (startCommand s).cmd = s.cmd := rfl
@[simp] theorem startCommand_arg (s : State) : (startCommand s).arg = s.arg := rfl
@[simp] theorem startCommand_result (s : State) : (startCommand s).result = s.result := rfl
@[simp] theorem startCommand_done (s : State) : (startCommand s).done = false := rfl
@[simp] theorem startCommand_code (s : State) : (startCommand s).code = .ok := rfl
@[simp] theorem startCommand_seq (s : State) : (startCommand s).seq = s.seq := rfl
@[simp] theorem startCommand_input (s : State) : (startCommand s).input = s.input := rfl
@[simp] theorem startCommand_inPos (s : State) : (startCommand s).inPos = s.inPos := rfl
@[simp] theorem startCommand_out (s : State) : (startCommand s).out = s.out := rfl
@[simp] theorem startCommand_bsw (s : State) : (startCommand s).bsw = s.bsw := rfl
@[simp] theorem startCommand_bsr (s : State) : (startCommand s).bsr = s.bsr := rfl
@[simp] theorem startCommand_freq (s : State) : (startCommand s).freq = s.freq := rfl
@[simp] theorem startCommand_node (s : State) : (startCommand s).node = s.node := rfl
@[simp] theorem startCommand_nodeCount (s : State) : (startCommand s).nodeCount = s.nodeCount := rfl
@[simp] theorem startCommand_root (s : State) : (startCommand s).root = s.root := rfl
@[simp] theorem startCommand_treeValid (s : State) : (startCommand s).treeValid = s.treeValid := rfl
@[simp] theorem startCommand_codeLen (s : State) : (startCommand s).codeLen = s.codeLen := rfl
@[simp] theorem startCommand_codeBits (s : State) : (startCommand s).codeBits = s.codeBits := rfl
@[simp] theorem startCommand_codesValid (s : State) : (startCommand s).codesValid = s.codesValid := rfl
@[simp] theorem startCommand_emitted (s : State) : (startCommand s).emitted = s.emitted := rfl
@[simp] theorem startCommand_ioDraws (s : State) : (startCommand s).ioDraws = s.ioDraws := rfl
@[simp] theorem startCommand_hostMoves (s : State) : (startCommand s).hostMoves = s.hostMoves := rfl

/-! ## endOk -/

@[simp] theorem endOk_cmd (v : Option Word64) (s : State) : (endOk v s).cmd = s.cmd := rfl
@[simp] theorem endOk_arg (v : Option Word64) (s : State) : (endOk v s).arg = s.arg := rfl
@[simp] theorem endOk_result (v : Option Word64) (s : State) : (endOk v s).result = v.getD s.result := rfl
@[simp] theorem endOk_done (v : Option Word64) (s : State) : (endOk v s).done = true := rfl
@[simp] theorem endOk_code (v : Option Word64) (s : State) : (endOk v s).code = .ok := rfl
@[simp] theorem endOk_seq (v : Option Word64) (s : State) : (endOk v s).seq = s.seq := rfl
@[simp] theorem endOk_input (v : Option Word64) (s : State) : (endOk v s).input = s.input := rfl
@[simp] theorem endOk_inPos (v : Option Word64) (s : State) : (endOk v s).inPos = s.inPos := rfl
@[simp] theorem endOk_out (v : Option Word64) (s : State) : (endOk v s).out = s.out := rfl
@[simp] theorem endOk_bsw (v : Option Word64) (s : State) : (endOk v s).bsw = s.bsw := rfl
@[simp] theorem endOk_bsr (v : Option Word64) (s : State) : (endOk v s).bsr = s.bsr := rfl
@[simp] theorem endOk_freq (v : Option Word64) (s : State) : (endOk v s).freq = s.freq := rfl
@[simp] theorem endOk_node (v : Option Word64) (s : State) : (endOk v s).node = s.node := rfl
@[simp] theorem endOk_nodeCount (v : Option Word64) (s : State) : (endOk v s).nodeCount = s.nodeCount := rfl
@[simp] theorem endOk_root (v : Option Word64) (s : State) : (endOk v s).root = s.root := rfl
@[simp] theorem endOk_treeValid (v : Option Word64) (s : State) : (endOk v s).treeValid = s.treeValid := rfl
@[simp] theorem endOk_codeLen (v : Option Word64) (s : State) : (endOk v s).codeLen = s.codeLen := rfl
@[simp] theorem endOk_codeBits (v : Option Word64) (s : State) : (endOk v s).codeBits = s.codeBits := rfl
@[simp] theorem endOk_codesValid (v : Option Word64) (s : State) : (endOk v s).codesValid = s.codesValid := rfl
@[simp] theorem endOk_emitted (v : Option Word64) (s : State) : (endOk v s).emitted = s.emitted := rfl
@[simp] theorem endOk_ioDraws (v : Option Word64) (s : State) : (endOk v s).ioDraws = s.ioDraws := rfl
@[simp] theorem endOk_hostMoves (v : Option Word64) (s : State) : (endOk v s).hostMoves = s.hostMoves := rfl

/-! ## endError -/

@[simp] theorem endError_cmd (e : StatusCode) (s : State) : (endError e s).cmd = s.cmd := rfl
@[simp] theorem endError_arg (e : StatusCode) (s : State) : (endError e s).arg = s.arg := rfl
@[simp] theorem endError_result (e : StatusCode) (s : State) : (endError e s).result = s.result := rfl
@[simp] theorem endError_done (e : StatusCode) (s : State) : (endError e s).done = true := rfl
@[simp] theorem endError_code (e : StatusCode) (s : State) : (endError e s).code = e := rfl
@[simp] theorem endError_seq (e : StatusCode) (s : State) : (endError e s).seq = .idle := rfl
@[simp] theorem endError_input (e : StatusCode) (s : State) : (endError e s).input = s.input := rfl
@[simp] theorem endError_inPos (e : StatusCode) (s : State) : (endError e s).inPos = s.inPos := rfl
@[simp] theorem endError_out (e : StatusCode) (s : State) : (endError e s).out = s.out := rfl
@[simp] theorem endError_bsw (e : StatusCode) (s : State) : (endError e s).bsw = s.bsw := rfl
@[simp] theorem endError_bsr (e : StatusCode) (s : State) : (endError e s).bsr = s.bsr := rfl
@[simp] theorem endError_freq (e : StatusCode) (s : State) : (endError e s).freq = s.freq := rfl
@[simp] theorem endError_node (e : StatusCode) (s : State) : (endError e s).node = s.node := rfl
@[simp] theorem endError_nodeCount (e : StatusCode) (s : State) : (endError e s).nodeCount = s.nodeCount := rfl
@[simp] theorem endError_root (e : StatusCode) (s : State) : (endError e s).root = s.root := rfl
@[simp] theorem endError_treeValid (e : StatusCode) (s : State) : (endError e s).treeValid = s.treeValid := rfl
@[simp] theorem endError_codeLen (e : StatusCode) (s : State) : (endError e s).codeLen = s.codeLen := rfl
@[simp] theorem endError_codeBits (e : StatusCode) (s : State) : (endError e s).codeBits = s.codeBits := rfl
@[simp] theorem endError_codesValid (e : StatusCode) (s : State) : (endError e s).codesValid = s.codesValid := rfl
@[simp] theorem endError_emitted (e : StatusCode) (s : State) : (endError e s).emitted = s.emitted := rfl
@[simp] theorem endError_ioDraws (e : StatusCode) (s : State) : (endError e s).ioDraws = s.ioDraws := rfl
@[simp] theorem endError_hostMoves (e : StatusCode) (s : State) : (endError e s).hostMoves = s.hostMoves := rfl

/-! ## finishRun -/

@[simp] theorem finishRun_cmd (r : Word64) (s : State) : (finishRun r s).cmd = s.cmd := rfl
@[simp] theorem finishRun_arg (r : Word64) (s : State) : (finishRun r s).arg = s.arg := rfl
@[simp] theorem finishRun_result (r : Word64) (s : State) : (finishRun r s).result = r := rfl
@[simp] theorem finishRun_done (r : Word64) (s : State) : (finishRun r s).done = true := rfl
@[simp] theorem finishRun_code (r : Word64) (s : State) : (finishRun r s).code = .ok := rfl
@[simp] theorem finishRun_seq (r : Word64) (s : State) : (finishRun r s).seq = .idle := rfl
@[simp] theorem finishRun_input (r : Word64) (s : State) : (finishRun r s).input = s.input := rfl
@[simp] theorem finishRun_inPos (r : Word64) (s : State) : (finishRun r s).inPos = s.inPos := rfl
@[simp] theorem finishRun_out (r : Word64) (s : State) : (finishRun r s).out = s.out := rfl
@[simp] theorem finishRun_bsw (r : Word64) (s : State) : (finishRun r s).bsw = s.bsw := rfl
@[simp] theorem finishRun_bsr (r : Word64) (s : State) : (finishRun r s).bsr = s.bsr := rfl
@[simp] theorem finishRun_freq (r : Word64) (s : State) : (finishRun r s).freq = s.freq := rfl
@[simp] theorem finishRun_node (r : Word64) (s : State) : (finishRun r s).node = s.node := rfl
@[simp] theorem finishRun_nodeCount (r : Word64) (s : State) : (finishRun r s).nodeCount = s.nodeCount := rfl
@[simp] theorem finishRun_root (r : Word64) (s : State) : (finishRun r s).root = s.root := rfl
@[simp] theorem finishRun_treeValid (r : Word64) (s : State) : (finishRun r s).treeValid = s.treeValid := rfl
@[simp] theorem finishRun_codeLen (r : Word64) (s : State) : (finishRun r s).codeLen = s.codeLen := rfl
@[simp] theorem finishRun_codeBits (r : Word64) (s : State) : (finishRun r s).codeBits = s.codeBits := rfl
@[simp] theorem finishRun_codesValid (r : Word64) (s : State) : (finishRun r s).codesValid = s.codesValid := rfl
@[simp] theorem finishRun_emitted (r : Word64) (s : State) : (finishRun r s).emitted = s.emitted := rfl
@[simp] theorem finishRun_ioDraws (r : Word64) (s : State) : (finishRun r s).ioDraws = s.ioDraws := rfl
@[simp] theorem finishRun_hostMoves (r : Word64) (s : State) : (finishRun r s).hostMoves = s.hostMoves := rfl

/-! ## acceptRun -/

@[simp] theorem acceptRun_cmd (q : Seq) (s : State) : (acceptRun q s).cmd = s.cmd := rfl
@[simp] theorem acceptRun_arg (q : Seq) (s : State) : (acceptRun q s).arg = s.arg := rfl
@[simp] theorem acceptRun_result (q : Seq) (s : State) : (acceptRun q s).result = s.result := rfl
@[simp] theorem acceptRun_done (q : Seq) (s : State) : (acceptRun q s).done = s.done := rfl
@[simp] theorem acceptRun_code (q : Seq) (s : State) : (acceptRun q s).code = s.code := rfl
@[simp] theorem acceptRun_seq (q : Seq) (s : State) : (acceptRun q s).seq = q := rfl
@[simp] theorem acceptRun_input (q : Seq) (s : State) : (acceptRun q s).input = s.input := rfl
@[simp] theorem acceptRun_inPos (q : Seq) (s : State) : (acceptRun q s).inPos = 0 := rfl
@[simp] theorem acceptRun_out (q : Seq) (s : State) : (acceptRun q s).out = [] := rfl
@[simp] theorem acceptRun_bsw (q : Seq) (s : State) : (acceptRun q s).bsw = Writer.closed := rfl
@[simp] theorem acceptRun_bsr (q : Seq) (s : State) : (acceptRun q s).bsr = Reader.closed := rfl
@[simp] theorem acceptRun_freq (q : Seq) (s : State) : (acceptRun q s).freq = s.freq := rfl
@[simp] theorem acceptRun_node (q : Seq) (s : State) : (acceptRun q s).node = s.node := rfl
@[simp] theorem acceptRun_nodeCount (q : Seq) (s : State) : (acceptRun q s).nodeCount = s.nodeCount := rfl
@[simp] theorem acceptRun_root (q : Seq) (s : State) : (acceptRun q s).root = s.root := rfl
@[simp] theorem acceptRun_treeValid (q : Seq) (s : State) : (acceptRun q s).treeValid = s.treeValid := rfl
@[simp] theorem acceptRun_codeLen (q : Seq) (s : State) : (acceptRun q s).codeLen = s.codeLen := rfl
@[simp] theorem acceptRun_codeBits (q : Seq) (s : State) : (acceptRun q s).codeBits = s.codeBits := rfl
@[simp] theorem acceptRun_codesValid (q : Seq) (s : State) : (acceptRun q s).codesValid = s.codesValid := rfl
@[simp] theorem acceptRun_emitted (q : Seq) (s : State) : (acceptRun q s).emitted = s.emitted := rfl
@[simp] theorem acceptRun_ioDraws (q : Seq) (s : State) : (acceptRun q s).ioDraws = s.ioDraws := rfl
@[simp] theorem acceptRun_hostMoves (q : Seq) (s : State) : (acceptRun q s).hostMoves = s.hostMoves := rfl

/-! ## writeFreq -/

@[simp] theorem writeFreq_cmd (f : Freq) (s : State) : (writeFreq f s).cmd = s.cmd := rfl
@[simp] theorem writeFreq_arg (f : Freq) (s : State) : (writeFreq f s).arg = s.arg := rfl
@[simp] theorem writeFreq_result (f : Freq) (s : State) : (writeFreq f s).result = s.result := rfl
@[simp] theorem writeFreq_done (f : Freq) (s : State) : (writeFreq f s).done = s.done := rfl
@[simp] theorem writeFreq_code (f : Freq) (s : State) : (writeFreq f s).code = s.code := rfl
@[simp] theorem writeFreq_seq (f : Freq) (s : State) : (writeFreq f s).seq = s.seq := rfl
@[simp] theorem writeFreq_input (f : Freq) (s : State) : (writeFreq f s).input = s.input := rfl
@[simp] theorem writeFreq_inPos (f : Freq) (s : State) : (writeFreq f s).inPos = s.inPos := rfl
@[simp] theorem writeFreq_out (f : Freq) (s : State) : (writeFreq f s).out = s.out := rfl
@[simp] theorem writeFreq_bsw (f : Freq) (s : State) : (writeFreq f s).bsw = s.bsw := rfl
@[simp] theorem writeFreq_bsr (f : Freq) (s : State) : (writeFreq f s).bsr = s.bsr := rfl
@[simp] theorem writeFreq_freq (f : Freq) (s : State) : (writeFreq f s).freq = f := rfl
@[simp] theorem writeFreq_node (f : Freq) (s : State) : (writeFreq f s).node = s.node := rfl
@[simp] theorem writeFreq_nodeCount (f : Freq) (s : State) : (writeFreq f s).nodeCount = s.nodeCount := rfl
@[simp] theorem writeFreq_root (f : Freq) (s : State) : (writeFreq f s).root = s.root := rfl
@[simp] theorem writeFreq_treeValid (f : Freq) (s : State) : (writeFreq f s).treeValid = false := rfl
@[simp] theorem writeFreq_codeLen (f : Freq) (s : State) : (writeFreq f s).codeLen = s.codeLen := rfl
@[simp] theorem writeFreq_codeBits (f : Freq) (s : State) : (writeFreq f s).codeBits = s.codeBits := rfl
@[simp] theorem writeFreq_codesValid (f : Freq) (s : State) : (writeFreq f s).codesValid = false := rfl
@[simp] theorem writeFreq_emitted (f : Freq) (s : State) : (writeFreq f s).emitted = s.emitted := rfl
@[simp] theorem writeFreq_ioDraws (f : Freq) (s : State) : (writeFreq f s).ioDraws = s.ioDraws := rfl
@[simp] theorem writeFreq_hostMoves (f : Freq) (s : State) : (writeFreq f s).hostMoves = s.hostMoves := rfl

/-! ## goTo -/

@[simp] theorem goTo_cmd (q : Seq) (s : State) : (goTo q s).cmd = s.cmd := rfl
@[simp] theorem goTo_arg (q : Seq) (s : State) : (goTo q s).arg = s.arg := rfl
@[simp] theorem goTo_result (q : Seq) (s : State) : (goTo q s).result = s.result := rfl
@[simp] theorem goTo_done (q : Seq) (s : State) : (goTo q s).done = s.done := rfl
@[simp] theorem goTo_code (q : Seq) (s : State) : (goTo q s).code = s.code := rfl
@[simp] theorem goTo_seq (q : Seq) (s : State) : (goTo q s).seq = q := rfl
@[simp] theorem goTo_input (q : Seq) (s : State) : (goTo q s).input = s.input := rfl
@[simp] theorem goTo_inPos (q : Seq) (s : State) : (goTo q s).inPos = s.inPos := rfl
@[simp] theorem goTo_out (q : Seq) (s : State) : (goTo q s).out = s.out := rfl
@[simp] theorem goTo_bsw (q : Seq) (s : State) : (goTo q s).bsw = s.bsw := rfl
@[simp] theorem goTo_bsr (q : Seq) (s : State) : (goTo q s).bsr = s.bsr := rfl
@[simp] theorem goTo_freq (q : Seq) (s : State) : (goTo q s).freq = s.freq := rfl
@[simp] theorem goTo_node (q : Seq) (s : State) : (goTo q s).node = s.node := rfl
@[simp] theorem goTo_nodeCount (q : Seq) (s : State) : (goTo q s).nodeCount = s.nodeCount := rfl
@[simp] theorem goTo_root (q : Seq) (s : State) : (goTo q s).root = s.root := rfl
@[simp] theorem goTo_treeValid (q : Seq) (s : State) : (goTo q s).treeValid = s.treeValid := rfl
@[simp] theorem goTo_codeLen (q : Seq) (s : State) : (goTo q s).codeLen = s.codeLen := rfl
@[simp] theorem goTo_codeBits (q : Seq) (s : State) : (goTo q s).codeBits = s.codeBits := rfl
@[simp] theorem goTo_codesValid (q : Seq) (s : State) : (goTo q s).codesValid = s.codesValid := rfl
@[simp] theorem goTo_emitted (q : Seq) (s : State) : (goTo q s).emitted = s.emitted := rfl
@[simp] theorem goTo_ioDraws (q : Seq) (s : State) : (goTo q s).ioDraws = s.ioDraws := rfl
@[simp] theorem goTo_hostMoves (q : Seq) (s : State) : (goTo q s).hostMoves = s.hostMoves := rfl

end Sys2Proof.Machine
end

