-- ==== Sys2Proof/Laws/Ops.lean ====
section
/-!
SUPPORT. What each shared operation can do, said once: the draws, InRead and OutWrite, the loops over them, the frame
of a unit command, and `Res.bind`. Proofs cite these instead of unfolding the operations.
-/

namespace Sys2Proof.Machine

/-! ## Res.bind -/

@[simp] theorem Res.bind_ret {α β : Type} (a : α) (s : State) (k : α → State → Res β) :
    (Res.ret a s).bind k = k a s := rfl

@[simp] theorem Res.bind_raise {α β : Type} (e : StatusCode) (s : State) (k : α → State → Res β) :
    (Res.raise e s : Res α).bind k = .raise e s := rfl

@[simp] theorem Res.bind_stuck {α β : Type} (f : Fault) (k : α → State → Res β) :
    (Res.stuck f : Res α).bind k = .stuck f := rfl

/-- A normal end of a bind: the first part ended normally and so did the rest. -/
theorem Res.bind_eq_ret {α β : Type} {r : Res α} {k : α → State → Res β} {b : β} {t : State}
    (h : r.bind k = .ret b t) : ∃ a s, r = .ret a s ∧ k a s = .ret b t := by
  cases r with
  | ret a s => exact ⟨a, s, rfl, h⟩
  | raise e s => simp at h
  | stuck f => simp at h

/-- A raise of a bind: in the first part, or in the rest. -/
theorem Res.bind_eq_raise {α β : Type} {r : Res α} {k : α → State → Res β} {e : StatusCode} {t : State}
    (h : r.bind k = .raise e t) : r = .raise e t ∨ ∃ a s, r = .ret a s ∧ k a s = .raise e t := by
  cases r with
  | ret a s => exact .inr ⟨a, s, rfl, h⟩
  | raise e' s => simp only [Res.bind_raise, Res.raise.injEq] at h; exact .inl (by rw [h.1, h.2])
  | stuck f => simp at h

/-! ## Draws and single accesses -/

/-- One draw: the head of the list, OK when it is empty; the list loses its head. -/
theorem nextDraw_eq (s : State) :
    nextDraw s = (s.ioDraws.head?.getD .ok, { s with ioDraws := s.ioDraws.tail }) := by
  cases s with
  | mk _ _ _ _ _ _ _ _ _ _ _ _ _ _ _ _ _ _ _ _ draws _ => cases draws <;> rfl

/-- A list of draws whose head is not IOERR draws OK. -/
theorem draw_ok {s : State} (h : s.ioDraws.head? ≠ some .ioerr) : s.ioDraws.head?.getD .ok = .ok := by
  cases hd : s.ioDraws.head? with
  | none => rfl
  | some d => cases d <;> simp_all

/-- With `n + 1` OK draws the first is OK. -/
theorem drawsOk_head {n : Nat} {s : State} (h : drawsOk (n + 1) s) : s.ioDraws.head? ≠ some .ioerr := by
  intro hd
  cases hl : s.ioDraws with
  | nil => simp [hl] at hd
  | cons d ds =>
    simp only [hl, List.head?_cons, Option.some.injEq] at hd
    exact absurd (h d (by simp [hl])) (by simp [hd])

/-- With `n + 1` OK draws, `n` OK draws are left after one. -/
theorem drawsOk_tail {n : Nat} {s : State} (h : drawsOk (n + 1) s) (t : State) (ht : t.ioDraws = s.ioDraws.tail) :
    drawsOk n t := by
  intro d hd
  rw [ht] at hd
  cases hl : s.ioDraws with
  | nil => simp [hl] at hd
  | cons x xs => exact h d (by simp_all)

/-- InRead that fails: only the draw is used up (R61). -/
theorem inRead_ioerr {s : State} (h : s.ioDraws.head? = some .ioerr) :
    inRead s = (.ioerr, { s with ioDraws := s.ioDraws.tail }) := by
  simp [inRead, nextDraw_eq, h]

/-- InRead at the end of IN (R61). -/
theorem inRead_eof {s : State} (h : s.ioDraws.head? ≠ some .ioerr) (hb : s.input[s.inPos.toNat]? = none) :
    inRead s = (.eof, { s with ioDraws := s.ioDraws.tail }) := by
  simp [inRead, nextDraw_eq, draw_ok h, hb]

/-- InRead of a byte: in_pos moves past it (R61). -/
theorem inRead_byte {s : State} {b : Byte} (h : s.ioDraws.head? ≠ some .ioerr)
    (hb : s.input[s.inPos.toNat]? = some b) :
    inRead s = (.byte b, { s with ioDraws := s.ioDraws.tail, inPos := s.inPos + 1#64 }) := by
  simp [inRead, nextDraw_eq, draw_ok h, hb]

/-- Everything InRead can do. -/
theorem inRead_cases (s : State) :
    (s.ioDraws.head? = some .ioerr ∧ inRead s = (.ioerr, { s with ioDraws := s.ioDraws.tail })) ∨
    (s.ioDraws.head? ≠ some .ioerr ∧ s.input[s.inPos.toNat]? = none ∧
      inRead s = (.eof, { s with ioDraws := s.ioDraws.tail })) ∨
    (s.ioDraws.head? ≠ some .ioerr ∧ ∃ b, s.input[s.inPos.toNat]? = some b ∧
      inRead s = (.byte b, { s with ioDraws := s.ioDraws.tail, inPos := s.inPos + 1#64 })) := by
  by_cases h : s.ioDraws.head? = some .ioerr
  · exact .inl ⟨h, inRead_ioerr h⟩
  · cases hb : s.input[s.inPos.toNat]? with
    | none => exact .inr (.inl ⟨h, rfl, inRead_eof h hb⟩)
    | some b => exact .inr (.inr ⟨h, b, rfl, inRead_byte h hb⟩)

/-- OutWrite that fails appends nothing (R62). -/
theorem outWrite_ioerr {s : State} (b : Byte) (h : s.ioDraws.head? = some .ioerr) :
    outWrite b s = (.ioerr, { s with ioDraws := s.ioDraws.tail }) := by
  simp [outWrite, nextDraw_eq, h]

/-- OutWrite that succeeds appends the byte (R62). -/
theorem outWrite_ok {s : State} (b : Byte) (h : s.ioDraws.head? ≠ some .ioerr) :
    outWrite b s = (.ok, { s with ioDraws := s.ioDraws.tail, out := s.out ++ [b] }) := by
  simp [outWrite, nextDraw_eq, draw_ok h]

/-- Everything OutWrite can do. -/
theorem outWrite_cases (b : Byte) (s : State) :
    (s.ioDraws.head? = some .ioerr ∧ outWrite b s = (.ioerr, { s with ioDraws := s.ioDraws.tail })) ∨
    (s.ioDraws.head? ≠ some .ioerr ∧
      outWrite b s = (.ok, { s with ioDraws := s.ioDraws.tail, out := s.out ++ [b] })) := by
  by_cases h : s.ioDraws.head? = some .ioerr
  · exact .inl ⟨h, outWrite_ioerr b h⟩
  · exact .inr ⟨h, outWrite_ok b h⟩

/-! ## Byte loops -/

/-- A run of successful writes appends the bytes in order. -/
theorem writeBytes_ok (bs : List Byte) (s : State) (h : drawsOk bs.length s) :
    writeBytes bs s = .ret () { s with out := s.out ++ bs, ioDraws := s.ioDraws.drop bs.length } := by
  induction bs generalizing s with
  | nil => simp [writeBytes]
  | cons b bs ih =>
    rw [writeBytes, outWrite_ok b (drawsOk_head h)]
    simp only []
    rw [ih _ (drawsOk_tail h _ rfl)]
    simp [List.append_assoc]

/-- A failing write leaves the bytes before it in OUT (R282). -/
theorem writeBytes_fail (bs : List Byte) (s : State) (n : Nat) (hn : n < bs.length) (h : drawsFailAt n s) :
    writeBytes bs s = .raise .ioError { s with out := s.out ++ bs.take n, ioDraws := s.ioDraws.drop (n + 1) } := by
  induction bs generalizing s n with
  | nil => simp at hn
  | cons b bs ih =>
    obtain ⟨hok, herr⟩ := h
    cases n with
    | zero =>
      have : s.ioDraws.head? = some .ioerr := by rw [List.head?_eq_getElem?]; exact herr
      rw [writeBytes, outWrite_ioerr b this]
      simp
    | succ n =>
      rw [writeBytes, outWrite_ok b (drawsOk_head hok)]
      simp only []
      rw [ih _ n (by simpa using hn) ⟨drawsOk_tail hok _ rfl, by simpa using herr⟩]
      simp [List.append_assoc]

/-! ## Commands -/

/-- The end of a command that was submitted while idle: only CODE and DONE change. -/
theorem endError_of_idle {s : State} (e : StatusCode) (h : s.seq = .idle) :
    endError e s = { s with done := true, code := e } := by
  cases s; simp_all [endError]

/-- BUSY is `seq ≠ IDLE`. -/
theorem busy_eq_false {s : State} : s.busy = false ↔ s.seq = .idle := by simp [State.busy]

/-- BUSY is `seq ≠ IDLE`. -/
theorem busy_eq_true {s : State} : s.busy = true ↔ s.seq ≠ .idle := by simp [State.busy]

/-- A unit command submitted while a RUN is in progress is not executed (R121). -/
theorem unitCommand_busy (rule : State → UnitRes) {s : State} (h : s.seq ≠ .idle) :
    unitCommand rule s = .next (endError .protocolError s) := by
  simp [unitCommand, busy_eq_true.mpr h]

/-- A unit command whose rule ends normally (R120). -/
theorem unitCommand_ret {rule : State → UnitRes} {s t : State} {v : Option Word64} (h : s.seq = .idle)
    (hr : rule (startCommand s) = .ret v t) : unitCommand rule s = .next (endOk v t) := by
  simp [unitCommand, busy_eq_false.mpr h, hr]

/-- A unit command whose rule raises (R120). -/
theorem unitCommand_raise {rule : State → UnitRes} {s t : State} {e : StatusCode} (h : s.seq = .idle)
    (hr : rule (startCommand s) = .raise e t) : unitCommand rule s = .next (endError e t) := by
  simp [unitCommand, busy_eq_false.mpr h, hr]

/-- A `require` that fails changes nothing but CODE and DONE (R282). -/
theorem unitCommand_require {rule : State → UnitRes} {s : State} {e : StatusCode} (h : s.seq = .idle)
    (hr : rule (startCommand s) = .raise e (startCommand s)) :
    unitCommand rule s = .next { s with done := true, code := e } := by
  rw [unitCommand_raise h hr, endError_of_idle e (by simpa using h)]
  rfl

/-- Everything a unit command can do when it gives a next state. -/
theorem unitCommand_cases {rule : State → UnitRes} {s t : State} (h : unitCommand rule s = .next t) :
    (s.seq ≠ .idle ∧ t = endError .protocolError s) ∨
    (s.seq = .idle ∧ ∃ v u, rule (startCommand s) = .ret v u ∧ t = endOk v u) ∨
    (s.seq = .idle ∧ ∃ e u, rule (startCommand s) = .raise e u ∧ t = endError e u) := by
  by_cases hs : s.seq = .idle
  · cases hr : rule (startCommand s) with
    | ret v u =>
      rw [unitCommand_ret hs hr] at h
      exact .inr (.inl ⟨hs, v, u, rfl, (Host.Outcome.next.inj h).symm⟩)
    | raise e u =>
      rw [unitCommand_raise hs hr] at h
      exact .inr (.inr ⟨hs, e, u, rfl, (Host.Outcome.next.inj h).symm⟩)
    | stuck f => simp [unitCommand, busy_eq_false.mpr hs, hr] at h
  · rw [unitCommand_busy rule hs] at h
    exact .inl ⟨hs, (Host.Outcome.next.inj h).symm⟩

/-- Everything a sub-command's end can do when it gives a next state (R124). -/
theorem afterSub_cases {α : Type} {r : Res α} {k : α → State → State} {t : State} (h : afterSub r k = .next t) :
    (∃ a u, r = .ret a u ∧ t = k a u) ∨ (∃ e u, r = .raise e u ∧ t = endError e u) := by
  cases r with
  | ret a u => exact .inl ⟨a, u, rfl, (Host.Outcome.next.inj h).symm⟩
  | raise e u => exact .inr ⟨e, u, rfl, (Host.Outcome.next.inj h).symm⟩
  | stuck f => simp [afterSub] at h

/-! ## The step -/

/-- The step with no host move pending is the core's (R124). -/
theorem step_silent {s : State} (h : s.hostMoves = []) : step s = coreStep s := by
  simp [step, systemStep, h]

/-- The step with a host move pending is that move's. -/
theorem step_move {s : State} {m : HostMove} {rest : List HostMove} (h : s.hostMoves = m :: rest) :
    step s = hostStep m { s with hostMoves := rest } := by
  simp [step, systemStep, h]

end Sys2Proof.Machine
end

