-- ==== Sys2Proof/Laws/Units.lean ====
section
/-!
SUPPORT. What the units' primitives can do, said once: PutBit (spec/41_bit_stream_writer.md R140), NextBit
(42_bit_stream_reader.md R160), the byte loop of DEC.HEADER (45_huffman_decoder.md R251), and reads after writes of the
tables (10_state.md R32, R34).
-/

namespace Sys2Proof.Machine

/-! ## Tables -/

/-- The count just written. -/
@[simp] theorem freqAt_setFreq_same (f : Freq) (sym : Byte) (v : BitVec 32) :
    freqAt (setFreq f sym v) sym = v := by
  simp [freqAt, setFreq]

/-- Every other count. -/
theorem freqAt_setFreq_other (f : Freq) {sym other : Byte} (v : BitVec 32) (h : other ≠ sym) :
    freqAt (setFreq f sym v) other = freqAt f other := by
  have hne : sym.toNat ≠ other.toNat := fun hh => h (BitVec.eq_of_toNat_eq hh.symm)
  simp [freqAt, setFreq, Vector.getElem_set_ne, hne]

/-- The entry just written. -/
theorem nodeAt_setNode_same (a : Arena) {i : NodeIdx} (e : Node) (h : i.toNat < 511) :
    nodeAt (setNode a i e) i = e := by
  simp [nodeAt, setNode, h]

/-- Every other entry. -/
theorem nodeAt_setNode_other (a : Arena) {i j : NodeIdx} (e : Node) (h : j ≠ i) :
    nodeAt (setNode a i e) j = nodeAt a j := by
  have hne : i.toNat ≠ j.toNat := fun hh => h (BitVec.eq_of_toNat_eq hh.symm)
  simp [nodeAt, setNode, hne]

/-- The table's counts are its values at the 256 symbols in order. -/
theorem toList_eq_map_freqAt (f : Freq) :
    f.toList = ((List.range 256).map (BitVec.ofNat 8)).map (freqAt f) := by
  apply List.ext_getElem
  · simp
  · intro i h1 h2
    have hi : i < 256 := by simpa using h1
    simp [freqAt, Nat.mod_eq_of_lt hi]

/-- The used symbols, read off the table in one pass. -/
theorem usedSymbols_eq_zip (f : Freq) :
    usedSymbols f =
      ((f.toList.zip ((List.range 256).map (BitVec.ofNat 8))).filter fun p => p.1 != 0#32).map Prod.snd := by
  rw [toList_eq_map_freqAt, usedSymbols]
  generalize (List.range 256).map (BitVec.ofNat 8) = l
  induction l with
  | nil => rfl
  | cons x l ih =>
    simp only [List.map_cons, List.zip_cons_cons, List.filter_cons, ih]
    split <;> simp

/-- A symbol is used when its count is not zero. -/
theorem mem_usedSymbols (f : Freq) (sym : Byte) : sym ∈ usedSymbols f ↔ freqAt f sym ≠ 0#32 := by
  simp only [usedSymbols, List.mem_filter, List.mem_map, List.mem_range]
  constructor
  · rintro ⟨_, h⟩; simpa using h
  · intro h
    exact ⟨⟨sym.toNat, by have := sym.isLt; omega, by simp⟩, by simpa using h⟩

/-! ## The writer -/

/-- PutBit with room left only buffers the bit. -/
theorem putBit_buffer (b : Bool) {s : State} (h : s.bsw.n ≠ 7#3) :
    putBit b s = .ret () { s with bsw := { s.bsw with acc := shiftIn s.bsw.acc b, n := s.bsw.n + 1#3 } } := by
  rw [putBit, if_neg h]

/-- The eighth bit, sent. -/
theorem putBit_sent (b : Bool) {s : State} (h : s.bsw.n = 7#3) (hd : s.ioDraws.head? ≠ some .ioerr) :
    putBit b s = .ret () { s with bsw := { s.bsw with acc := 0#8, n := 0#3 }, ioDraws := s.ioDraws.tail
                                  out := s.out ++ [shiftIn s.bsw.acc b] } := by
  rw [putBit, if_pos h, outWrite_ok _ (by simpa using hd)]

/-- The eighth bit, lost. -/
theorem putBit_lost (b : Bool) {s : State} (h : s.bsw.n = 7#3) (hd : s.ioDraws.head? = some .ioerr) :
    putBit b s = .raise .ioError
      { s with bsw := { isOpen := false, acc := 0#8, n := 0#3 }, ioDraws := s.ioDraws.tail } := by
  rw [putBit, if_pos h, outWrite_ioerr _ (by simpa using hd)]

/-! ## The reader -/

/-- NextBit can touch only the reader, in_pos and the draws; and it raises only IO_ERROR, with the reader and in_pos as
they were. -/
theorem nextBit_frame (s : State) :
    (∃ r p ip ds, nextBit s = .ret r { s with bsr := p, inPos := ip, ioDraws := ds }) ∨
      nextBit s = .raise .ioError { s with ioDraws := s.ioDraws.tail } := by
  unfold nextBit
  split
  · exact .inl ⟨none, s.bsr, s.inPos, s.ioDraws, rfl⟩
  split
  · exact .inl ⟨none, _, s.inPos, s.ioDraws, rfl⟩
  split
  · rcases inRead_cases s with ⟨_, h⟩ | ⟨_, _, h⟩ | ⟨_, b, _, h⟩
    · rw [h]; exact .inr rfl
    · rw [h]; exact .inl ⟨none, _, s.inPos, _, rfl⟩
    · rw [h]; exact .inl ⟨_, _, _, _, rfl⟩
  · exact .inl ⟨_, _, s.inPos, s.ioDraws, rfl⟩

/-- A reader that has ended stays ended and reads nothing (R160). -/
theorem nextBit_ended {s : State} (h : s.bsr.ended = true) : nextBit s = .ret none s := by
  simp [nextBit, h]

/-! ## The header read -/

/-- The byte loop can touch only in_pos and the draws. -/
theorem readBytes_frame (n : Nat) (s : State) :
    (∃ bs ip ds, readBytes n s = .ret bs { s with inPos := ip, ioDraws := ds } ∧ bs.length = n) ∨
      (∃ e ip ds, readBytes n s = .raise e { s with inPos := ip, ioDraws := ds } ∧ (e = .ioError ∨ e = .formatError)) := by
  induction n generalizing s with
  | zero => exact .inl ⟨[], s.inPos, s.ioDraws, rfl, rfl⟩
  | succ n ih =>
    rcases inRead_cases s with ⟨_, h⟩ | ⟨_, _, h⟩ | ⟨_, b, _, h⟩
    · exact .inr ⟨.ioError, s.inPos, s.ioDraws.tail, by rw [readBytes, h], .inl rfl⟩
    · exact .inr ⟨.formatError, s.inPos, s.ioDraws.tail, by rw [readBytes, h], .inr rfl⟩
    · rcases ih { s with ioDraws := s.ioDraws.tail, inPos := s.inPos + 1#64 } with
        ⟨bs, ip, ds, hr, hl⟩ | ⟨e, ip, ds, hr, he⟩
      · exact .inl ⟨b :: bs, ip, ds, by rw [readBytes, h]; simp only []; rw [hr]; rfl, by simp [hl]⟩
      · exact .inr ⟨e, ip, ds, by rw [readBytes, h]; simp only []; rw [hr]; rfl, he⟩

end Sys2Proof.Machine
end

