-- ==== Sys2Proof/Laws/Frame.lean ====
section
/-!
SUPPORT. What no unit rule touches: the host's registers CMD and ARG, IN, the pending moves, RESULT, `seq`, DONE and CODE.
Those are written by the host (spec/10_state.md R21, R22, R26) and by the control unit (R24, R25) alone.
-/

namespace Sys2Proof.Machine

/-- The elements no unit rule writes are the same in both states. -/
structure Untouched (s t : State) : Prop where
  cmd : t.cmd = s.cmd
  arg : t.arg = s.arg
  input : t.input = s.input
  hostMoves : t.hostMoves = s.hostMoves
  result : t.result = s.result
  seq : t.seq = s.seq
  done : t.done = s.done
  code : t.code = s.code

theorem Untouched.refl (s : State) : Untouched s s := ⟨rfl, rfl, rfl, rfl, rfl, rfl, rfl, rfl⟩

theorem Untouched.trans {s t u : State} (h : Untouched s t) (k : Untouched t u) : Untouched s u :=
  ⟨k.cmd.trans h.cmd, k.arg.trans h.arg, k.input.trans h.input, k.hostMoves.trans h.hostMoves,
    k.result.trans h.result, k.seq.trans h.seq, k.done.trans h.done, k.code.trans h.code⟩

/-- Wherever the rule stops, it has left those elements alone. -/
def Res.Keeps {α : Type} (s : State) : Res α → Prop
  | .ret _ t => Untouched s t
  | .raise _ t => Untouched s t
  | .stuck _ => True

/-- Two parts that keep them, one after the other. -/
theorem Res.Keeps.bind {α β : Type} {s : State} {r : Res α} {k : α → State → Res β} (h : r.Keeps s)
    (hk : ∀ a t, (k a t).Keeps t) : (r.bind k).Keeps s := by
  cases r with
  | ret a t =>
    have := hk a t
    simp only [Res.bind_ret]
    cases hr : k a t <;> rw [hr] at this
    · exact Untouched.trans h this
    · exact Untouched.trans h this
    · trivial
  | raise e t => exact h
  | stuck f => trivial

/-! ## Accesses -/

theorem inRead_untouched (s : State) : Untouched s (inRead s).2 := by
  rcases inRead_cases s with ⟨_, h⟩ | ⟨_, _, h⟩ | ⟨_, b, _, h⟩ <;> rw [h] <;> exact ⟨rfl, rfl, rfl, rfl, rfl, rfl, rfl, rfl⟩

theorem outWrite_untouched (b : Byte) (s : State) : Untouched s (outWrite b s).2 := by
  rcases outWrite_cases b s with ⟨_, h⟩ | ⟨_, h⟩ <;> rw [h] <;> exact ⟨rfl, rfl, rfl, rfl, rfl, rfl, rfl, rfl⟩

/-! ## Primitives and loops -/

theorem putBit_keeps (b : Bool) (s : State) : (putBit b s).Keeps s := by
  by_cases hn : s.bsw.n = 7#3
  · by_cases hd : s.ioDraws.head? = some .ioerr
    · rw [putBit_lost b hn hd]; exact ⟨rfl, rfl, rfl, rfl, rfl, rfl, rfl, rfl⟩
    · rw [putBit_sent b hn hd]; exact ⟨rfl, rfl, rfl, rfl, rfl, rfl, rfl, rfl⟩
  · rw [putBit_buffer b hn]; exact ⟨rfl, rfl, rfl, rfl, rfl, rfl, rfl, rfl⟩

theorem putBits_keeps (bs : List Bool) (s : State) : (putBits bs s).Keeps s := by
  induction bs generalizing s with
  | nil => exact Untouched.refl s
  | cons b bs ih => exact (putBit_keeps b s).bind fun _ t => ih t

theorem nextBit_keeps (s : State) : (nextBit s).Keeps s := by
  rcases nextBit_frame s with ⟨r, p, ip, ds, h⟩ | h <;> rw [h] <;> exact ⟨rfl, rfl, rfl, rfl, rfl, rfl, rfl, rfl⟩

theorem writeBytes_keeps (bs : List Byte) (s : State) : (writeBytes bs s).Keeps s := by
  induction bs generalizing s with
  | nil => exact Untouched.refl s
  | cons b bs ih =>
    have h := outWrite_untouched b s
    rw [writeBytes]
    split
    · rename_i h'; rw [h'] at h; exact h
    · rename_i t h'
      rw [h'] at h
      have := ih t
      cases hr : writeBytes bs t <;> rw [hr] at this
      · exact h.trans this
      · exact h.trans this
      · trivial

theorem countLoop_keeps (n : Nat) (f : Freq) (s : State) : (countLoop n f s).Keeps s := by
  induction n generalizing f s with
  | zero => exact Untouched.refl s
  | succ n ih =>
    have h := inRead_untouched s
    rw [countLoop]
    split
    · rename_i h'; rw [h'] at h; exact h
    · rename_i h'; rw [h'] at h; exact h
    · rename_i b t h'
      rw [h'] at h
      split
      · exact h
      · have := ih (setFreq f b (freqAt f b + 1#32)) t
        cases hr : countLoop n (setFreq f b (freqAt f b + 1#32)) t <;> rw [hr] at this
        · exact h.trans this
        · exact h.trans this
        · trivial

theorem readBytes_keeps (n : Nat) (s : State) : (readBytes n s).Keeps s := by
  rcases readBytes_frame n s with ⟨bs, ip, ds, h, _⟩ | ⟨e, ip, ds, h, _⟩ <;> rw [h] <;>
    exact ⟨rfl, rfl, rfl, rfl, rfl, rfl, rfl, rfl⟩

theorem decodeWalk_keeps (n : Nat) (cur : NodeIdx) (s : State) : (decodeWalk n cur s).Keeps s := by
  induction n generalizing cur s with
  | zero => exact Untouched.refl s
  | succ n ih =>
    rw [decodeWalk]
    refine (nextBit_keeps s).bind fun r t => ?_
    cases r with
    | none => exact Untouched.refl t
    | some bit =>
      simp only []
      generalize (if bit then (nodeAt t.node cur).right else (nodeAt t.node cur).left) = nxt
      split
      · exact Untouched.refl t
      split
      · have h := outWrite_untouched (nodeAt t.node nxt).sym t
        split
        · rename_i h'; rw [h'] at h; exact h
        · rename_i h'; rw [h'] at h; exact ⟨h.1, h.2, h.3, h.4, h.5, h.6, h.7, h.8⟩
      · exact ih nxt t

/-! ## Unit rules -/

theorem ruleEncCount_keeps (s : State) : (ruleEncCount s).Keeps s :=
  (countLoop_keeps _ _ s).bind fun _ _ => ⟨rfl, rfl, rfl, rfl, rfl, rfl, rfl, rfl⟩

theorem ruleEncHeader_keeps (s : State) : (ruleEncHeader s).Keeps s :=
  (writeBytes_keeps _ s).bind fun _ t => Untouched.refl t

theorem ruleTbBuild_keeps (s : State) : (ruleTbBuild s).Keeps s := by
  unfold ruleTbBuild
  split <;> exact ⟨rfl, rfl, rfl, rfl, rfl, rfl, rfl, rfl⟩

theorem ruleEncDerive_keeps (s : State) : (ruleEncDerive s).Keeps s := by
  unfold ruleEncDerive
  split
  · split
    · trivial
    · exact ⟨rfl, rfl, rfl, rfl, rfl, rfl, rfl, rfl⟩
  · exact Untouched.refl s

theorem ruleCtrlRewind_keeps (s : State) : (ruleCtrlRewind s).Keeps s := ⟨rfl, rfl, rfl, rfl, rfl, rfl, rfl, rfl⟩

theorem ruleBswOpen_keeps (s : State) : (ruleBswOpen s).Keeps s := by
  unfold ruleBswOpen
  split <;> exact ⟨rfl, rfl, rfl, rfl, rfl, rfl, rfl, rfl⟩

theorem encStepByte_keeps (s : State) : (encStepByte s).Keeps s := by
  unfold encStepByte
  split
  · exact Untouched.refl s
  split
  · exact Untouched.refl s
  have h := inRead_untouched s
  split
  · rename_i h'; rw [h'] at h; exact h
  · rename_i h'; rw [h'] at h; exact h
  · rename_i b t h'
    rw [h'] at h
    split
    · exact h
    · have := (putBits_keeps (t.codeOf b) t).bind (k := fun _ u => Res.ret (some b) u) fun _ u => Untouched.refl u
      simp only [emitCode]
      cases hr : (putBits (t.codeOf b) t).bind fun _ u => Res.ret (some b) u <;> rw [hr] at this
      · exact h.trans this
      · exact h.trans this
      · trivial

theorem ruleBswClose_keeps (s : State) : (ruleBswClose s).Keeps s := by
  unfold ruleBswClose
  split
  · split
    · exact ⟨rfl, rfl, rfl, rfl, rfl, rfl, rfl, rfl⟩
    · have h := outWrite_untouched (paddedByte s.bsw.acc s.bsw.n) { s with bsw := Writer.closed }
      split
      · rename_i h'; rw [h'] at h; exact ⟨h.1, h.2, h.3, h.4, h.5, h.6, h.7, h.8⟩
      · rename_i h'; rw [h'] at h; exact ⟨h.1, h.2, h.3, h.4, h.5, h.6, h.7, h.8⟩
  · exact Untouched.refl s

theorem ruleDecHeader_keeps (s : State) : (ruleDecHeader s).Keeps s := by
  unfold ruleDecHeader
  refine (readBytes_keeps _ s).bind fun h t => ?_
  generalize headerFreq h = f
  exact ⟨rfl, rfl, rfl, rfl, rfl, rfl, rfl, rfl⟩

theorem ruleBsrOpen_keeps (u : Bool) (s : State) : (ruleBsrOpen u s).Keeps s := by
  unfold ruleBsrOpen
  split <;> exact ⟨rfl, rfl, rfl, rfl, rfl, rfl, rfl, rfl⟩

theorem ruleDecSymbol_keeps (s : State) : (ruleDecSymbol s).Keeps s := by
  unfold ruleDecSymbol
  split
  · exact Untouched.refl s
  split
  · exact Untouched.refl s
  exact (decodeWalk_keeps _ _ s).bind fun _ t => Untouched.refl t

end Sys2Proof.Machine
end

