-- ==== Sys2Proof/Laws/PerInstr.lean ====
section
/-!
SUPPORT. The statements made per instruction. EncodeLegal: a well-formed command's word is a word of the opcode map
(spec/30_encoding.md R93, R95, R100).
-/

namespace Sys2Proof.Laws.EncodeLegal

/-- The word of a well-formed command has the bits of one of the 24 rows under that row's mask. -/
def Statement (i : Instr) : Prop := i.wellFormed = true → legalWord (encode i) = true

theorem ctrlAbort : Statement .ctrlAbort := fun _ => by decide
theorem ctrlRewind : Statement .ctrlRewind := fun _ => by decide
theorem bswOpen : Statement .bswOpen := fun _ => by decide

theorem bswPutbit (imm : Byte) : Statement (.bswPutbit imm) := by
  revert imm
  unfold Statement
  decide +kernel

theorem bswClose : Statement .bswClose := fun _ => by decide

theorem bsrOpen (u : Bool) : Statement (.bsrOpen u) := fun _ => by revert u; decide

theorem bsrNext : Statement .bsrNext := fun _ => by decide
theorem bsrClose : Statement .bsrClose := fun _ => by decide

theorem tbSetfreq (sym : Byte) : Statement (.tbSetfreq sym) := fun _ => by revert sym; decide +kernel
theorem tbGetfreq (sym : Byte) : Statement (.tbGetfreq sym) := fun _ => by revert sym; decide +kernel

theorem tbBuild : Statement .tbBuild := fun _ => by decide
theorem tbInfo : Statement .tbInfo := fun _ => by decide
theorem tbNode : Statement .tbNode := fun _ => by decide
theorem encCount : Statement .encCount := fun _ => by decide
theorem encHeader : Statement .encHeader := fun _ => by decide
theorem encDerive : Statement .encDerive := fun _ => by decide

theorem encCodelen (sym : Byte) : Statement (.encCodelen sym) := fun _ => by revert sym; decide +kernel
theorem encCodeword (sym : Byte) : Statement (.encCodeword sym) := fun _ => by revert sym; decide +kernel
theorem encEmit (sym : Byte) : Statement (.encEmit sym) := fun _ => by revert sym; decide +kernel

theorem encStep : Statement .encStep := fun _ => by decide
theorem encRun : Statement .encRun := fun _ => by decide
theorem decHeader : Statement .decHeader := fun _ => by decide
theorem decSymbol : Statement .decSymbol := fun _ => by decide
theorem decRun : Statement .decRun := fun _ => by decide

end Sys2Proof.Laws.EncodeLegal
end

