-- ==== Sys2Proof/Machine/Program.lean ====
section
/-!
DEFINITION. Host command programs (spec/30_encoding.md R98, R99): the pseudo-instructions as the host moves they
expand to, and the text of a command and of a host action in the spec's assembler syntax. Nothing the block does
depends on this file.
-/

namespace Sys2Proof.Machine

/-- The host write that submits a command (R100, R120). -/
def HostMove.submit (i : Instr) : HostMove := .writeCmd (encode i)

/-- The pseudo-instructions of R99. -/
inductive Pseudo
  | encode
  | decode
  | bsrOpenN (n : Word64)
  | bsrOpenU
  | tbSetfreqV (sym : Byte) (v : Word64)
  | tbNodeI (i : Word64)
  | encCodewordK (sym : Byte) (k : Word64)
  | bswPutbits (bits : List Bool)
  deriving DecidableEq, Repr

/-- The host moves a pseudo-instruction expands to, without the WAIT that ends ENCODE and DECODE (R99). -/
def Pseudo.moves : Pseudo → List HostMove
  | .encode => [.submit .encRun]
  | .decode => [.submit .decRun]
  | .bsrOpenN n => [.writeArg n, .submit (.bsrOpen false)]
  | .bsrOpenU => [.submit (.bsrOpen true)]
  | .tbSetfreqV sym v => [.writeArg v, .submit (.tbSetfreq sym)]
  | .tbNodeI i => [.writeArg i, .submit .tbNode]
  | .encCodewordK sym k => [.writeArg k, .submit (.encCodeword sym)]
  | .bswPutbits bits => bits.map fun b => .submit (.bswPutbit (if b then 1#8 else 0#8))

/-- WAIT with n polls: the host reads STATUS and lets the core take its step, until DONE = 1 (R98). -/
def waitMoves : Nat → List HostMove
  | 0 => [.readAt 0x18#5]
  | n + 1 => .readAt 0x18#5 :: .yield :: waitMoves n

/-- The text of a command (R98), its symbol as a number. -/
def Instr.text : Instr → String
  | .ctrlAbort => "CTRL.ABORT"
  | .ctrlRewind => "CTRL.REWIND"
  | .bswOpen => "BSW.OPEN"
  | .bswPutbit imm => "BSW.PUTBIT " ++ toString imm.toNat
  | .bswClose => "BSW.CLOSE"
  | .bsrOpen u => if u then "BSR.OPEN.U" else "BSR.OPEN"
  | .bsrNext => "BSR.NEXT"
  | .bsrClose => "BSR.CLOSE"
  | .tbSetfreq sym => "TB.SETFREQ " ++ toString sym.toNat
  | .tbGetfreq sym => "TB.GETFREQ " ++ toString sym.toNat
  | .tbBuild => "TB.BUILD"
  | .tbInfo => "TB.INFO"
  | .tbNode => "TB.NODE"
  | .encCount => "ENC.COUNT"
  | .encHeader => "ENC.HEADER"
  | .encDerive => "ENC.DERIVE"
  | .encCodelen sym => "ENC.CODELEN " ++ toString sym.toNat
  | .encCodeword sym => "ENC.CODEWORD " ++ toString sym.toNat
  | .encEmit sym => "ENC.EMIT " ++ toString sym.toNat
  | .encStep => "ENC.STEP"
  | .encRun => "ENC.RUN"
  | .decHeader => "DEC.HEADER"
  | .decSymbol => "DEC.SYMBOL"
  | .decRun => "DEC.RUN"

/-- The text of a host action that R98 gives one. -/
def HostMove.text : HostMove → Option String
  | .writeCmd w => some ("CMD <- " ++ toString w.toNat)
  | .writeArg v => some ("ARG <- " ++ toString v.toNat)
  | .loadInput bytes => some ("LOAD_INPUT " ++ toString (bytes.map BitVec.toNat))
  | .readAt off => if off = 0x10#5 then some "READ RESULT" else if off = 0x18#5 then some "READ STATUS" else none
  | .yield | .writeResult _ | .writeStatus _ | .writeUnmapped _ _ | .readOut | .reset => none

end Sys2Proof.Machine
end

