-- ==== Sys2Proof/Tests/Slice0.lean ====
section
/-!
SUPPORT. Small tests of one step each, their expected results taken from spec/95_test_vectors.md (the vector's id is
named) or worked by hand from the rule named; the smoke tests of WellFormed and Decode; and the witnesses: for every
statement with hypotheses, a concrete state that meets them.
-/

namespace Sys2Proof.Tests

open Sys2Proof Sys2Proof.Machine

-- One theorem at a time: each is one small kernel evaluation, and a thread apiece would exhaust the check's memory.
set_option Elab.async false

/-- The command gives a next state with this property. -/
def gives (o : Host.Outcome State Fault Refusal) (p : State → Bool) : Bool :=
  match o with
  | .next t => p t
  | .fault _ => false
  | .refused _ => false

/-! ## States -/

/-- Reset with IN loaded. -/
def loaded (bytes : List Byte) : State := { State.reset with input := bytes }

/-- A writer open with n bits buffered. -/
def writing (acc : BitVec 8) (n : BitVec 3) : State := { State.reset with bsw := { isOpen := true, acc := acc, n := n } }

/-- An unlimited reader just opened over IN. -/
def reading (bytes : List Byte) : State := { loaded bytes with bsr := openedReader true 0#64 }

/-- The counts of V-TB-1: 'a' 3, 'b' 1. -/
def freqAB : Freq := setFreq (setFreq (Vector.replicate 256 0#32) 0x61#8 3#32) 0x62#8 1#32

/-- The three entries of V-TB-1. -/
def leafA : Node := { kind := .leaf, sym := 0x61#8, left := 0x1FF#9, right := 0x1FF#9, weight := 3#40 }
def leafB : Node := { kind := .leaf, sym := 0x62#8, left := 0x1FF#9, right := 0x1FF#9, weight := 1#40 }
def rootAB : Node := { kind := .internal, sym := 0#8, left := 1#9, right := 0#9, weight := 4#40 }

def leavesAB : Arena := setNode (setNode State.reset.node 0#9 leafA) 1#9 leafB

/-- The tree of V-TB-1. -/
def nodeAB : Arena := setNode leavesAB 2#9 rootAB

/-- The state after V-TB-1. -/
def treeAB : State := { State.reset with freq := freqAB, node := nodeAB, nodeCount := 3#10, root := 2#9, treeValid := true }

/-- The state after V-TB-1 and ENC.DERIVE: 'a' = 1, 'b' = 0 (V-ENC-10). -/
def codesAB : State :=
  { treeAB with
    codeLen := (State.reset.codeLen.set 0x62 1#8).set 0x61 1#8
    codeBits := (State.reset.codeBits.set 0x62 0#255).set 0x61 1#255
    codesValid := true }

/-- A RUN in progress at a label. -/
def running (q : Seq) (s : State) : State := { s with seq := q }

/-! ## WellFormed and Decode -/

/-- R93, R95: IMM8 = 2 is no operand of BSW.PUTBIT. -/
theorem test_wellFormed_refuses_putbit_2 : Instr.wellFormed (.bswPutbit 2) = false := by decide

theorem test_wellFormed_accepts_both_bits :
    Instr.wellFormed (.bswPutbit 0) = true ∧ Instr.wellFormed (.bswPutbit 1) = true := by decide

/-- R91, R93: UNIT:OP, RSV, U, IMM8 written out. -/
theorem test_decode_ctrl :
    decode 0b00000001_000000000000000_0_00000000#32 = .ok .ctrlAbort ∧
    decode 0b00000010_000000000000000_0_00000000#32 = .ok .ctrlRewind := ⟨rfl, rfl⟩

theorem test_decode_bsw :
    decode 0b00010000_000000000000000_0_00000000#32 = .ok .bswOpen ∧
    decode 0b00010001_000000000000000_0_00000000#32 = .ok (.bswPutbit 0) ∧
    decode 0b00010001_000000000000000_0_00000001#32 = .ok (.bswPutbit 1) ∧
    decode 0b00010010_000000000000000_0_00000000#32 = .ok .bswClose := ⟨rfl, rfl, rfl, rfl⟩

theorem test_decode_bsr :
    decode 0b00100000_000000000000000_0_00000000#32 = .ok (.bsrOpen false) ∧
    decode 0b00100000_000000000000000_1_00000000#32 = .ok (.bsrOpen true) ∧
    decode 0b00100001_000000000000000_0_00000000#32 = .ok .bsrNext ∧
    decode 0b00100010_000000000000000_0_00000000#32 = .ok .bsrClose := ⟨rfl, rfl, rfl, rfl⟩

theorem test_decode_tb :
    decode 0b00110000_000000000000000_0_01100001#32 = .ok (.tbSetfreq 0x61) ∧
    decode 0b00110001_000000000000000_0_11111111#32 = .ok (.tbGetfreq 0xFF) ∧
    decode 0b00110010_000000000000000_0_00000000#32 = .ok .tbBuild ∧
    decode 0b00110011_000000000000000_0_00000000#32 = .ok .tbInfo ∧
    decode 0b00110100_000000000000000_0_00000000#32 = .ok .tbNode := ⟨rfl, rfl, rfl, rfl, rfl⟩

theorem test_decode_enc :
    decode 0b01000000_000000000000000_0_00000000#32 = .ok .encCount ∧
    decode 0b01000001_000000000000000_0_00000000#32 = .ok .encHeader ∧
    decode 0b01000010_000000000000000_0_00000000#32 = .ok .encDerive ∧
    decode 0b01000011_000000000000000_0_00000001#32 = .ok (.encCodelen 1) ∧
    decode 0b01000100_000000000000000_0_10000000#32 = .ok (.encCodeword 0x80) ∧
    decode 0b01000101_000000000000000_0_01100010#32 = .ok (.encEmit 0x62) ∧
    decode 0b01000110_000000000000000_0_00000000#32 = .ok .encStep ∧
    decode 0b01001111_000000000000000_0_00000000#32 = .ok .encRun := ⟨rfl, rfl, rfl, rfl, rfl, rfl, rfl, rfl⟩

theorem test_decode_dec :
    decode 0b01010000_000000000000000_0_00000000#32 = .ok .decHeader ∧
    decode 0b01010001_000000000000000_0_00000000#32 = .ok .decSymbol ∧
    decode 0b01011111_000000000000000_0_00000000#32 = .ok .decRun := ⟨rfl, rfl, rfl⟩

/-- V-CTL-1 to V-CTL-7: illegal words, each refused by name. -/
theorem test_decode_illegal :
    decode 0x00000000#32 = .error (.undefinedCommand 0x00) ∧
    decode 0x60000000#32 = .error (.undefinedCommand 0x60) ∧
    decode 0x40000001#32 = .error (.operandConstraint 0x40) ∧
    decode 0x32000100#32 = .error (.operandConstraint 0x32) ∧
    decode 0x11000002#32 = .error (.operandConstraint 0x11) ∧
    decode 0x20000101#32 = .error (.operandConstraint 0x20) ∧
    decode 0x21000100#32 = .error (.operandConstraint 0x21) := ⟨rfl, rfl, rfl, rfl, rfl, rfl, rfl⟩

/-- R93: no word is a word of two rows: two rows differ in a bit both masks hold. -/
theorem test_rows_are_disjoint :
    opcodeRows.Pairwise (fun r q => r.bits &&& q.mask ≠ q.bits &&& r.mask) := by decide +kernel

theorem test_decodeTableWord :
    decodeTableWord 32 0x45000061 = some (.encEmit 0x61) ∧ decodeTableWord 32 0x20000100 = some (.bsrOpen true) ∧
    decodeTableWord 32 0 = none := ⟨rfl, rfl, rfl⟩

/-- R99: TB.SETFREQ.V 'a', 3 and BSW.PUTBITS 1 0. -/
theorem test_pseudo_moves :
    (Pseudo.tbSetfreqV 0x61 3).moves = [.writeArg 3#64, .writeCmd 0x30000061#32] ∧
    (Pseudo.bswPutbits [true, false]).moves = [.writeCmd 0x11000001#32, .writeCmd 0x11000000#32] := by
  exact ⟨rfl, rfl⟩

/-- R98. -/
theorem test_text : Machine.Instr.text (.bsrOpen true) = "BSR.OPEN.U" ∧ Machine.Instr.text .encRun = "ENC.RUN" :=
  ⟨rfl, rfl⟩

/-! ## The step -/

/-- V-CTL-1: the word 0 as the first command after reset: STATUS = 0x62. -/
theorem test_step_illegal_word :
    gives (step (State.reset.withFetchWord 32 0)) (fun t => t.statusWord == 0x62#32 && t.cmd == 0#32) = true := by
  decide +kernel

/-- V-BSW-1: BSW.OPEN as the first command after reset: STATUS = 0x102. -/
theorem test_step_runs_the_placed_word :
    gives (step (State.reset.withFetchWord 32 0x10000000))
      (fun t => t.statusWord == 0x102#32 && t.cmd == 0x10000000#32 && t.hostMoves == []) = true := by
  decide +kernel

/-! ## CTRL -/

/-- V-CTL-8: STATUS = 2. -/
theorem test_ctrlAbort_idle : gives (exec .ctrlAbort State.reset) (fun t => t.statusWord == 2#32) = true := by
  decide +kernel

/-- V-CTL-9: STATUS = 0x82, in_pos kept. -/
theorem test_ctrlAbort_busy :
    gives (exec .ctrlAbort { running .eHeader (loaded [0x61, 0x61, 0x61, 0x62]) with inPos := 4#64 })
      (fun t => t.statusWord == 0x82#32 && t.inPos == 4#64 && t.result == 0#64) = true := by
  decide +kernel

/-- V-CTL-11. -/
theorem test_ctrlRewind :
    gives (exec .ctrlRewind { loaded [0x41, 0x42] with inPos := 2#64 })
      (fun t => t.inPos == 0#64 && t.code == .ok && t.input == [0x41, 0x42]) = true := by
  decide +kernel

/-- V-CTL-10: a command while BUSY is not executed: STATUS = 0x872 with the tree valid. -/
theorem test_command_while_busy :
    gives (exec .tbInfo (running .eDerive treeAB))
      (fun t => t.statusWord == 0x872#32 && t.result == 0#64) = true := by
  decide +kernel

/-! ## BSW -/

/-- V-BSW-2: STATUS = 0x172. -/
theorem test_bswOpen_twice : gives (exec .bswOpen (writing 0#8 0#3)) (fun t => t.statusWord == 0x172#32) = true := by
  decide +kernel

/-- V-BSW-4: the 8th bit of 0xB2, first bit first. -/
theorem test_bswPutbit_eighth :
    gives (exec (.bswPutbit 0) (writing 0b1011001#8 7#3))
      (fun t => t.out == [0xB2] && t.statusWord == 0x102#32) = true := by
  decide +kernel

/-- V-BSW-10: the byte is lost and the writer closed: STATUS = 0x12. -/
theorem test_bswPutbit_lost :
    gives (exec (.bswPutbit 0) { writing 0x7F#8 7#3 with ioDraws := [.ioerr] })
      (fun t => t.out == [] && t.statusWord == 0x12#32 && t.bsw == Writer.closed) = true := by
  decide +kernel

/-- V-BSW-7: seven bits padded to 0xAA. -/
theorem test_bswClose_pads :
    gives (exec .bswClose (writing 0b1010101#8 7#3)) (fun t => t.out == [0xAA] && t.statusWord == 2#32) = true := by
  decide +kernel

/-- V-BSW-5: nothing to write. -/
theorem test_bswClose_empty :
    gives (exec .bswClose (writing 0#8 0#3)) (fun t => t.out == [] && t.statusWord == 2#32) = true := by
  decide +kernel

/-! ## BSR -/

/-- V-BSR-2: target 0 gives END at once, and no byte is read. -/
theorem test_bsrNext_target_0 :
    gives (exec .bsrNext { loaded [0xA5] with bsr := openedReader false 0#64 })
      (fun t => t.result == 2#64 && t.inPos == 0#64 && t.statusWord == 0x602#32) = true := by
  decide +kernel

/-- V-BSR-9: the first bit of 0xA5 is 1. -/
theorem test_bsrNext_first_bit :
    gives (exec .bsrNext (reading [0xA5])) (fun t => t.result == 1#64 && t.inPos == 1#64 && t.bsr.pos == 1) = true := by
  decide +kernel

/-- V-BSR-8: STATUS = 0x272. -/
theorem test_bsrOpen_twice :
    gives (exec (.bsrOpen true) (reading [])) (fun t => t.statusWord == 0x272#32) = true := by
  decide +kernel

/-- V-BSR-1: BSR.OPEN takes its target from ARG. -/
theorem test_bsrOpen_target :
    gives (exec (.bsrOpen false) { loaded [0xA5] with arg := 4#64 })
      (fun t => t.bsr.target == 4#64 && !t.bsr.unlimited && t.statusWord == 0x202#32) = true := by
  decide +kernel

/-- V-BSR-11: the closed values, RESULT unchanged. -/
theorem test_bsrClose :
    gives (exec .bsrClose { reading [0xA5] with result := 2#64 })
      (fun t => t.bsr == Reader.closed && t.result == 2#64) = true := by
  decide +kernel

/-! ## TB -/

/-- V-TB-10: ARG[63:32] is ignored. -/
theorem test_tbSetfreq :
    gives (exec (.tbSetfreq 0x61) { State.reset with arg := 0x0000000100000005#64 })
      (fun t => freqAt t.freq 0x61#8 == 5#32 && freqAt t.freq 0x62#8 == 0#32) = true := by
  decide +kernel

/-- V-TB-11: both valid flags cleared: STATUS = 2. -/
theorem test_tbSetfreq_clears_flags :
    gives (exec (.tbSetfreq 0x63) { codesAB with arg := 7#64 }) (fun t => t.statusWord == 2#32) = true := by
  decide +kernel

theorem test_tbGetfreq : gives (exec (.tbGetfreq 0x61) treeAB) (fun t => t.result == 3#64) = true := by
  decide +kernel

theorem usedSymbols_freqAB : usedSymbols freqAB = [0x61#8, 0x62#8] := by
  rw [usedSymbols_eq_zip]
  decide +kernel

theorem placeLeaves_AB : placeLeaves freqAB [0x61#8, 0x62#8] 0 State.reset.node = leavesAB := by
  have ha : leafNode freqAB 0x61#8 = leafA := by decide +kernel
  have hb : leafNode freqAB 0x62#8 = leafB := by decide +kernel
  simp only [placeLeaves, ha, hb]
  rfl

/-- V-TB-1: the three entries, node_count 3 and root 2. -/
theorem test_tbBuild : buildTree freqAB State.reset.node = some { arena := nodeAB, count := 3#10, root := 2#9 } := by
  have hr : (List.range 2).map (BitVec.ofNat 9) = [0#9, 1#9] := by decide
  have h1 : extractLeast leavesAB [0#9, 1#9] = some (1#9, [0#9]) := by decide +kernel
  have h2 : extractLeast leavesAB [0#9] = some (0#9, []) := by decide +kernel
  have hm : mergeNode leavesAB 1#9 0#9 = rootAB := by decide +kernel
  simp only [buildTree, usedSymbols_freqAB, placeLeaves_AB, hr, List.length_cons, List.length_nil, mergeAll, h1, h2, hm]
  simp [extractLeast, leastKey, nodeAB]

theorem treeAB_TreeInv : TreeInv treeAB := fun _ => ⟨State.reset.node, test_tbBuild⟩

/-- The counts of V-TB-5. -/
def freqTie : Freq := setFreq (setFreq (setFreq State.reset.freq 0 1) 1 1) 2 2

theorem usedSymbols_freqTie : usedSymbols freqTie = [0, 1, 2] := by
  rw [usedSymbols_eq_zip]
  decide +kernel

/-- V-TB-5: a leaf before an internal node of the same weight. -/
theorem test_tbBuild_tie :
    (buildTree freqTie State.reset.node).map (fun b => (nodeResult (nodeAt b.arena 3), nodeResult (nodeAt b.arena 4))) =
      some (0x8002000000000002#64, 0x8006020000000004#64) := by
  unfold buildTree
  rw [usedSymbols_freqTie]
  decide +kernel

/-- V-TB-1: INFO = 0x00030002. -/
theorem test_tbInfo : gives (exec .tbInfo treeAB) (fun t => t.result == 0x00030002#64) = true := by
  decide +kernel

/-- V-TB-1: NODE 0 is the leaf of 'a'. -/
theorem test_tbNode_leaf : gives (exec .tbNode treeAB) (fun t => t.result == 0xC3FE610000000003#64) = true := by
  decide +kernel

/-- V-TB-1: NODE 2 is the root, NODE 3 is past the tree. -/
theorem test_tbNode_root_and_past :
    gives (exec .tbNode { treeAB with arg := 2#64 }) (fun t => t.result == 0x8000010000000004#64) = true ∧
    gives (exec .tbNode { treeAB with arg := 3#64, result := 9#64 }) (fun t => t.result == 0#64) = true := by
  decide +kernel

/-! ## ENC -/

/-- V-ENC-6, first command: "aaab" counted, in_pos = 4. -/
theorem test_encCount :
    gives (exec .encCount (loaded [0x61, 0x61, 0x61, 0x62]))
      (fun t => freqAt t.freq 0x61 == 3#32 && freqAt t.freq 0x62 == 1#32 && t.inPos == 4#64) = true := by
  decide +kernel

/-- V-ENC-7: the second read fails; freq unchanged, in_pos = 1. -/
theorem test_encCount_ioerr :
    gives (exec .encCount { loaded [0x61, 0x61, 0x61, 0x62] with ioDraws := [.ok, .ioerr] })
      (fun t => freqAt t.freq 0x61 == 0#32 && t.inPos == 1#64 && t.statusWord == 0x12#32) = true := by
  decide +kernel

/-- R65: the most significant byte first. -/
theorem test_fieldBytes : fieldBytes 0x01020304#32 = [1, 2, 3, 4] := by decide

/-- The fifth header write fails: the first field, that of symbol 0, stays in OUT. -/
theorem test_encHeader_ioerr :
    gives (exec .encHeader { State.reset with freq := setFreq State.reset.freq 0 0x01020304, ioDraws := [.ok, .ok, .ok, .ok, .ioerr] })
      (fun t => t.out == [1, 2, 3, 4] && t.code == .ioError) = true := by
  decide +kernel

/-- V-TB-1 then ENC.DERIVE: 'a' = 1, 'b' = 0, and no other code. -/
theorem test_encDerive :
    deriveCodes nodeAB 2#9 = some { len := codesAB.codeLen, bits := codesAB.codeBits } := by
  have h0 : nodeAt nodeAB 0#9 = leafA := by decide +kernel
  have h1 : nodeAt nodeAB 1#9 = leafB := by decide +kernel
  have h2 : nodeAt nodeAB 2#9 = rootAB := by decide +kernel
  have hb : writePath 0#255 [false] = 0#255 := by decide +kernel
  have ha : writePath 0#255 [true] = 1#255 := by decide +kernel
  simp [deriveCodes, deriveBelow, h0, h1, h2, leafA, leafB, rootAB, bindCode, CodeTable.empty, codesAB, ha, hb,
    Config.noneIdx, State.reset]

/-- V-TB-1: the payload of "aaab" has four bits. -/
theorem test_encDerive_result : payloadBits freqAB codesAB.codeLen = 4 := by decide +kernel

theorem test_encDerive_completes : gives (exec .encDerive treeAB) (fun t => t.codesValid && t.code == .ok) = true := by
  decide +kernel

/-- V-TB-3: without a tree. -/
theorem test_encDerive_no_tree :
    gives (exec .encDerive State.reset) (fun t => t.statusWord == 0x72#32) = true := by
  decide +kernel

/-- V-ENC-10. -/
theorem test_encCodelen :
    gives (exec (.encCodelen 0x61) codesAB) (fun t => t.result == 1#64) = true ∧
    gives (exec (.encCodelen 0) { codesAB with result := 9#64 }) (fun t => t.result == 0#64) = true := by
  decide +kernel

/-- V-ENC-10. -/
theorem test_encCodeword :
    gives (exec (.encCodeword 0x61) codesAB) (fun t => t.result == 0x8000000000000000#64) = true ∧
    gives (exec (.encCodeword 0x61) { codesAB with arg := 1#64, result := 9#64 }) (fun t => t.result == 0#64) = true := by
  decide +kernel

/-- V-ENC-13: no code for symbol 0. -/
theorem test_encEmit_no_code :
    gives (exec (.encEmit 0) { codesAB with bsw := (writing 0 0).bsw }) (fun t => t.code == .protocolError) = true := by
  decide +kernel

/-- V-ENC-14: the fourth code, 'b' = 0, after 111. -/
theorem test_encEmit :
    gives (exec (.encEmit 0x62) { codesAB with bsw := (writing 0b111#8 3#3).bsw })
      (fun t => t.bsw.acc == 0b1110#8 && t.statusWord == 0x00041902#32) = true := by
  decide +kernel

/-- V-ENC-6: STEP of 'a': RESULT = 0x61. -/
theorem test_encStep :
    gives (exec .encStep { codesAB with bsw := (writing 0 0).bsw, input := [0x61] })
      (fun t => t.result == 0x61#64 && t.bsw.acc == 1#8 && t.bsw.n == 1#3) = true := by
  decide +kernel

/-- V-ENC-6: STEP at the end of IN: RESULT = 0x100. -/
theorem test_encStep_eof :
    gives (exec .encStep { codesAB with bsw := (writing 0 0).bsw })
      (fun t => t.result == 0x100#64 && t.code == .ok && t.bsw.n == 0#3) = true := by
  decide +kernel

/-- V-CTL-12: STATUS = 1 right after the write. -/
theorem test_encRun_accepted :
    gives (exec .encRun { writing 1#8 1#3 with out := [7], inPos := 3#64 })
      (fun t => t.statusWord == 1#32 && t.seq == .eCount && t.out == [] && t.inPos == 0#64) = true := by
  decide +kernel

/-! ## DEC -/

/-- R65, R251: field 1 of a header, most significant byte first. -/
theorem test_headerField : headerField [0, 0, 0, 3, 1, 2, 3, 4] 1 = 0x01020304#32 := by decide

/-- V-DEC-4, shortened: the end of IN inside the header. -/
theorem test_decHeader_short :
    gives (exec .decHeader (loaded [1, 2, 3]))
      (fun t => t.statusWord == 0x22#32 && t.inPos == 3#64 && freqAt t.freq 0 == 0#32) = true := by
  decide +kernel

/-- V-DEC-1: the first bit of 0xE0 is 1, which is 'a'. -/
theorem test_decSymbol :
    gives (exec .decSymbol { treeAB with input := [0xE0], bsr := openedReader true 0 })
      (fun t => t.result == 0x61#64 && t.out == [0x61] && t.emitted == 1#40 && t.bsr.pos == 1) = true := by
  decide +kernel

/-- V-DEC-5: END at the start of a code: STATUS = 0xe22. -/
theorem test_decSymbol_end :
    gives (exec .decSymbol { treeAB with bsr := openedReader true 0 })
      (fun t => t.statusWord == 0xe22#32 && t.out == []) = true := by
  decide +kernel

theorem test_decRun_accepted :
    gives (exec .decRun { treeAB with bsr := openedReader true 0 })
      (fun t => t.statusWord == 0x801#32 && t.seq == .dHeader && t.bsr == Reader.closed) = true := by
  decide +kernel

/-! ## Core steps -/

/-- R221: E_STEP at EOF goes to E_CLOSE, and RESULT is not written. -/
theorem test_core_eStep_eof :
    gives (coreStep (running .eStep { codesAB with bsw := (writing 0b1110 4).bsw, result := 5#64 }))
      (fun t => t.seq == .eClose && t.result == 5#64) = true := by
  decide +kernel

/-- R221: E_CLOSE writes the final byte and ends the RUN with RESULT = |OUT|. -/
theorem test_core_eClose :
    gives (coreStep (running .eClose (writing 0b1110#8 4#3)))
      (fun t => t.seq == .idle && t.out == [0xE0] && t.result == 1#64 && t.done) = true := by
  decide +kernel

/-- R254: D_SYMBOL ends the RUN when emitted reaches total (4). -/
theorem test_core_dSymbol_last :
    gives (coreStep (running .dSymbol
        { treeAB with input := [0xE0], inPos := 1#64, emitted := 3#40
                      bsr := { openedReader true 0 with byte := 0xE0, pos := 3, count := 3#64 } }))
      (fun t => t.seq == .idle && t.result == 4#64 && t.out == [0x62]) = true := by
  decide +kernel

/-! ## Witnesses

For every statement with hypotheses, states that meet them, one for each clause. -/

/-- The state of a next state. -/
def stateOf (o : Host.Outcome State Fault Refusal) : State :=
  match o with
  | .next t => t
  | .fault _ => State.reset
  | .refused _ => State.reset

theorem next_of_gives {o : Host.Outcome State Fault Refusal} (p : State → Bool) (h : gives o p = true) :
    o = .next (stateOf o) ∧ p (stateOf o) = true := by
  cases o with
  | next t => exact ⟨rfl, h⟩
  | fault f => simp [gives] at h
  | refused r => simp [gives] at h

/-- A next state with a property, from one evaluation. -/
theorem exists_next {o : Host.Outcome State Fault Refusal} (p : State → Bool) (h : gives o p = true) :
    ∃ t, o = .next t ∧ p t = true := ⟨stateOf o, next_of_gives p h⟩

theorem witness_DecodeOfEncode :
    Instr.wellFormed (.bswPutbit 1) = true ∧ Instr.wellFormed (.encEmit 0xFF) = true ∧
    Instr.wellFormed (.bsrOpen true) = true := by decide

theorem witness_EncodeOfDecode : decode 0x450000FF#32 = .ok (.encEmit 0xFF) := rfl

theorem witness_StepRunsTheDecodedCommand :
    (State.reset.withFetchWord 32 0x45000061).hostMoves = [.writeCmd 0x45000061#32] ∧
    decode 0x45000061#32 = .ok (.encEmit 0x61) := ⟨rfl, rfl⟩

theorem witness_IllegalWordWhileIdle :
    (State.reset.withFetchWord 32 0x11000002).hostMoves = [.writeCmd 0x11000002#32] ∧
    legalWord 0x11000002#32 = false ∧ (State.reset.withFetchWord 32 0x11000002).seq = .idle := by
  exact ⟨rfl, by decide, rfl⟩

theorem witness_WordWhileBusyEndsTheRun :
    let s := running .dSymbol (State.reset.withFetchWord 32 0x01000000)
    let s' := running .eCount (State.reset.withFetchWord 32 0x01000001)
    s.hostMoves = [.writeCmd 0x01000000#32] ∧ s.seq ≠ .idle ∧ s'.hostMoves = [.writeCmd 0x01000001#32] ∧
    s'.seq ≠ .idle ∧ 0x01000001#32 ≠ 0x01000000#32 := by
  exact ⟨rfl, by decide, rfl, by decide, by decide⟩

/-- The third clause at its boundary: 2^64 bytes. -/
theorem witness_LoadInputMove :
    ({ State.reset with hostMoves := [.loadInput [1]] }).seq = .idle ∧ [1#8].length ≤ Config.inLenMax ∧
    (running .eStep { State.reset with hostMoves := [.loadInput [1]] }).seq ≠ .idle ∧
    ∃ l : List Byte, l.length = 2 ^ 64 ∧ l.length > Config.inLenMax := by
  refine ⟨rfl, by decide, by decide, List.replicate (2 ^ 64) 0#8, List.length_replicate, ?_⟩
  rw [List.length_replicate]
  decide

theorem witness_HostRegisterAccess :
    (0x1F#5 ≠ 0x00#5 ∧ 0x1F#5 ≠ 0x08#5 ∧ 0x1F#5 ≠ 0x10#5 ∧ 0x1F#5 ≠ 0x18#5) ∧
    ({ State.reset with hostMoves := [.readAt 0x18#5] }).hostMoves = [.readAt 0x18#5] ∧
    ({ State.reset with hostMoves := [.readOut] }).hostMoves = [.readOut] ∧
    ({ State.reset with hostMoves := [HostMove.writeAt 0x08#5 7#64] }).hostMoves = [.writeArg 7#64] ∧
    ({ State.reset with hostMoves := [HostMove.writeAt 0x10#5 7#64] }).hostMoves = [.writeResult 7#64] := by
  exact ⟨by decide, rfl, rfl, rfl, rfl⟩

theorem witness_ResetEvent :
    (running .eStep { codesAB with hostMoves := [.reset] }).hostMoves = [.reset] := rfl

/-- CTRL.ABORT's two clauses; every statement about a command issued while idle has the first one's hypothesis. -/
theorem witness_AbortStopsTheRun : State.reset.seq = .idle ∧ (running .eCount State.reset).seq ≠ .idle := by decide

theorem witness_RewindMovesToTheFirstByte : ({ State.reset with inPos := 2#64 }).seq = .idle := rfl

theorem witness_RunAcceptance : codesAB.seq = .idle := rfl

theorem witness_BswOpenStartsAStream :
    (State.reset.seq = .idle ∧ State.reset.bsw.isOpen = false) ∧
    ((writing 1 1).seq = .idle ∧ (writing 1 1).bsw.isOpen = true) := by decide

theorem witness_BswPutbitAppendsOneBit :
    (1#8).toNat ≤ 1 ∧ 1 < (2#8).toNat ∧
    (State.reset.seq = .idle ∧ State.reset.bsw.isOpen = false) ∧
    ((writing 1 6).seq = .idle ∧ (writing 1 6).bsw.isOpen = true ∧ (writing 1 6).bsw.n ≠ 7#3) ∧
    ((writing 1 7).bsw.isOpen = true ∧ (writing 1 7).bsw.n = 7#3 ∧ (writing 1 7).ioDraws.head? ≠ some .ioerr) ∧
    ({ writing 1 7 with ioDraws := [.ioerr] }).ioDraws.head? = some .ioerr := by decide

theorem witness_BswCloseEndsTheStream :
    State.reset.bsw.isOpen = false ∧
    ((writing 0 0).bsw.isOpen = true ∧ (writing 0 0).bsw.n = 0#3) ∧
    ((writing 1 1).bsw.n ≠ 0#3 ∧ (writing 1 1).ioDraws.head? ≠ some .ioerr) ∧
    ({ writing 1 1 with ioDraws := [.ioerr] }).ioDraws.head? = some .ioerr := by decide

theorem witness_WriterPacksTheBits :
    State.reset.seq = .idle ∧ State.reset.bsw.isOpen = false ∧ allDrawsOk State.reset := by decide

theorem witness_WriterInvariantsKept :
    let s := { writing 0x7F 7 with hostMoves := [.writeCmd 0x11000001#32] }
    WriterInv s ∧ ∃ t, step s = .next t :=
  ⟨by decide, (exists_next (fun _ => true) (by decide +kernel)).imp fun _ h => h.1⟩

theorem witness_BsrOpenStartsAReader :
    (State.reset.seq = .idle ∧ State.reset.bsr.isOpen = false) ∧ (reading []).bsr.isOpen = true := by decide

theorem witness_BsrNextYieldsTheNextBit :
    State.reset.bsr.isOpen = false ∧
    (let s := { reading [0xA5] with bsr := { openedReader true 0 with ended := true } }
     s.seq = .idle ∧ s.bsr.isOpen = true ∧ s.bsr.ended = true) ∧
    (let s := { reading [0xA5] with bsr := openedReader false 0 }
     s.seq = .idle ∧ s.bsr.isOpen = true ∧ s.bsr.ended = false ∧ s.bsr.unlimited = false ∧ s.bsr.count = s.bsr.target) ∧
    (let s := { reading [0xA5] with bsr := { openedReader false 9 with pos := 7 } }
     s.seq = .idle ∧ s.bsr.isOpen = true ∧ s.bsr.ended = false ∧ s.bsr.count ≠ s.bsr.target ∧ s.bsr.pos ≠ 8) ∧
    (let s := { reading [0xA5] with ioDraws := [.ioerr] }
     s.bsr.unlimited = true ∧ s.bsr.pos = 8 ∧ s.ioDraws.head? = some .ioerr) ∧
    (let s := reading []
     s.bsr.pos = 8 ∧ s.ioDraws.head? ≠ some .ioerr ∧ s.input[s.inPos.toNat]? = none) ∧
    (let s := reading [0xA5]
     s.bsr.pos = 8 ∧ s.ioDraws.head? ≠ some .ioerr ∧ s.input[s.inPos.toNat]? = some 0xA5#8) := by decide

theorem witness_BsrCloseDiscardsTheReader :
    State.reset.bsr.isOpen = false ∧ (reading []).seq = .idle ∧ (reading []).bsr.isOpen = true := by decide

/-- j below t, and j = t. -/
theorem witness_ReaderYieldsTheInputBits :
    let s := { loaded [0xA5] with arg := 4#64 }
    s.seq = .idle ∧ s.bsr.isOpen = false ∧ allDrawsOk s ∧ InputInv s ∧
    3 < min s.arg.toNat (8 * s.unread.length) ∧ min s.arg.toNat (8 * s.unread.length) ≤ 4 := by decide

theorem witness_ReaderInvariantsKept :
    let s := { reading [0xA5] with
                 bsr := { openedReader false 4 with count := 3#64, pos := 3 }, hostMoves := [.writeCmd 0x21000000#32] }
    ReaderInv s ∧ ∃ t, step s = .next t :=
  ⟨by decide, (exists_next (fun _ => true) (by decide +kernel)).imp fun _ h => h.1⟩

theorem freqAt_reset (sym : Byte) : freqAt State.reset.freq sym = 0#32 := by simp [freqAt, State.reset]

theorem witness_BuildOfDegenerateTables :
    (State.reset.seq = .idle ∧ ∀ sym, freqAt State.reset.freq sym = 0#32) ∧
    (let s := { State.reset with freq := setFreq State.reset.freq 0x41 5 }
     s.seq = .idle ∧ freqAt s.freq 0x41 ≠ 0#32 ∧ ∀ other, other ≠ 0x41#8 → freqAt s.freq other = 0#32) :=
  ⟨⟨rfl, freqAt_reset⟩, rfl, by rw [freqAt_setFreq_same]; decide,
    fun other h => (freqAt_setFreq_other _ _ h).trans (freqAt_reset other)⟩

theorem witness_BuildMakesTheGreedyTree :
    treeAB.seq = .idle ∧ 2 ≤ (usedSymbols treeAB.freq).length ∧ (usedSymbols treeAB.freq)[1]? = some 0x62#8 := by
  rw [show usedSymbols treeAB.freq = [0x61#8, 0x62#8] from usedSymbols_freqAB]
  decide

theorem witness_BuiltRootWeighsTheTotal : treeAB.seq = .idle ∧ freqAt treeAB.freq 0x61 ≠ 0#32 := by decide +kernel

theorem tbBuild_next {s : State} (h : s.seq = .idle) : ∃ t, exec .tbBuild s = .next t := by
  cases hb : buildTree s.freq s.node with
  | none => exact ⟨_, unitCommand_raise h (by simp only [ruleTbBuild, startCommand_freq, startCommand_node, hb]; rfl)⟩
  | some b => exact ⟨_, unitCommand_ret h (by simp only [ruleTbBuild, startCommand_freq, startCommand_node, hb]; rfl)⟩

/-- The arenas of the two states differ. -/
theorem witness_BuildDependsOnFreqAlone :
    let s1 := { State.reset with freq := freqTie }
    let s2 := { treeAB with freq := freqTie }
    s1.seq = .idle ∧ s2.seq = .idle ∧ s1.freq = s2.freq ∧ (∃ t, exec .tbBuild s1 = .next t) ∧
    ∃ t, exec .tbBuild s2 = .next t := by
  exact ⟨rfl, rfl, rfl, tbBuild_next rfl, tbBuild_next rfl⟩

theorem witness_InfoReadsSizeAndRoot :
    treeAB.seq = .idle ∧ treeAB.treeValid = true ∧ State.reset.treeValid = false := by decide

/-- Index 2 is the last entry, 3 the first past the tree. -/
theorem witness_NodeReadsOneEntry :
    let s2 := { treeAB with arg := 2#64 }
    let s3 := { treeAB with arg := 3#64 }
    s3.nodeCount.toNat ≤ (s3.arg.extractLsb' 0 9).toNat ∧ (s2.arg.extractLsb' 0 9).toNat < s2.nodeCount.toNat ∧
    (nodeAt s2.node (s2.arg.extractLsb' 0 9)).kind = .internal ∧
    (nodeAt treeAB.node (treeAB.arg.extractLsb' 0 9)).kind = .leaf := by decide +kernel

theorem witness_CountCountsTheUnreadBytes :
    let s := loaded [0x61, 0x61, 0x61, 0x62]
    s.seq = .idle ∧ InputInv s ∧ drawsOk (s.unread.length + 1) s ∧ ∀ b, s.unread.count b < 2 ^ 32 := by
  refine ⟨rfl, by decide, by decide, fun b => Nat.lt_of_le_of_lt List.count_le_length (by decide)⟩

/-- The IO_ERROR clause with the draw of the end of IN failing, and the OVERFLOW clause at its boundary, the 2^32-th
copy of one byte. -/
theorem witness_CountFailsPrecisely_ioerr :
    let s := { loaded [0x61] with ioDraws := [.ok, .ioerr] }
    s.seq = .idle ∧ InputInv s ∧ 1 ≤ s.unread.length ∧ (∀ b, (s.unread.take 1).count b < 2 ^ 32) ∧ drawsFailAt 1 s := by
  refine ⟨rfl, by decide, by decide, fun b => Nat.lt_of_le_of_lt List.count_le_length (by decide), by decide⟩

/-- An input of copies of one byte, of any length. -/
theorem witness_CountFailsPrecisely_overflow (n : Nat) (hn : n < 2 ^ 32) :
    let s := loaded (List.replicate (n + 1) 0#8)
    s.seq = .idle ∧ InputInv s ∧ n ≤ s.unread.length ∧ (∀ b, (s.unread.take n).count b < 2 ^ 32) ∧
    s.unread[n]? = some 0#8 ∧ (s.unread.take n).count 0#8 = n ∧ drawsOk (n + 1) s := by
  have hu : (loaded (List.replicate (n + 1) 0#8)).unread = List.replicate (n + 1) 0#8 := rfl
  have hl : (loaded (List.replicate (n + 1) 0#8)).input.length = n + 1 := List.length_replicate
  refine ⟨rfl, ⟨Nat.zero_le _, ?_⟩, ?_, fun b => ?_, ?_, ?_, ?_⟩
  · rw [hl, Config.inLenMax]; omega
  · rw [hu, List.length_replicate]; omega
  · refine Nat.lt_of_le_of_lt List.count_le_length ?_
    rw [List.length_take, hu, List.length_replicate]; omega
  · rw [hu, List.getElem?_replicate, if_pos (Nat.lt_succ_self n)]
  · rw [hu, List.take_replicate, List.count_replicate_self]; omega
  · intro d hd; simp [loaded, State.reset] at hd

/-- The last one at n = 2^32 − 1, the count the OVERFLOW clause names. -/
theorem witness_CountFailsPrecisely_at_the_limit :
    ∃ s : State, s.seq = .idle ∧ s.unread[2 ^ 32 - 1]? = some 0#8 ∧ (s.unread.take (2 ^ 32 - 1)).count 0#8 = 2 ^ 32 - 1 := by
  have h := witness_CountFailsPrecisely_overflow (2 ^ 32 - 1) (by decide)
  exact ⟨_, h.1, h.2.2.2.2.1, h.2.2.2.2.2.1⟩

/-- 1024 draws that are OK, and 1023 followed by a failing one. -/
theorem witness_HeaderWritesTheCounts :
    treeAB.seq = .idle ∧ drawsOk 1024 treeAB ∧
    drawsFailAt 1023 { treeAB with ioDraws := List.replicate 1023 .ok ++ [.ioerr] } := by decide +kernel

theorem witness_DeriveBindsRootToLeafPaths :
    (State.reset.seq = .idle ∧ TreeInv State.reset ∧ State.reset.treeValid = false) ∧
    treeAB.seq = .idle ∧ TreeInv treeAB ∧ treeAB.treeValid = true ∧ freqAt treeAB.freq 0 = 0#32 ∧
    freqAt treeAB.freq 0x61 ≠ 0#32 :=
  ⟨⟨rfl, fun h => absurd h (by decide), rfl⟩, rfl, treeAB_TreeInv, rfl, by decide +kernel, by decide +kernel⟩

theorem codesAB_TreeInv : TreeInv codesAB := fun _ => ⟨State.reset.node, test_tbBuild⟩

theorem codesAB_CodesInv : CodesInv codesAB := fun _ => ⟨rfl, test_encDerive⟩

theorem witness_CodesArePrefixFree :
    TreeInv codesAB ∧ CodesInv codesAB ∧ codesAB.codesValid = true ∧ freqAt codesAB.freq 0x61 ≠ 0#32 ∧
    freqAt codesAB.freq 0x62 ≠ 0#32 ∧ 0x61#8 ≠ 0x62#8 :=
  ⟨codesAB_TreeInv, codesAB_CodesInv, rfl, by decide +kernel, by decide +kernel, by decide⟩

theorem witness_CodelenReadsTheLength :
    codesAB.seq = .idle ∧ codesAB.codesValid = true ∧ treeAB.codesValid = false := by decide

/-- A bit inside the code, and the first one past it. -/
theorem witness_CodewordReadsAChunk :
    codesAB.seq = .idle ∧ codesAB.codesValid = true ∧ treeAB.codesValid = false ∧
    (0 < (codesAB.codeLenAt 0x61).toNat ∧ ¬ 1 < (codesAB.codeLenAt 0x61).toNat) := by decide +kernel

/-- Seven buffered bits and a code of one: m = 1. -/
theorem witness_EmitSendsOneCode :
    (treeAB.seq = .idle ∧ treeAB.codesValid = false) ∧ codesAB.bsw.isOpen = false ∧ codesAB.codeLenAt 0 = 0#8 ∧
    (let s := { codesAB with bsw := (writing 0x7F 7).bsw }
     s.seq = .idle ∧ s.codesValid = true ∧ s.bsw.isOpen = true ∧ s.codeLenAt 0x61 ≠ 0#8 ∧
     (bufferedBits s.bsw ++ s.codeOf 0x61).length / 8 = 1 ∧ drawsOk 1 s ∧
     drawsFailAt 0 { s with ioDraws := [.ioerr] }) := by decide +kernel

theorem witness_StepReadsAByteAndSendsItsCode :
    (treeAB.seq = .idle ∧ treeAB.codesValid = false) ∧
    (let s := { codesAB with bsw := (writing 0x7F 7).bsw, input := [0x61, 0x63] }
     s.seq = .idle ∧ s.codesValid = true ∧ s.bsw.isOpen = true ∧ s.ioDraws.head? ≠ some .ioerr ∧
     s.input[s.inPos.toNat]? = some 0x61#8 ∧ s.codeLenAt 0x61 ≠ 0#8 ∧
     (bufferedBits s.bsw ++ s.codeOf 0x61).length / 8 = 1 ∧ drawsOk 2 s ∧
     drawsFailAt 1 { s with ioDraws := [.ok, .ioerr] } ∧
     ({ s with ioDraws := [.ioerr] }).ioDraws.head? = some .ioerr ∧
     s.input[({ s with inPos := 1#64 }).inPos.toNat]? = some 0x63#8 ∧ s.codeLenAt 0x63 = 0#8 ∧
     s.input[({ s with inPos := 2#64 }).inPos.toNat]? = none) := by decide +kernel

/-- 1024 unread bytes, 1023 of them, and a failing draw at the last byte. -/
theorem witness_DecHeaderReadsTheCounts :
    (let s := loaded (List.replicate 1024 1#8)
     s.seq = .idle ∧ InputInv s ∧ 1024 ≤ s.unread.length ∧ drawsOk 1024 s) ∧
    (let s := loaded (List.replicate 1023 1#8)
     s.seq = .idle ∧ InputInv s ∧ s.unread.length < 1024 ∧ drawsOk (s.unread.length + 1) s) ∧
    (let s := { loaded (List.replicate 1024 1#8) with ioDraws := List.replicate 1023 .ok ++ [.ioerr] }
     s.seq = .idle ∧ InputInv s ∧ 1023 ≤ s.unread.length ∧ drawsFailAt 1023 s) := by decide +kernel

/-- The tree of V-TB-2, one symbol under an internal root. -/
def treeA : State :=
  { State.reset with
    freq := setFreq State.reset.freq 0x41 5
    node := setNode (setNode State.reset.node
      0#9 { kind := .leaf, sym := 0x41#8, left := 0x1FF#9, right := 0x1FF#9, weight := 5#40 })
      1#9 { kind := .internal, sym := 0#8, left := 0#9, right := 0x1FF#9, weight := 5#40 }
    nodeCount := 2#10, root := 1#9, treeValid := true, bsr := openedReader true 0 }

/-- DEC.SYMBOL without a tree or a reader, and its symbol clauses: the one bit 1 of 0xE0 leads to 'a' in V-TB-1's tree,
with the write OK and failing. -/
theorem witness_DecSymbolWalksToALeaf_symbol :
    (State.reset.treeValid = false ∧ State.reset.seq = .idle) ∧
    (let s := { treeAB with input := [0xE0], bsr := openedReader true 0 }
     s.seq = .idle ∧ s.treeValid = true ∧ s.bsr.isOpen = true ∧ InputInv s ∧ LeafPath s.node s.root [true] 0x61#8 ∧
     ∃ s1, readBits 1 (startCommand s) = .ret [true] s1 ∧ s1.ioDraws.head? ≠ some .ioerr) ∧
    (let s := { treeAB with input := [0xE0], bsr := openedReader true 0, ioDraws := [.ok, .ioerr] }
     ∃ s1, readBits 1 (startCommand s) = .ret [true] s1 ∧ s1.ioDraws.head? = some .ioerr) :=
  ⟨⟨rfl, rfl⟩, ⟨rfl, rfl, rfl, by decide, ⟨0#9, by decide +kernel, by decide +kernel, by decide +kernel⟩,
    _, rfl, by decide⟩, ⟨_, rfl, rfl⟩⟩

/-- DEC.SYMBOL's three error clauses: END at the root, a bit 1 in the single-symbol tree, a failing read. -/
theorem witness_DecSymbolWalksToALeaf_errors :
    (let s := treeA
     s.seq = .idle ∧ InputInv s ∧ descend s.node s.root [] = some s.root ∧ (nodeAt s.node s.root).kind = .internal ∧
     ∃ s1, readBits 1 (startCommand s) = .ret [] s1) ∧
    (let s := { treeA with input := [0x80] }
     (∃ s1, readBits 1 (startCommand s) = .ret [true] s1) ∧ (nodeAt s.node s.root).right = 0x1FF#9) ∧
    (let s := { treeA with input := [0x80], ioDraws := [.ioerr] }
     ∃ s1, readBits 0 (startCommand s) = .ret [] s1 ∧ ∃ s2, nextBit s1 = .raise .ioError s2) :=
  ⟨⟨rfl, by decide, rfl, by decide +kernel, _, rfl⟩, ⟨⟨_, rfl⟩, by decide +kernel⟩, ⟨_, rfl, _, rfl⟩⟩

/-- E_CLOSE, whose sub-command ends OK, or with IO_ERROR. -/
theorem witness_CoreStepPerformsTheSubCommand :
    let s := running .eClose (writing 1 1)
    let s' := { running .eClose (writing 1 1) with ioDraws := [.ioerr] }
    s.done = false ∧ s.code = .ok ∧ subCommand s.seq = some .bswClose ∧
    (∃ t, exec .bswClose { s with seq := .idle } = .next t ∧ t.code = .ok) ∧
    ∃ t, exec .bswClose { s' with seq := .idle } = .next t ∧ t.code ≠ .ok :=
  ⟨rfl, rfl, rfl,
    (exists_next (fun t => decide (t.code = .ok)) (by decide +kernel)).imp fun _ h => ⟨h.1, by simpa using h.2⟩,
    (exists_next (fun t => decide (t.code ≠ .ok)) (by decide +kernel)).imp fun _ h => ⟨h.1, by simpa using h.2⟩⟩

theorem witness_IdleBlockWaits :
    (State.reset.hostMoves = [] ∧ State.reset.seq = .idle) ∧
    (running .eCount { State.reset with hostMoves := [.yield] }).hostMoves = [.yield] := ⟨⟨rfl, rfl⟩, rfl⟩

theorem witness_RunsOnEmptyInput :
    (State.reset.seq = .idle ∧ State.reset.hostMoves = [] ∧ State.reset.input = [] ∧ allDrawsOk State.reset ∧
      ∃ s1, exec .encRun State.reset = .next s1) ∧
    (let s := loaded (List.replicate 1024 0#8 ++ [0xFF])
     s.seq = .idle ∧ s.hostMoves = [] ∧ s.input.length ≤ Config.inLenMax ∧ allDrawsOk s ∧
     ∃ s1, exec .decRun s = .next s1) :=
  ⟨⟨rfl, rfl, rfl, by decide, _, rfl⟩, rfl, rfl, by decide +kernel, by decide +kernel, _, rfl⟩

theorem witness_EveryRunEnds :
    let s := running .eCount (loaded [0x61])
    let s' := running .dHeader (loaded [0x61])
    (s.hostMoves = [] ∧ InputInv s ∧ s.seq = .eCount) ∧ s'.hostMoves = [] ∧ InputInv s' ∧ s'.seq = .dHeader := by
  exact ⟨⟨rfl, by decide, rfl⟩, rfl, by decide, rfl⟩

theorem witness_EncoderLaw :
    let s := loaded [0x61, 0x61, 0x61, 0x62]
    s.seq = .idle ∧ s.hostMoves = [] ∧ allDrawsOk s ∧ s.input.length ≤ Config.inLenMax ∧
    (∀ b, s.input.count b < 2 ^ 32) ∧ ∃ s1, exec .encRun s = .next s1 :=
  ⟨rfl, rfl, by decide, by decide, fun _ => Nat.lt_of_le_of_lt List.count_le_length (by decide), _, rfl⟩

theorem decRun_accepted {u : State} (h : u.seq = .idle) : ∃ u1, exec .decRun u = .next u1 :=
  ⟨_, by simp only [exec, execDecRun, runCommand, busy_eq_false.mpr h]; rfl⟩

theorem loaded_ready (l : List Byte) :
    (loaded l).seq = .idle ∧ (loaded l).hostMoves = [] ∧ allDrawsOk (loaded l) ∧ (loaded l).input = l :=
  ⟨rfl, rfl, by intro d hd; simp [loaded, State.reset] at hd, rfl⟩

/-- ENC.RUN on nothing ends OK after two core steps, and DEC.RUN is accepted on what it left. (95_test_vectors.md V-ENC-1
to V-ENC-5 and V-DEC-1 to V-DEC-17 were run on longer inputs; they are not theorems here, being runs of many steps.) -/
theorem witness_DecodeOfEncodedInputIsTheInput :
    ∃ s s1 t u u1 : State, s.seq = .idle ∧ s.hostMoves = [] ∧ s.input.length ≤ Config.inLenMax ∧
      exec .encRun s = .next s1 ∧ Host.Core.run Sys2Proof.core 2 s1 = .next t ∧ (t.seq = .idle ∧ t.code = .ok) ∧
      (u.seq = .idle ∧ u.hostMoves = [] ∧ allDrawsOk u ∧ u.input = t.out) ∧ exec .decRun u = .next u1 := by
  obtain ⟨s1, h1, h1'⟩ := exists_next (o := exec .encRun State.reset)
    (fun s1 => gives (Host.Core.run Sys2Proof.core 2 s1) fun t => decide (t.seq = .idle ∧ t.code = .ok))
    (by decide +kernel)
  obtain ⟨t, ht, ht'⟩ := exists_next _ h1'
  obtain ⟨u1, hu⟩ := decRun_accepted (loaded_ready t.out).1
  exact ⟨State.reset, s1, t, loaded t.out, u1, rfl, rfl, by decide, h1, ht, of_decide_eq_true ht', loaded_ready t.out, hu⟩

theorem witness_CommandsKeepTheHostsRegisters :
    (∃ t, exec .encHeader codesAB = .next t) ∧ ∃ t, coreStep (running .eCount (loaded [0x61])) = .next t :=
  ⟨(exists_next (fun _ => true) (by decide +kernel)).imp fun _ h => h.1,
    (exists_next (fun _ => true) (by decide +kernel)).imp fun _ h => h.1⟩

theorem witness_ErrorsRecordOnlyCodeAndDone :
    (∃ t, exec .bswClose State.reset = .next t ∧ t.code ≠ .ok) ∧
    (let s := running .eClose State.reset
     s.seq ≠ .idle ∧ s.code = .ok ∧ ∃ t, coreStep s = .next t ∧ t.code ≠ .ok) :=
  ⟨(exists_next (fun t => decide (t.code ≠ .ok)) (by decide +kernel)).imp fun _ h => ⟨h.1, by simpa using h.2⟩,
    by decide, rfl,
    (exists_next (fun t => decide (t.code ≠ .ok)) (by decide +kernel)).imp fun _ h => ⟨h.1, by simpa using h.2⟩⟩

theorem witness_ErrorMatrix : State.reset.seq = .idle ∧ ∃ t, exec .tbBuild State.reset = .next t ∧ t.code = .emptyInput :=
  ⟨rfl, (exists_next (fun t => decide (t.code = .emptyInput)) (by decide +kernel)).imp
    fun _ h => ⟨h.1, by simpa using h.2⟩⟩

theorem freq_changed {t : State} (h : freqAt t.freq 0 = 1#32) : t.freq ≠ State.reset.freq := fun he => by
  rw [he, freqAt_reset] at h
  exact absurd h (by decide)

theorem witness_FreqWritesClearTheValidFlags :
    (∃ t, exec .encCount (loaded [0]) = .next t ∧ t.freq ≠ (loaded [0]).freq) ∧
    ∃ t, coreStep (running .eCount (loaded [0])) = .next t ∧ t.freq ≠ (running .eCount (loaded [0])).freq :=
  ⟨(exists_next (fun t => decide (freqAt t.freq 0 = 1#32)) (by decide +kernel)).imp
      fun _ h => ⟨h.1, freq_changed (of_decide_eq_true h.2)⟩,
    (exists_next (fun t => decide (freqAt t.freq 0 = 1#32)) (by decide +kernel)).imp
      fun _ h => ⟨h.1, freq_changed (of_decide_eq_true h.2)⟩⟩

theorem witness_OutOnlyGrows :
    (∃ t, exec .bswClose (writing 1 1) = .next t) ∧ ∃ t, coreStep (running .eClose (writing 1 1)) = .next t :=
  ⟨(exists_next (fun _ => true) (by decide +kernel)).imp fun _ h => h.1,
    (exists_next (fun _ => true) (by decide +kernel)).imp fun _ h => h.1⟩

/-- With a valid tree, so that ENC.DERIVE runs; CTRL.ABORT asks for the same premise. -/
theorem witness_EveryCommandEnds : TreeInv treeAB ∧ treeAB.treeValid = true := ⟨treeAB_TreeInv, rfl⟩

/-- ENC.RUN of "aaab" before its first E_STEP. -/
def stepping : State :=
  running .eStep { codesAB with input := [0x61, 0x61, 0x61, 0x62], bsw := { isOpen := true, acc := 0#8, n := 0#3 } }

theorem stepping_counts : CountsOf stepping.freq stepping.input := by
  unfold CountsOf
  decide +kernel

theorem stepping_Inv : Inv stepping :=
  { writer := ⟨by decide, fun h => absurd h (by decide)⟩
    reader := ⟨fun _ => rfl, fun h => absurd h (by decide)⟩
    input := ⟨by decide, by decide⟩
    tree := codesAB_TreeInv
    codes := codesAB_CodesInv
    run := ⟨fun _ => ⟨rfl, rfl⟩, stepping_counts, rfl, rfl⟩ }

theorem witness_EveryStepKeepsTheInvariants : Inv stepping ∧ ∃ t, step stepping = .next t :=
  ⟨stepping_Inv, (exists_next (fun _ => true) (by decide +kernel)).imp fun _ h => h.1⟩

theorem witness_RunsRaiseOnlyTheirOwnErrors : Inv stepping ∧ stepping.seq ≠ .idle := ⟨stepping_Inv, by decide⟩

end Sys2Proof.Tests
end

/-!
SUPPORT. Where a unit rule can stop: a two-sided postcondition on `Res`, and the relations between the state before and
after that the I/O primitives and the unit rules keep (spec/10_state.md R26 to R36).
-/

namespace Sys2Proof.Machine

/-! ## Postconditions of a rule -/

/-- `Q` holds of the value and the state of a normal end, and `E` of the state a raise leaves. -/
def Res.Meets {α : Type} (Q : α → State → Prop) (E : State → Prop) : Res α → Prop
  | .ret a t => Q a t
  | .raise _ t => E t
  | .stuck _ => True

theorem Res.Meets.mono {α : Type} {r : Res α} {Q Q' : α → State → Prop} {E E' : State → Prop} (h : r.Meets Q E)
    (hQ : ∀ a t, Q a t → Q' a t) (hE : ∀ t, E t → E' t) : r.Meets Q' E' := by
  cases r with
  | ret a t => exact hQ a t h
  | raise e t => exact hE t h
  | stuck f => trivial

theorem Res.Meets.bind {α β : Type} {r : Res α} {k : α → State → Res β} {P : α → State → Prop}
    {Q : β → State → Prop} {E : State → Prop} (h : r.Meets P E) (hk : ∀ a t, P a t → (k a t).Meets Q E) :
    (r.bind k).Meets Q E := by
  cases r with
  | ret a t => exact hk a t h
  | raise e t => exact h
  | stuck f => trivial

theorem Res.Meets.of_ret {α : Type} {r : Res α} {Q : α → State → Prop} {E : State → Prop} {a : α} {t : State}
    (h : r.Meets Q E) (hr : r = .ret a t) : Q a t := by
  subst hr; exact h

theorem Res.Meets.of_raise {α : Type} {r : Res α} {Q : α → State → Prop} {E : State → Prop} {e : StatusCode}
    {t : State} (h : r.Meets Q E) (hr : r = .raise e t) : E t := by
  subst hr; exact h

theorem Res.Keeps.of_ret {α : Type} {r : Res α} {s t : State} {a : α} (h : r.Keeps s) (hr : r = .ret a t) :
    Untouched s t := by
  subst hr; exact h

theorem Res.Keeps.of_raise {α : Type} {r : Res α} {s t : State} {e : StatusCode} (h : r.Keeps s)
    (hr : r = .raise e t) : Untouched s t := by
  subst hr; exact h

/-! ## Relations between the state before and after -/

/-- The invariants of the stored elements (R26, R29, R31, R35, R36) carry over from `s` to `t`. -/
structure KeepsInvs (s t : State) : Prop where
  writer : WriterInv s → WriterInv t
  reader : ReaderInv s → ReaderInv t
  input : InputInv s → InputInv t
  tree : TreeInv s → TreeInv t
  codes : CodesInv s → CodesInv t

theorem KeepsInvs.refl (s : State) : KeepsInvs s s := ⟨id, id, id, id, id⟩

theorem KeepsInvs.trans {s t u : State} (h : KeepsInvs s t) (k : KeepsInvs t u) : KeepsInvs s u :=
  ⟨k.writer ∘ h.writer, k.reader ∘ h.reader, k.input ∘ h.input, k.tree ∘ h.tree, k.codes ∘ h.codes⟩

/-- What code that only makes accesses and works the writer or the reader does: it keeps the invariants, appends to OUT,
and leaves the frequency table and both valid flags as they are. -/
structure IoFrame (s t : State) : Prop extends KeepsInvs s t where
  out : s.out <+: t.out
  freq : t.freq = s.freq
  treeValid : t.treeValid = s.treeValid
  codesValid : t.codesValid = s.codesValid

theorem IoFrame.trans {s t u : State} (h : IoFrame s t) (k : IoFrame t u) : IoFrame s u :=
  { h.toKeepsInvs.trans k.toKeepsInvs with
    out := h.out.trans k.out
    freq := k.freq.trans h.freq
    treeValid := k.treeValid.trans h.treeValid
    codesValid := k.codesValid.trans h.codesValid }

/-- What accesses alone do: the writer, the reader and `emitted` stay too. -/
structure AccessFrame (s t : State) : Prop extends IoFrame s t where
  bsw : t.bsw = s.bsw
  bsr : t.bsr = s.bsr
  emitted : t.emitted = s.emitted

theorem AccessFrame.trans {s t u : State} (h : AccessFrame s t) (k : AccessFrame t u) : AccessFrame s u :=
  { h.toIoFrame.trans k.toIoFrame with
    bsw := k.bsw.trans h.bsw
    bsr := k.bsr.trans h.bsr
    emitted := k.emitted.trans h.emitted }

/-- An update of in_pos, OUT and the draws. -/
theorem accessFrame_update {s : State} {ip : Word64} {o : List Byte} (ds : List IoDraw)
    (hin : InputInv s → ip.toNat ≤ s.input.length) (hout : s.out <+: o) :
    AccessFrame s { s with inPos := ip, out := o, ioDraws := ds } where
  writer := id
  reader := id
  input h := ⟨hin h, h.2⟩
  tree := id
  codes := id
  out := hout
  freq := rfl
  treeValid := rfl
  codesValid := rfl
  bsw := rfl
  bsr := rfl
  emitted := rfl

/-- A part that only makes accesses, after an access. -/
theorem AccessFrame.andThen {α : Type} {s t : State} {r : Res α} (h : AccessFrame s t)
    (hr : r.Meets (fun _ => AccessFrame t) (AccessFrame t)) : r.Meets (fun _ => AccessFrame s) (AccessFrame s) :=
  hr.mono (fun _ _ => h.trans) fun _ => h.trans

theorem AccessFrame.refl (s : State) : AccessFrame s s := accessFrame_update s.ioDraws And.left List.prefix_rfl

theorem IoFrame.refl (s : State) : IoFrame s s := (AccessFrame.refl s).toIoFrame

/-- An update of the writer, OUT and the draws. -/
theorem ioFrame_setWriter {s : State} {w : Writer} {o : List Byte} (ds : List IoDraw)
    (hw : WriterInv s → WriterInv { s with bsw := w }) (hout : s.out <+: o) :
    IoFrame s { s with bsw := w, out := o, ioDraws := ds } where
  writer := hw
  reader := id
  input := id
  tree := id
  codes := id
  out := hout
  freq := rfl
  treeValid := rfl
  codesValid := rfl

/-- An update of the reader. -/
theorem ioFrame_setReader {s : State} {r : Reader} (hr : ReaderInv s → ReaderInv { s with bsr := r }) :
    IoFrame s { s with bsr := r } where
  writer := id
  reader := hr
  input := id
  tree := id
  codes := id
  out := List.prefix_rfl
  freq := rfl
  treeValid := rfl
  codesValid := rfl

/-! ## Accesses -/

/-- A byte read leaves in_pos at most |IN|. -/
theorem inPos_succ_le {l : List Byte} {p : Word64} {b : Byte} (h : l[p.toNat]? = some b) :
    (p + 1#64).toNat ≤ l.length := by
  have hlt : p.toNat < l.length := (List.getElem?_eq_some_iff.mp h).1
  rw [BitVec.toNat_add]
  exact (Nat.mod_le _ _).trans hlt

theorem inRead_frame (s : State) : AccessFrame s (inRead s).2 := by
  rcases inRead_cases s with ⟨_, h⟩ | ⟨_, _, h⟩ | ⟨_, b, hb, h⟩ <;> rw [h]
  · exact accessFrame_update _ And.left List.prefix_rfl
  · exact accessFrame_update _ And.left List.prefix_rfl
  · exact accessFrame_update _ (fun _ => inPos_succ_le hb) List.prefix_rfl

theorem outWrite_frame (b : Byte) (s : State) : AccessFrame s (outWrite b s).2 := by
  rcases outWrite_cases b s with ⟨_, h⟩ | ⟨_, h⟩ <;> rw [h]
  · exact accessFrame_update _ And.left List.prefix_rfl
  · exact accessFrame_update _ And.left (List.prefix_append _ _)

theorem writeBytes_frame (bs : List Byte) (s : State) :
    (writeBytes bs s).Meets (fun _ => AccessFrame s) (AccessFrame s) := by
  induction bs generalizing s with
  | nil => exact AccessFrame.refl s
  | cons b bs ih =>
    have hw := outWrite_frame b s
    rw [writeBytes]
    rcases h : outWrite b s with ⟨d, t⟩
    rw [h] at hw
    cases d with
    | ok => exact hw.andThen (ih t)
    | ioerr => exact hw

theorem countLoop_frame (n : Nat) (f : Freq) (s : State) :
    (countLoop n f s).Meets (fun _ => AccessFrame s) (AccessFrame s) := by
  induction n generalizing f s with
  | zero => exact AccessFrame.refl s
  | succ n ih =>
    have hr := inRead_frame s
    rw [countLoop]
    rcases h : inRead s with ⟨o, t⟩
    rw [h] at hr
    cases o with
    | ioerr => exact hr
    | eof => exact hr
    | byte b =>
      simp only []
      split
      · exact hr
      · exact hr.andThen (ih _ t)

theorem readBytes_accessFrame (n : Nat) (s : State) :
    (readBytes n s).Meets (fun _ => AccessFrame s) (AccessFrame s) := by
  induction n generalizing s with
  | zero => exact AccessFrame.refl s
  | succ n ih =>
    have hr := inRead_frame s
    rw [readBytes]
    rcases h : inRead s with ⟨o, t⟩
    rw [h] at hr
    cases o with
    | ioerr => exact hr
    | eof => exact hr
    | byte b => exact (hr.andThen (ih t)).bind fun _ _ hu => hu

/-! ## The writer -/

/-- A shift adds one bit at the bottom. -/
theorem shiftIn_toNat (acc : BitVec 8) (b : Bool) : (shiftIn acc b).toNat = acc.toNat % 128 * 2 + b.toNat := by
  revert acc b; decide

/-- The closed writer meets its invariants. -/
theorem writerInv_closed {s : State} (h : s.bsw = Writer.closed) : WriterInv s := by
  unfold WriterInv
  rw [h]
  exact ⟨by decide, fun _ => ⟨rfl, rfl⟩⟩

/-- An emptied writer meets its invariants, open or not. -/
theorem writerInv_empty (s : State) (o : Bool) : WriterInv { s with bsw := { isOpen := o, acc := 0#8, n := 0#3 } } :=
  ⟨by simp, fun _ => ⟨rfl, rfl⟩⟩

/-- One more buffered bit keeps the writer invariants of an open writer with room left. -/
theorem writerInv_buffer {s : State} (b : Bool) (hopen : s.bsw.isOpen = true) (hn : s.bsw.n ≠ 7#3) (h : WriterInv s) :
    WriterInv { s with bsw := { s.bsw with acc := shiftIn s.bsw.acc b, n := s.bsw.n + 1#3 } } := by
  have hlt : s.bsw.n.toNat < 7 := by bv_omega
  have hsucc : (s.bsw.n + 1#3).toNat = s.bsw.n.toNat + 1 := by bv_omega
  refine ⟨?_, fun hc => absurd (hopen.symm.trans hc) (by decide)⟩
  have hb := b.toNat_le
  have hmod := Nat.mod_le s.bsw.acc.toNat 128
  have hacc := h.1
  show (shiftIn s.bsw.acc b).toNat < 2 ^ (s.bsw.n + 1#3).toNat
  rw [shiftIn_toNat, hsucc, pow_succ]
  omega

/-- PutBit on an open writer: after a normal end it is still open. -/
theorem putBit_frame (b : Bool) {s : State} (hopen : s.bsw.isOpen = true) :
    (putBit b s).Meets (fun _ t => IoFrame s t ∧ t.bsw.isOpen = true) (IoFrame s) := by
  by_cases hn : s.bsw.n = 7#3
  · by_cases hd : s.ioDraws.head? = some .ioerr
    · rw [putBit_lost b hn hd]
      exact ioFrame_setWriter _ (fun _ => writerInv_empty s _) List.prefix_rfl
    · rw [putBit_sent b hn hd]
      exact ⟨ioFrame_setWriter _ (fun _ => writerInv_empty s _) (List.prefix_append _ _), hopen⟩
  · rw [putBit_buffer b hn]
    exact ⟨ioFrame_setWriter _ (writerInv_buffer b hopen hn) List.prefix_rfl, hopen⟩

theorem putBits_frame (bs : List Bool) {s : State} (hopen : s.bsw.isOpen = true) :
    (putBits bs s).Meets (fun _ t => IoFrame s t ∧ t.bsw.isOpen = true) (IoFrame s) := by
  induction bs generalizing s with
  | nil => exact ⟨IoFrame.refl s, hopen⟩
  | cons b bs ih =>
    exact (putBit_frame b hopen).bind fun _ t ⟨hf, ho⟩ =>
      (ih ho).mono (fun _ _ hu => ⟨hf.trans hu.1, hu.2⟩) fun _ => hf.trans

/-! ## The reader -/

/-- What a reader's walk over bits does to an open reader on a normal end: it stays open, with the same U. -/
structure ReadFrame (s t : State) : Prop extends IoFrame s t where
  isOpen : t.bsr.isOpen = s.bsr.isOpen
  unlimited : t.bsr.unlimited = s.bsr.unlimited

theorem ReadFrame.trans {s t u : State} (h : ReadFrame s t) (k : ReadFrame t u) : ReadFrame s u :=
  { h.toIoFrame.trans k.toIoFrame with
    isOpen := k.isOpen.trans h.isOpen
    unlimited := k.unlimited.trans h.unlimited }

theorem AccessFrame.readFrame {s t : State} (h : AccessFrame s t) : ReadFrame s t :=
  { h.toIoFrame with isOpen := by rw [h.bsr], unlimited := by rw [h.bsr] }

/-- An update of an open reader that leaves `isOpen` and U as they are. -/
theorem readFrame_setReader {s : State} {r : Reader} (hopen : s.bsr.isOpen = true)
    (ho : r.isOpen = s.bsr.isOpen) (hu : r.unlimited = s.bsr.unlimited)
    (hle : s.bsr.unlimited = false → s.bsr.count.toNat ≤ s.bsr.target.toNat → r.count.toNat ≤ r.target.toNat) :
    ReadFrame s { s with bsr := r } :=
  { ioFrame_setReader fun h =>
      ⟨fun hc => absurd (hopen.symm.trans (ho.symm.trans hc)) (by decide),
        fun _ hl => hle (hu ▸ hl) (h.2 hopen (hu ▸ hl))⟩ with
    isOpen := ho
    unlimited := hu }

/-- An update of `emitted`. -/
theorem readFrame_setEmitted (s : State) (e : BitVec 40) : ReadFrame s { s with emitted := e } where
  writer := id
  reader := id
  input := id
  tree := id
  codes := id
  out := List.prefix_rfl
  freq := rfl
  treeValid := rfl
  codesValid := rfl
  isOpen := rfl
  unlimited := rfl

/-- The count of a limited reader below its target stays at most the target after one bit. -/
theorem count_succ_le {c t : Word64} (hne : c ≠ t) (hle : c.toNat ≤ t.toNat) : (c + 1#64).toNat ≤ t.toNat := by
  bv_omega

theorem endReader_frame {s : State} (hopen : s.bsr.isOpen = true) :
    (endReader s).Meets (fun _ t => ReadFrame s t ∧ t.emitted = s.emitted) (IoFrame s) :=
  ⟨readFrame_setReader hopen rfl rfl fun _ => id, rfl⟩

theorem yieldBit_frame {s : State} (hopen : s.bsr.isOpen = true)
    (hlim : s.bsr.unlimited = false → s.bsr.count ≠ s.bsr.target) :
    (yieldBit s).Meets (fun _ t => ReadFrame s t ∧ t.emitted = s.emitted) (IoFrame s) :=
  ⟨readFrame_setReader hopen rfl rfl fun hu => count_succ_le (hlim hu), rfl⟩

/-- NextBit on an open reader. -/
theorem nextBit_readFrame {s : State} (hopen : s.bsr.isOpen = true) :
    (nextBit s).Meets (fun _ t => ReadFrame s t ∧ t.emitted = s.emitted) (IoFrame s) := by
  unfold nextBit
  split
  · exact ⟨(AccessFrame.refl s).readFrame, rfl⟩
  split
  · exact endReader_frame hopen
  next hlim =>
  have hlim' : s.bsr.unlimited = false → s.bsr.count ≠ s.bsr.target := fun hu hc => hlim ⟨hu, hc⟩
  split
  · have hr := inRead_frame s
    rcases h : inRead s with ⟨o, t⟩
    rw [h] at hr
    cases o with
    | ioerr => exact hr.toIoFrame
    | eof =>
      exact (endReader_frame (hr.readFrame.isOpen.trans hopen)).mono
        (fun _ _ hu => ⟨hr.readFrame.trans hu.1, hu.2.trans hr.emitted⟩) fun _ => hr.toIoFrame.trans
    | byte b =>
      have hopen' : t.bsr.isOpen = true := hr.readFrame.isOpen.trans hopen
      have hset : ReadFrame t { t with bsr := { t.bsr with byte := b, pos := 0 } } :=
        readFrame_setReader hopen' rfl rfl fun _ => id
      have hs := hr.readFrame.trans hset
      have hy := yieldBit_frame (s := { t with bsr := { t.bsr with byte := b, pos := 0 } }) hopen'
        (by rw [hr.bsr]; exact hlim')
      exact hy.mono (fun _ _ hu => ⟨hs.trans hu.1, hu.2.trans hr.emitted⟩) fun _ => hs.toIoFrame.trans
  · exact yieldBit_frame hopen hlim'

/-- DecodeSymbol's walk on an open reader: a normal end emits one symbol. -/
theorem decodeWalk_frame (n : Nat) (cur : NodeIdx) {s : State} (hopen : s.bsr.isOpen = true) :
    (decodeWalk n cur s).Meets (fun _ t => ReadFrame s t ∧ t.emitted = s.emitted + 1#40) (IoFrame s) := by
  induction n generalizing cur s with
  | zero => exact IoFrame.refl s
  | succ n ih =>
    rw [decodeWalk]
    refine (nextBit_readFrame hopen).bind fun r t ⟨hf, he⟩ => ?_
    cases r with
    | none => exact hf.toIoFrame
    | some bit =>
      simp only []
      generalize (if bit then (nodeAt t.node cur).right else (nodeAt t.node cur).left) = nxt
      split
      · exact hf.toIoFrame
      split
      · have hw := outWrite_frame (nodeAt t.node nxt).sym t
        rcases h : outWrite (nodeAt t.node nxt).sym t with ⟨d, u⟩
        rw [h] at hw
        have hu := hf.trans hw.readFrame
        cases d with
        | ioerr => exact hu.toIoFrame
        | ok => exact ⟨hu.trans (readFrame_setEmitted u _), by rw [← he, ← hw.emitted]⟩
      · exact (ih nxt (hf.isOpen.trans hopen)).mono
          (fun _ _ hu => ⟨hf.trans hu.1, by rw [hu.2, he]⟩) fun _ => hf.toIoFrame.trans

end Sys2Proof.Machine

/-!
SUPPORT. The unit commands' rules as one table, and what each of them can do to the state (spec/40_control.md R122).
-/

namespace Sys2Proof.Machine

/-! ## The rule of each unit command -/

/-- The rule of a unit command; CTRL.ABORT and the two RUNs have none (R122). -/
def unitRule : Instr → Option (State → UnitRes)
  | .ctrlAbort | .encRun | .decRun => none
  | .ctrlRewind => some ruleCtrlRewind
  | .bswOpen => some ruleBswOpen
  | .bswPutbit imm => some (ruleBswPutbit imm)
  | .bswClose => some ruleBswClose
  | .bsrOpen u => some (ruleBsrOpen u)
  | .bsrNext => some ruleBsrNext
  | .bsrClose => some ruleBsrClose
  | .tbSetfreq sym => some (ruleTbSetfreq sym)
  | .tbGetfreq sym => some (ruleTbGetfreq sym)
  | .tbBuild => some ruleTbBuild
  | .tbInfo => some ruleTbInfo
  | .tbNode => some ruleTbNode
  | .encCount => some ruleEncCount
  | .encHeader => some ruleEncHeader
  | .encDerive => some ruleEncDerive
  | .encCodelen sym => some (ruleEncCodelen sym)
  | .encCodeword sym => some (ruleEncCodeword sym)
  | .encEmit sym => some (ruleEncEmit sym)
  | .encStep => some ruleEncStep
  | .decHeader => some ruleDecHeader
  | .decSymbol => some ruleDecSymbol

/-- A command with a rule is that rule run as a unit command. -/
theorem exec_eq_unitCommand {i : Instr} {rule : State → UnitRes} (h : unitRule i = some rule) (s : State) :
    exec i s = unitCommand rule s := by
  cases i <;> cases h <;> rfl

/-! ## What the rules leave alone -/

theorem ruleBswPutbit_keeps (imm : Byte) (s : State) : (ruleBswPutbit imm s).Keeps s := by
  unfold ruleBswPutbit
  split
  · exact (putBit_keeps _ s).bind fun _ t => Untouched.refl t
  · exact Untouched.refl s

theorem ruleBsrNext_keeps (s : State) : (ruleBsrNext s).Keeps s := by
  unfold ruleBsrNext
  split
  · exact (nextBit_keeps s).bind fun _ t => Untouched.refl t
  · exact Untouched.refl s

theorem ruleBsrClose_keeps (s : State) : (ruleBsrClose s).Keeps s := by
  unfold ruleBsrClose
  split <;> exact ⟨rfl, rfl, rfl, rfl, rfl, rfl, rfl, rfl⟩

theorem ruleEncEmit_keeps (sym : Byte) (s : State) : (ruleEncEmit sym s).Keeps s := by
  unfold ruleEncEmit
  split
  · exact Untouched.refl s
  split
  · exact Untouched.refl s
  split
  · exact Untouched.refl s
  exact (putBits_keeps _ s).bind fun _ t => Untouched.refl t

/-- The end of a rule that only reads: either way with the state it began in. -/
def Res.Pure {α : Type} (s : State) (r : Res α) : Prop := r.Meets (fun _ t => t = s) fun t => t = s

theorem ruleTbInfo_pure (s : State) : (ruleTbInfo s).Pure s := by
  unfold ruleTbInfo
  split <;> rfl

theorem ruleTbNode_pure (s : State) : (ruleTbNode s).Pure s := by
  unfold ruleTbNode
  split
  · split <;> rfl
  · rfl

theorem ruleEncCodelen_pure (sym : Byte) (s : State) : (ruleEncCodelen sym s).Pure s := by
  unfold ruleEncCodelen
  split <;> rfl

theorem ruleEncCodeword_pure (sym : Byte) (s : State) : (ruleEncCodeword sym s).Pure s := by
  unfold ruleEncCodeword
  split <;> rfl

theorem Res.Pure.keeps {α : Type} {s : State} {r : Res α} (h : r.Pure s) : r.Keeps s := by
  cases r with
  | ret a t => cases h; exact Untouched.refl s
  | raise e t => cases h; exact Untouched.refl s
  | stuck f => trivial

/-- No rule touches the host's registers, IN, or what the control unit writes. -/
theorem unitRule_keeps {i : Instr} {rule : State → UnitRes} (h : unitRule i = some rule) (s : State) :
    (rule s).Keeps s :=
  match i, h with
  | .ctrlRewind, rfl => ruleCtrlRewind_keeps s
  | .bswOpen, rfl => ruleBswOpen_keeps s
  | .bswPutbit imm, rfl => ruleBswPutbit_keeps imm s
  | .bswClose, rfl => ruleBswClose_keeps s
  | .bsrOpen u, rfl => ruleBsrOpen_keeps u s
  | .bsrNext, rfl => ruleBsrNext_keeps s
  | .bsrClose, rfl => ruleBsrClose_keeps s
  | .tbSetfreq _, rfl => ⟨rfl, rfl, rfl, rfl, rfl, rfl, rfl, rfl⟩
  | .tbGetfreq _, rfl => Untouched.refl s
  | .tbBuild, rfl => ruleTbBuild_keeps s
  | .tbInfo, rfl => (ruleTbInfo_pure s).keeps
  | .tbNode, rfl => (ruleTbNode_pure s).keeps
  | .encCount, rfl => ruleEncCount_keeps s
  | .encHeader, rfl => ruleEncHeader_keeps s
  | .encDerive, rfl => ruleEncDerive_keeps s
  | .encCodelen sym, rfl => (ruleEncCodelen_pure sym s).keeps
  | .encCodeword sym, rfl => (ruleEncCodeword_pure sym s).keeps
  | .encEmit sym, rfl => ruleEncEmit_keeps sym s
  | .encStep, rfl => (encStepByte_keeps s).bind fun _ t => Untouched.refl t
  | .decHeader, rfl => ruleDecHeader_keeps s
  | .decSymbol, rfl => ruleDecSymbol_keeps s

/-! ## What the rules do to the invariants, OUT and the frequency table -/

/-- The commands that may write the frequency table (R180). -/
def WritesFreq (i : Instr) : Prop := i = .encCount ∨ i = .decHeader ∨ ∃ x, i = .tbSetfreq x

/-- What the rule of command `i` does to the state: it keeps the invariants, appends to OUT, and writes the frequency
table only where R180 lets it, clearing both valid flags (R32). -/
structure UnitFrame (i : Instr) (s t : State) : Prop extends KeepsInvs s t where
  out : s.out <+: t.out
  freq : t.freq = s.freq ∨ t.treeValid = false ∧ t.codesValid = false ∧ WritesFreq i

theorem IoFrame.unitFrame {s t : State} (i : Instr) (h : IoFrame s t) : UnitFrame i s t :=
  { h.toKeepsInvs with out := h.out, freq := .inl h.freq }

theorem Res.Pure.ioFrame {α : Type} {s : State} {r : Res α} (h : r.Pure s) :
    r.Meets (fun _ => IoFrame s) (IoFrame s) :=
  Res.Meets.mono h (fun _ _ ht => ht ▸ IoFrame.refl s) fun _ ht => ht ▸ IoFrame.refl s

/-- A rule that only makes accesses meets the I/O frame. -/
theorem Res.Meets.access {α : Type} {s : State} {r : Res α}
    (h : r.Meets (fun _ => AccessFrame s) (AccessFrame s)) : r.Meets (fun _ => IoFrame s) (IoFrame s) :=
  h.mono (fun _ _ ht => ht.toIoFrame) fun _ ht => ht.toIoFrame

/-- A rule that meets the I/O frame meets any command's. -/
theorem Res.Meets.unit {α : Type} {s : State} {r : Res α} (h : r.Meets (fun _ => IoFrame s) (IoFrame s))
    (i : Instr) : r.Meets (fun _ => UnitFrame i s) (UnitFrame i s) :=
  h.mono (fun _ _ => IoFrame.unitFrame i) fun _ => IoFrame.unitFrame i

/-- A postcondition without its second part. -/
theorem Res.Meets.left {α : Type} {r : Res α} {P Q : α → State → Prop} {E : State → Prop}
    (h : r.Meets (fun a t => P a t ∧ Q a t) E) : r.Meets P E :=
  h.mono (fun _ _ => And.left) fun _ => id

/-- A write of the frequency table keeps the invariants: both valid flags are cleared (R32, R180). -/
theorem keepsInvs_writeFreq (f : Freq) (s : State) : KeepsInvs s (writeFreq f s) where
  writer := id
  reader := id
  input := id
  tree _ h := absurd h Bool.false_ne_true
  codes _ h := absurd h Bool.false_ne_true

theorem ruleCtrlRewind_frame (s : State) : (ruleCtrlRewind s).Meets (fun _ => AccessFrame s) (AccessFrame s) :=
  accessFrame_update _ (fun _ => Nat.zero_le _) List.prefix_rfl

/-- BSW.OPEN leaves an open writer. -/
theorem ruleBswOpen_frame (s : State) :
    (ruleBswOpen s).Meets (fun _ t => IoFrame s t ∧ t.bsw.isOpen = true) (IoFrame s) := by
  unfold ruleBswOpen
  split
  · exact IoFrame.refl s
  · exact ⟨ioFrame_setWriter _ (fun _ => writerInv_empty s true) List.prefix_rfl, rfl⟩

theorem ruleBswPutbit_frame (imm : Byte) (s : State) :
    (ruleBswPutbit imm s).Meets (fun _ => IoFrame s) (IoFrame s) := by
  unfold ruleBswPutbit
  split
  next hopen => exact (putBit_frame _ hopen).bind fun _ _ ht => ht.1
  next => exact IoFrame.refl s

theorem ruleBswClose_frame (s : State) : (ruleBswClose s).Meets (fun _ => IoFrame s) (IoFrame s) := by
  have hclosed : IoFrame s { s with bsw := Writer.closed } :=
    ioFrame_setWriter _ (fun _ => writerInv_empty s false) List.prefix_rfl
  unfold ruleBswClose
  split
  · split
    · exact hclosed
    · have hw := outWrite_frame (paddedByte s.bsw.acc s.bsw.n) { s with bsw := Writer.closed }
      rcases h : outWrite (paddedByte s.bsw.acc s.bsw.n) { s with bsw := Writer.closed } with ⟨d, t⟩
      rw [h] at hw
      cases d <;> exact hclosed.trans hw.toIoFrame
  · exact IoFrame.refl s

/-- BSR.OPEN leaves the reader R161 names, and `emitted` as it is. -/
theorem ruleBsrOpen_frame (u : Bool) (s : State) :
    (ruleBsrOpen u s).Meets
      (fun _ t => IoFrame s t ∧ t.bsr = openedReader u (targetOperand s) ∧ t.emitted = s.emitted) (IoFrame s) := by
  unfold ruleBsrOpen
  split
  · exact IoFrame.refl s
  · refine ⟨ioFrame_setReader fun _ => ⟨fun hc => ?_, fun _ _ => Nat.zero_le _⟩, rfl, rfl⟩
    exact absurd hc (by simp [openedReader])

theorem ruleBsrNext_frame (s : State) : (ruleBsrNext s).Meets (fun _ => IoFrame s) (IoFrame s) := by
  unfold ruleBsrNext
  split
  next hopen => exact (nextBit_readFrame hopen).bind fun _ _ ht => ht.1.toIoFrame
  next => exact IoFrame.refl s

theorem ruleBsrClose_frame (s : State) : (ruleBsrClose s).Meets (fun _ => IoFrame s) (IoFrame s) := by
  unfold ruleBsrClose
  split
  · exact ioFrame_setReader fun _ => ⟨fun _ => rfl, fun hc => absurd hc (by simp [Reader.closed])⟩
  · exact IoFrame.refl s

theorem ruleTbSetfreq_frame (sym : Byte) (s : State) :
    (ruleTbSetfreq sym s).Meets (fun _ => UnitFrame (.tbSetfreq sym) s) (UnitFrame (.tbSetfreq sym) s) :=
  { keepsInvs_writeFreq _ s with out := List.prefix_rfl, freq := .inr ⟨rfl, rfl, .inr (.inr ⟨sym, rfl⟩)⟩ }

/-- What TB.BUILD leaves as it is, and the tree it leaves valid on a normal end. -/
theorem ruleTbBuild_frame (s : State) :
    (ruleTbBuild s).Meets
      (fun _ t => UnitFrame .tbBuild s t ∧ t.treeValid = true ∧ t.freq = s.freq ∧ t.bsw = s.bsw ∧
        t.bsr = s.bsr ∧ t.emitted = s.emitted)
      (UnitFrame .tbBuild s) := by
  unfold ruleTbBuild
  split
  next =>
    exact { writer := id, reader := id, input := id, tree := fun _ h => absurd h Bool.false_ne_true
            codes := fun _ h => absurd h Bool.false_ne_true, out := List.prefix_rfl, freq := .inl rfl }
  next b hb =>
    exact ⟨{ writer := id, reader := id, input := id, tree := fun _ _ => ⟨s.node, hb⟩
             codes := fun _ h => absurd h Bool.false_ne_true, out := List.prefix_rfl, freq := .inl rfl },
      rfl, rfl, rfl, rfl, rfl⟩

/-- What ENC.COUNT leaves as it is, beside the table it writes. -/
theorem ruleEncCount_frame (s : State) :
    (ruleEncCount s).Meets (fun _ t => UnitFrame .encCount s t ∧ t.bsw = s.bsw) (UnitFrame .encCount s) :=
  ((countLoop_frame _ _ s).mono (fun _ _ => id) fun _ ht => ht.toIoFrame.unitFrame _).bind fun f t ht =>
    ⟨{ ht.toKeepsInvs.trans (keepsInvs_writeFreq f t) with
        out := ht.out
        freq := .inr ⟨rfl, rfl, .inl rfl⟩ }, ht.bsw⟩

theorem ruleEncHeader_frame (s : State) : (ruleEncHeader s).Meets (fun _ => AccessFrame s) (AccessFrame s) :=
  (writeBytes_frame _ s).bind fun _ _ ht => ht

/-- What ENC.DERIVE leaves as it is, and the codes it leaves valid on a normal end. -/
theorem ruleEncDerive_frame (s : State) :
    (ruleEncDerive s).Meets
      (fun _ t => UnitFrame .encDerive s t ∧ t.codesValid = true ∧ t.freq = s.freq ∧ t.bsw = s.bsw)
      (UnitFrame .encDerive s) := by
  unfold ruleEncDerive
  split
  next htree =>
    split
    next => trivial
    next tb htb =>
      exact ⟨{ writer := id, reader := id, input := id, tree := id, codes := fun _ _ => ⟨htree, htb⟩
               out := List.prefix_rfl, freq := .inl rfl }, rfl, rfl, rfl⟩
  next => exact (IoFrame.refl s).unitFrame _

theorem ruleEncEmit_frame (sym : Byte) (s : State) : (ruleEncEmit sym s).Meets (fun _ => IoFrame s) (IoFrame s) := by
  unfold ruleEncEmit
  split
  · exact IoFrame.refl s
  split
  · exact IoFrame.refl s
  next hopen =>
  split
  · exact IoFrame.refl s
  exact (putBits_frame _ (by simpa using hopen)).bind fun _ _ ht => ht.1

/-- ENC.STEP leaves the writer open on a normal end. -/
theorem encStepByte_frame (s : State) :
    (encStepByte s).Meets (fun _ t => IoFrame s t ∧ t.bsw.isOpen = true) (IoFrame s) := by
  unfold encStepByte
  split
  · exact IoFrame.refl s
  split
  · exact IoFrame.refl s
  next hopen =>
  have hr := inRead_frame s
  rcases h : inRead s with ⟨o, t⟩
  rw [h] at hr
  have hopen' : t.bsw.isOpen = true := by rw [hr.bsw]; simpa using hopen
  cases o with
  | ioerr => exact hr.toIoFrame
  | eof => exact ⟨hr.toIoFrame, hopen'⟩
  | byte b =>
    simp only []
    split
    · exact hr.toIoFrame
    · exact ((putBits_frame _ hopen').mono (fun _ _ hu => ⟨hr.toIoFrame.trans hu.1, hu.2⟩)
        fun _ => hr.toIoFrame.trans).bind fun _ _ hu => hu

/-- What DEC.HEADER leaves as it is, beside the table it writes. -/
theorem ruleDecHeader_frame (s : State) :
    (ruleDecHeader s).Meets (fun _ t => UnitFrame .decHeader s t ∧ t.bsr = s.bsr ∧ t.emitted = 0#40)
      (UnitFrame .decHeader s) := by
  refine ((readBytes_accessFrame _ s).mono (fun _ _ => id) fun _ ht => ht.toIoFrame.unitFrame _).bind fun h t ht => ?_
  have hw := ht.toKeepsInvs.trans (keepsInvs_writeFreq (headerFreq h) t)
  generalize headerFreq h = f at hw ⊢
  exact ⟨{ writer := hw.writer, reader := hw.reader, input := hw.input, tree := hw.tree, codes := hw.codes
           out := ht.out, freq := .inr ⟨rfl, rfl, .inr (.inl rfl)⟩ }, ht.bsr, rfl⟩

/-- DEC.SYMBOL leaves the reader open with the same U on a normal end, and counts one symbol. -/
theorem ruleDecSymbol_frame (s : State) :
    (ruleDecSymbol s).Meets
      (fun _ t => IoFrame s t ∧ t.bsr.isOpen = true ∧ t.bsr.unlimited = s.bsr.unlimited ∧
        t.emitted = s.emitted + 1#40)
      (IoFrame s) := by
  unfold ruleDecSymbol
  split
  · exact IoFrame.refl s
  split
  · exact IoFrame.refl s
  next hopen =>
  have hopen' : s.bsr.isOpen = true := by simpa using hopen
  exact (decodeWalk_frame _ _ hopen').bind fun _ _ ⟨hf, he⟩ =>
    ⟨hf.toIoFrame, hf.isOpen.trans hopen', hf.unlimited, he⟩

theorem unitRule_frame {i : Instr} {rule : State → UnitRes} (h : unitRule i = some rule) (s : State) :
    (rule s).Meets (fun _ => UnitFrame i s) (UnitFrame i s) :=
  match i, h with
  | .ctrlRewind, rfl => (ruleCtrlRewind_frame s).access.unit _
  | .bswOpen, rfl => (ruleBswOpen_frame s).left.unit _
  | .bswPutbit imm, rfl => (ruleBswPutbit_frame imm s).unit _
  | .bswClose, rfl => (ruleBswClose_frame s).unit _
  | .bsrOpen u, rfl => (ruleBsrOpen_frame u s).left.unit _
  | .bsrNext, rfl => (ruleBsrNext_frame s).unit _
  | .bsrClose, rfl => (ruleBsrClose_frame s).unit _
  | .tbSetfreq sym, rfl => ruleTbSetfreq_frame sym s
  | .tbGetfreq _, rfl => (IoFrame.refl s).unitFrame _
  | .tbBuild, rfl => (ruleTbBuild_frame s).left
  | .tbInfo, rfl => (ruleTbInfo_pure s).ioFrame.unit _
  | .tbNode, rfl => (ruleTbNode_pure s).ioFrame.unit _
  | .encCount, rfl => (ruleEncCount_frame s).left
  | .encHeader, rfl => (ruleEncHeader_frame s).access.unit _
  | .encDerive, rfl => (ruleEncDerive_frame s).left
  | .encCodelen sym, rfl => (ruleEncCodelen_pure sym s).ioFrame.unit _
  | .encCodeword sym, rfl => (ruleEncCodeword_pure sym s).ioFrame.unit _
  | .encEmit sym, rfl => (ruleEncEmit_frame sym s).unit _
  | .encStep, rfl => ((encStepByte_frame s).left.unit _).bind fun _ _ ht => ht
  | .decHeader, rfl => (ruleDecHeader_frame s).left
  | .decSymbol, rfl => (ruleDecSymbol_frame s).left.unit _

end Sys2Proof.Machine

/-!
SUPPORT. Everything a submitted command, a core step and a step of the machine can do to the state
(spec/40_control.md R120 to R128).
-/

namespace Sys2Proof.Machine

/-! ## The end of a command -/

/-- An update of what the control unit alone writes: RESULT, DONE, CODE and `seq` (R23 to R25). -/
def ControlUpdate (u t : State) : Prop :=
  ∃ r d c q, t = { u with result := r, done := d, code := c, seq := q }

theorem startCommand_control (s : State) : ControlUpdate s (startCommand s) := ⟨s.result, false, .ok, s.seq, rfl⟩

theorem endOk_control (v : Option Word64) (s : State) : ControlUpdate s (endOk v s) :=
  ⟨v.getD s.result, true, .ok, s.seq, rfl⟩

theorem endError_control (e : StatusCode) (s : State) : ControlUpdate s (endError e s) :=
  ⟨s.result, true, e, .idle, rfl⟩

theorem finishRun_control (r : Word64) (s : State) : ControlUpdate s (finishRun r s) := ⟨r, true, .ok, .idle, rfl⟩

theorem goTo_control (q : Seq) (s : State) : ControlUpdate s (goTo q s) := ⟨s.result, s.done, s.code, q, rfl⟩

/-- Abort ends whatever runs, and writes nothing but the control unit's elements (R125). -/
theorem abort_control (s : State) : ControlUpdate s (abort s) ∧ (abort s).seq = .idle := by
  unfold abort
  split
  next => exact ⟨endError_control _ s, rfl⟩
  next h => exact ⟨⟨s.result, true, .ok, s.seq, rfl⟩, by simpa [State.busy] using h⟩

theorem illegalWord_control (s : State) : ControlUpdate s (illegalWord s) ∧ (illegalWord s).seq = .idle := by
  unfold illegalWord
  split <;> exact ⟨endError_control _ s, rfl⟩

theorem afterEHeader_control (s : State) : ControlUpdate s (afterEHeader s) := by
  unfold afterEHeader
  split
  · exact finishRun_control _ s
  · exact goTo_control _ s

theorem afterEStep_control (r : Option Byte) (s : State) : ControlUpdate s (afterEStep r s) := by
  cases r <;> exact goTo_control _ s

theorem afterDHeader_control (s : State) : ControlUpdate s (afterDHeader s) := by
  unfold afterDHeader
  split
  · exact finishRun_control _ s
  · exact goTo_control _ s

theorem afterDSymbol_control (s : State) : ControlUpdate s (afterDSymbol s) := by
  unfold afterDSymbol
  split
  · exact finishRun_control _ s
  · exact goTo_control _ s

theorem ControlUpdate.keepsInvs {u t : State} (h : ControlUpdate u t) : KeepsInvs u t := by
  obtain ⟨r, d, c, q, rfl⟩ := h
  exact ⟨id, id, id, id, id⟩

/-- What a whole command or core step of command `i` does: the frame of its rule, and the host's registers, IN and the
pending moves stay. -/
structure CommandFrame (i : Instr) (s t : State) : Prop extends UnitFrame i s t where
  cmd : t.cmd = s.cmd
  arg : t.arg = s.arg
  input_eq : t.input = s.input
  hostMoves : t.hostMoves = s.hostMoves

/-- A control update alone fits any command. -/
theorem ControlUpdate.commandFrame {s t : State} (i : Instr) (h : ControlUpdate s t) : CommandFrame i s t := by
  have hk := h.keepsInvs
  obtain ⟨r, d, c, q, rfl⟩ := h
  exact { hk with out := List.prefix_rfl, freq := .inl rfl, cmd := rfl, arg := rfl, input_eq := rfl, hostMoves := rfl }

/-- A rule's end between two control updates. -/
theorem UnitFrame.commandFrame {i : Instr} {s s0 u t : State} (hu : UnitFrame i s0 u) (hk : Untouched s0 u)
    (h0 : ControlUpdate s s0) (ht : ControlUpdate u t) : CommandFrame i s t := by
  have hinvs := (h0.keepsInvs.trans hu.toKeepsInvs).trans ht.keepsInvs
  obtain ⟨_, _, _, _, rfl⟩ := h0
  obtain ⟨_, _, _, _, rfl⟩ := ht
  exact { hinvs with out := hu.out, freq := hu.freq, cmd := hk.cmd, arg := hk.arg, input_eq := hk.input
                     hostMoves := hk.hostMoves }

/-! ## Submitted commands -/

theorem unitRule_eq_none {i : Instr} (h : unitRule i = none) : i = .ctrlAbort ∨ i = .encRun ∨ i = .decRun := by
  cases i <;> simp_all [unitRule]

/-- The acceptance of a RUN: command `i` starts the sequencer at `q` (R123). -/
def Accepts (i : Instr) (q : Seq) : Prop := i = .encRun ∧ q = .eCount ∨ i = .decRun ∧ q = .dHeader

/-- Everything a RUN command can do (R121, R123). -/
theorem runCommand_cases {q : Seq} {s t : State} (h : runCommand q s = .next t) :
    (s.seq ≠ .idle ∧ t = endError .protocolError s) ∨ (s.seq = .idle ∧ t = acceptRun q (startCommand s)) := by
  unfold runCommand at h
  split at h
  next hb => exact .inl ⟨busy_eq_true.mp hb, (Host.Outcome.next.inj h).symm⟩
  next hb => exact .inr ⟨busy_eq_false.mp (by simpa using hb), (Host.Outcome.next.inj h).symm⟩

/-- A RUN command: accepted, or refused within the frame of any command. -/
theorem runCommand_frame {i : Instr} {q : Seq} {s t : State} (hi : Accepts i q) (h : runCommand q s = .next t) :
    (∃ q, Accepts i q ∧ t = acceptRun q (startCommand s)) ∨ (CommandFrame i s t ∧ t.seq = .idle) := by
  rcases runCommand_cases h with ⟨_, rfl⟩ | ⟨_, rfl⟩
  · exact .inr ⟨(endError_control _ s).commandFrame i, rfl⟩
  · exact .inl ⟨q, hi, rfl⟩

/-- A unit command from start to end; it leaves the block idle (R120 to R122). -/
theorem unitCommand_frame {i : Instr} {rule : State → UnitRes} {s t : State} (hrule : unitRule i = some rule)
    (h : unitCommand rule s = .next t) : CommandFrame i s t ∧ t.seq = .idle := by
  have hf := unitRule_frame hrule (startCommand s)
  have hk := unitRule_keeps hrule (startCommand s)
  rcases unitCommand_cases h with ⟨_, rfl⟩ | ⟨hs, v, u, hr, rfl⟩ | ⟨_, e, u, hr, rfl⟩
  · exact ⟨(endError_control _ s).commandFrame i, rfl⟩
  · exact ⟨(hf.of_ret hr).commandFrame (hk.of_ret hr) (startCommand_control s) (endOk_control v u),
      (hk.of_ret hr).seq.trans hs⟩
  · exact ⟨(hf.of_raise hr).commandFrame (hk.of_raise hr) (startCommand_control s) (endError_control e u), rfl⟩

/-- Everything a submitted command can do: accept a RUN, or end idle within its own frame. -/
theorem exec_cases {i : Instr} {s t : State} (h : exec i s = .next t) :
    (∃ q, Accepts i q ∧ t = acceptRun q (startCommand s)) ∨ (CommandFrame i s t ∧ t.seq = .idle) := by
  cases hrule : unitRule i with
  | some rule =>
    rw [exec_eq_unitCommand hrule] at h
    exact .inr (unitCommand_frame hrule h)
  | none =>
    rcases unitRule_eq_none hrule with rfl | rfl | rfl
    · cases h
      exact .inr ⟨(abort_control s).1.commandFrame _, (abort_control s).2⟩
    · exact runCommand_frame (.inl ⟨rfl, rfl⟩) h
    · exact runCommand_frame (.inr ⟨rfl, rfl⟩) h

/-! ## Core steps -/

/-- A core step whose sub-command is command `i`'s rule, as far as the rule's frame says. -/
theorem afterSub_frame {α : Type} {i : Instr} {s t : State} {r : Res α} {k : α → State → State}
    (h : afterSub r k = .next t) (hf : r.Meets (fun _ => UnitFrame i s) (UnitFrame i s)) (hk : r.Keeps s)
    (hc : ∀ a u, ControlUpdate u (k a u)) : CommandFrame i s t := by
  have hs : ControlUpdate s s := ⟨s.result, s.done, s.code, s.seq, rfl⟩
  rcases afterSub_cases h with ⟨a, u, hr, rfl⟩ | ⟨e, u, hr, rfl⟩
  · exact (hf.of_ret hr).commandFrame (hk.of_ret hr) hs (hc a u)
  · exact (hf.of_raise hr).commandFrame (hk.of_raise hr) hs (endError_control e u)

/-- A core step whose sub-command has the rule of the unit command `i`. -/
theorem afterSub_unitRule {i : Instr} {rule : State → UnitRes} {s t : State} {k : Option Word64 → State → State}
    (hi : unitRule i = some rule) (h : afterSub (rule s) k = .next t) (hc : ∀ a u, ControlUpdate u (k a u)) :
    CommandFrame i s t :=
  afterSub_frame h (unitRule_frame hi s) (unitRule_keeps hi s) hc

/-- Everything a core step can do: nothing while idle, else stay within the frame of its label's sub-command (R124). -/
theorem coreStep_cases {s t : State} (h : coreStep s = .next t) :
    (s.seq = .idle ∧ t = s) ∨ ∃ i, subCommand s.seq = some i ∧ CommandFrame i s t := by
  cases hq : s.seq <;> simp only [coreStep, hq] at h
  case idle => exact .inl ⟨rfl, (Host.Outcome.next.inj h).symm⟩
  case eCount => exact .inr ⟨.encCount, rfl, afterSub_unitRule rfl h fun _ => goTo_control _⟩
  case eHeader => exact .inr ⟨.encHeader, rfl, afterSub_unitRule rfl h fun _ => afterEHeader_control⟩
  case eBuild => exact .inr ⟨.tbBuild, rfl, afterSub_unitRule rfl h fun _ => goTo_control _⟩
  case eDerive => exact .inr ⟨.encDerive, rfl, afterSub_unitRule rfl h fun _ => goTo_control _⟩
  case eRewind => exact .inr ⟨.ctrlRewind, rfl, afterSub_unitRule rfl h fun _ => goTo_control _⟩
  case eOpen => exact .inr ⟨.bswOpen, rfl, afterSub_unitRule rfl h fun _ => goTo_control _⟩
  case eStep =>
    have hf := (encStepByte_frame s).left.unit .encStep
    exact .inr ⟨.encStep, rfl, afterSub_frame h hf (encStepByte_keeps s) afterEStep_control⟩
  case eClose => exact .inr ⟨.bswClose, rfl, afterSub_unitRule rfl h fun _ u => finishRun_control _ u⟩
  case dHeader => exact .inr ⟨.decHeader, rfl, afterSub_unitRule rfl h fun _ => afterDHeader_control⟩
  case dBuild => exact .inr ⟨.tbBuild, rfl, afterSub_unitRule rfl h fun _ => goTo_control _⟩
  case dOpen => exact .inr ⟨.bsrOpen true, rfl, afterSub_unitRule rfl h fun _ => goTo_control _⟩
  case dSymbol => exact .inr ⟨.decSymbol, rfl, afterSub_unitRule rfl h fun _ => afterDSymbol_control⟩

/-! ## Steps of the machine -/

/-- An update of what the host alone writes and no invariant speaks of. -/
theorem keepsInvs_hostUpdate (s : State) (c : CmdWord) (a : Word64) (ms : List HostMove) :
    KeepsInvs s { s with cmd := c, arg := a, hostMoves := ms } := ⟨id, id, id, id, id⟩

theorem acceptRun_keepsInvs (q : Seq) (s : State) : KeepsInvs s (acceptRun q s) where
  writer _ := writerInv_closed rfl
  reader _ := ⟨fun _ => rfl, fun h => absurd h (by simp [Reader.closed])⟩
  input h := ⟨Nat.zero_le _, h.2⟩
  tree := id
  codes := id

theorem exec_keepsInvs {i : Instr} {s t : State} (h : exec i s = .next t) : KeepsInvs s t := by
  rcases exec_cases h with ⟨q, _, rfl⟩ | ⟨hf, _⟩
  · exact (startCommand_control s).keepsInvs.trans (acceptRun_keepsInvs q _)
  · exact hf.toKeepsInvs

theorem coreStep_keepsInvs {s t : State} (h : coreStep s = .next t) : KeepsInvs s t := by
  rcases coreStep_cases h with ⟨_, rfl⟩ | ⟨_, _, hf⟩
  · exact KeepsInvs.refl t
  · exact hf.toKeepsInvs

/-- Everything a submitted word can do: its command's effect, or the record of an illegal word (R96, R120). -/
theorem submitWord_cases {w : CmdWord} {s t : State} (h : submitWord w s = .next t) :
    (∃ i, exec i { s with cmd := w } = .next t) ∨ t = illegalWord { s with cmd := w } := by
  unfold submitWord at h
  split at h
  next i _ => exact .inl ⟨i, h⟩
  next => exact .inr (Host.Outcome.next.inj h).symm

/-- LOAD_INPUT that gives a next state: the block was idle, and IN is at most IN_LEN_MAX long (R127). -/
theorem loadInput_eq_next {bytes : List Byte} {s t : State} (h : loadInput bytes s = .next t) :
    s.seq = .idle ∧ bytes.length ≤ Config.inLenMax ∧ t = { s with input := bytes, inPos := 0#64 } := by
  unfold loadInput at h
  split at h
  next => cases h
  next hb =>
    split at h
    next hl => exact ⟨by simpa [State.busy] using hb, hl, (Host.Outcome.next.inj h).symm⟩
    next => cases h

theorem hardReset_keepsInvs (s : State) : KeepsInvs s (hardReset s) where
  writer _ := writerInv_closed rfl
  reader _ := ⟨fun _ => rfl, fun h => absurd h (by simp [hardReset, State.reset, Reader.closed])⟩
  input h := ⟨Nat.zero_le _, h.2⟩
  tree _ h := absurd h Bool.false_ne_true
  codes _ h := absurd h Bool.false_ne_true

theorem hostStep_keepsInvs {m : HostMove} {s t : State} (h : hostStep m s = .next t) : KeepsInvs s t := by
  cases m with
  | yield => exact coreStep_keepsInvs h
  | writeCmd w =>
    refine (keepsInvs_hostUpdate s w s.arg s.hostMoves).trans ?_
    rcases submitWord_cases h with ⟨i, he⟩ | rfl
    · exact exec_keepsInvs he
    · exact (illegalWord_control _).1.keepsInvs
  | writeArg v => cases h; exact keepsInvs_hostUpdate s s.cmd v s.hostMoves
  | loadInput bytes =>
    obtain ⟨_, hl, rfl⟩ := loadInput_eq_next h
    exact { writer := id, reader := id, input := fun _ => ⟨Nat.zero_le _, hl⟩, tree := id, codes := id }
  | reset => cases h; exact hardReset_keepsInvs s
  | writeResult | writeStatus | writeUnmapped | readAt | readOut => cases h; exact KeepsInvs.refl s

theorem step_keepsInvs {s t : State} (h : step s = .next t) : KeepsInvs s t := by
  cases hm : s.hostMoves with
  | nil => exact coreStep_keepsInvs (step_silent hm ▸ h)
  | cons m rest =>
    exact (keepsInvs_hostUpdate s s.cmd s.arg rest).trans (hostStep_keepsInvs (step_move hm ▸ h))

end Sys2Proof.Machine

/-!
SUPPORT. What a RUN in progress guarantees at each label (spec/40_control.md R123; 44_huffman_encoder.md R221;
45_huffman_decoder.md R254): each core step leaves the facts of the label it goes to.
-/

namespace Sys2Proof.Machine

/-! ## Counting the input -/

/-- One more occurrence of `b`, below the largest count. -/
theorem freqAt_count_succ (f : Freq) {b : Byte} (hb : freqAt f b ≠ BitVec.allOnes 32) (x : Byte) :
    (freqAt (setFreq f b (freqAt f b + 1#32)) x).toNat = (freqAt f x).toNat + if b = x then 1 else 0 := by
  by_cases hx : b = x
  · subst hx
    have hne : (freqAt f b).toNat ≠ 2 ^ 32 - 1 := fun h =>
      hb (BitVec.eq_of_toNat_eq (by rw [h, BitVec.toNat_allOnes]))
    have hlt := (freqAt f b).isLt
    rw [freqAt_setFreq_same, BitVec.toNat_add, if_pos rfl]
    exact Nat.mod_eq_of_lt (by simp only [BitVec.toNat_ofNat]; omega)
  · rw [freqAt_setFreq_other f _ (Ne.symm hx), if_neg hx, Nat.add_zero]

/-- The unread bytes, when one is left: it, then those after it. -/
theorem unread_eq_cons {s : State} {b : Byte} (hin : InputInv s) (hb : s.input[s.inPos.toNat]? = some b)
    (ds : List IoDraw) : s.unread = b :: State.unread { s with ioDraws := ds, inPos := s.inPos + 1#64 } := by
  obtain ⟨hlt, hget⟩ := List.getElem?_eq_some_iff.mp hb
  have hmax : s.input.length ≤ 2 ^ 64 - 1 := hin.2
  have hpos : (s.inPos + 1#64).toNat = s.inPos.toNat + 1 := by
    rw [BitVec.toNat_add]; exact Nat.mod_eq_of_lt (by simp only [BitVec.toNat_ofNat]; omega)
  simp only [State.unread, hpos]
  rw [← hget]
  exact (List.getElem_cons_drop hlt).symm

/-- ENC.COUNT's loop adds to each count how often its byte occurs in the unread input (R211). -/
theorem countLoop_counts (n : Nat) {f f' : Freq} {s t : State} (hin : InputInv s) (hn : s.unread.length < n)
    (h : countLoop n f s = .ret f' t) (x : Byte) :
    (freqAt f' x).toNat = (freqAt f x).toNat + s.unread.count x := by
  induction n generalizing f s with
  | zero => exact absurd hn (Nat.not_lt_zero _)
  | succ n ih =>
    rw [countLoop] at h
    rcases inRead_cases s with ⟨_, hr⟩ | ⟨_, hend, hr⟩ | ⟨_, b, hb, hr⟩ <;> rw [hr] at h
    · cases h
    · cases h
      have : s.unread = [] := List.drop_eq_nil_of_le (List.getElem?_eq_none_iff.mp hend)
      simp [this]
    · simp only [] at h
      split at h
      · cases h
      next hmax =>
      have hcons := unread_eq_cons hin hb s.ioDraws.tail
      rw [hcons] at hn ⊢
      have hrest := ih (s := { s with ioDraws := s.ioDraws.tail, inPos := s.inPos + 1#64 })
        ⟨inPos_succ_le hb, hin.2⟩ (by simpa using hn) h
      rw [hrest, freqAt_count_succ f hmax, List.count_cons]
      simp only [beq_iff_eq]
      omega

/-- ENC.COUNT from the start of IN counts all of it (R211). -/
theorem ruleEncCount_counts {s t : State} {v : Option Word64} (hin : InputInv s) (hpos : s.inPos = 0#64)
    (h : ruleEncCount s = .ret v t) : CountsOf t.freq s.input := by
  obtain ⟨f, u, hloop, hret⟩ := Res.bind_eq_ret h
  cases hret
  intro x
  have hunread : s.unread = s.input := by simp [State.unread, hpos]
  have hlen : s.unread.length < s.remaining + 1 := by simp [State.unread, State.remaining]
  rw [writeFreq_freq, countLoop_counts _ hin hlen hloop x, hunread]
  simp [freqAt]

/-- The total of 256 counts of 32 bits fits `emitted` (R33, R37). -/
theorem total_lt (f : Freq) : total f < 2 ^ 40 := by
  have h := List.sum_le_card_nsmul (f.toList.map BitVec.toNat) (2 ^ 32 - 1) fun x hx => by
    obtain ⟨c, _, rfl⟩ := List.mem_map.mp hx
    have := c.isLt
    omega
  rw [List.length_map, Vector.length_toList, smul_eq_mul] at h
  unfold total
  omega

/-! ## The labels -/

theorem runInv_of_idle {t : State} (h : t.seq = .idle) : RunInv t :=
  ⟨fun hne => absurd h hne, by rw [PhaseInv, h]; trivial⟩

/-- A core step that goes on to a label: DONE and CODE are still those of a RUN in progress. -/
theorem runInv_goTo {s u : State} {q : Seq} (hrun : s.done = false ∧ s.code = .ok) (hu : Untouched s u)
    (hp : PhaseInv (goTo q u)) : RunInv (goTo q u) :=
  ⟨fun _ => ⟨hu.done.trans hrun.1, hu.code.trans hrun.2⟩, hp⟩

/-- A core step that ends with an error leaves the block idle; the rest is what its normal end does. -/
theorem runInv_afterSub {α : Type} {r : Res α} {k : α → State → State} {t : State} (h : afterSub r k = .next t)
    (hk : ∀ a u, r = .ret a u → RunInv (k a u)) : RunInv t := by
  rcases afterSub_cases h with ⟨a, u, hr, rfl⟩ | ⟨e, u, hr, rfl⟩
  · exact hk a u hr
  · exact runInv_of_idle rfl

/-- The counts are still those of IN. -/
theorem countsOf_congr {s u : State} (h : CountsOf s.freq s.input) (hf : u.freq = s.freq)
    (hi : u.input = s.input) : CountsOf u.freq u.input := by
  rw [hf, hi]; exact h

section Labels

variable {s u : State} {v : Option Word64} (hrun : s.done = false ∧ s.code = .ok)
include hrun

theorem runInv_eCount (hin : InputInv s) (hpos : s.inPos = 0#64) (hbsw : s.bsw = Writer.closed)
    (hr : ruleEncCount s = .ret v u) : RunInv (goTo .eHeader u) := by
  have hu := (ruleEncCount_keeps s).of_ret hr
  have hw := ((ruleEncCount_frame s).of_ret hr).2
  have hcounts : CountsOf u.freq u.input := hu.input ▸ ruleEncCount_counts hin hpos hr
  exact runInv_goTo hrun hu ⟨hcounts, hw.trans hbsw⟩

theorem runInv_eHeader (hcounts : CountsOf s.freq s.input) (hbsw : s.bsw = Writer.closed)
    (hr : ruleEncHeader s = .ret v u) : RunInv (afterEHeader u) := by
  have hu := (ruleEncHeader_keeps s).of_ret hr
  have hf := (ruleEncHeader_frame s).of_ret hr
  unfold afterEHeader
  split
  next => exact runInv_of_idle rfl
  next ht => exact runInv_goTo hrun hu ⟨countsOf_congr hcounts hf.freq hu.input, hf.bsw.trans hbsw, ht⟩

theorem runInv_eBuild (hcounts : CountsOf s.freq s.input) (hbsw : s.bsw = Writer.closed)
    (hr : ruleTbBuild s = .ret v u) : RunInv (goTo .eDerive u) := by
  have hu := (ruleTbBuild_keeps s).of_ret hr
  obtain ⟨_, htree, hfreq, hw, _⟩ := (ruleTbBuild_frame s).of_ret hr
  exact runInv_goTo hrun hu ⟨countsOf_congr hcounts hfreq hu.input, hw.trans hbsw, htree⟩

theorem runInv_eDerive (hcounts : CountsOf s.freq s.input) (hbsw : s.bsw = Writer.closed)
    (hr : ruleEncDerive s = .ret v u) : RunInv (goTo .eRewind u) := by
  have hu := (ruleEncDerive_keeps s).of_ret hr
  obtain ⟨_, hcodes, hfreq, hw⟩ := (ruleEncDerive_frame s).of_ret hr
  exact runInv_goTo hrun hu ⟨countsOf_congr hcounts hfreq hu.input, hw.trans hbsw, hcodes⟩

theorem runInv_eRewind (hcounts : CountsOf s.freq s.input) (hbsw : s.bsw = Writer.closed)
    (hcodes : s.codesValid = true) (hr : ruleCtrlRewind s = .ret v u) : RunInv (goTo .eOpen u) := by
  have hu := (ruleCtrlRewind_keeps s).of_ret hr
  have hf := (ruleCtrlRewind_frame s).of_ret hr
  exact runInv_goTo hrun hu ⟨countsOf_congr hcounts hf.freq hu.input, hf.bsw.trans hbsw, hf.codesValid.trans hcodes⟩

theorem runInv_eOpen (hcounts : CountsOf s.freq s.input) (hcodes : s.codesValid = true)
    (hr : ruleBswOpen s = .ret v u) : RunInv (goTo .eStep u) := by
  have hu := (ruleBswOpen_keeps s).of_ret hr
  obtain ⟨hf, hopen⟩ := (ruleBswOpen_frame s).of_ret hr
  exact runInv_goTo hrun hu ⟨countsOf_congr hcounts hf.freq hu.input, hopen, hf.codesValid.trans hcodes⟩

theorem runInv_eStep {r : Option Byte} (hcounts : CountsOf s.freq s.input) (hcodes : s.codesValid = true)
    (hr : encStepByte s = .ret r u) : RunInv (afterEStep r u) := by
  have hu := (encStepByte_keeps s).of_ret hr
  obtain ⟨hf, hopen⟩ := (encStepByte_frame s).of_ret hr
  cases r with
  | none => exact runInv_goTo hrun hu hopen
  | some b => exact runInv_goTo hrun hu ⟨countsOf_congr hcounts hf.freq hu.input, hopen, hf.codesValid.trans hcodes⟩

theorem runInv_dHeader (hbsr : s.bsr = Reader.closed) (hr : ruleDecHeader s = .ret v u) :
    RunInv (afterDHeader u) := by
  have hu := (ruleDecHeader_keeps s).of_ret hr
  obtain ⟨_, hb, hemitted⟩ := (ruleDecHeader_frame s).of_ret hr
  unfold afterDHeader
  split
  next => exact runInv_of_idle rfl
  next ht => exact runInv_goTo hrun hu ⟨hb.trans hbsr, ht, hemitted⟩

theorem runInv_dBuild (hbsr : s.bsr = Reader.closed) (htotal : total s.freq ≠ 0) (hemitted : s.emitted = 0#40)
    (hr : ruleTbBuild s = .ret v u) : RunInv (goTo .dOpen u) := by
  have hu := (ruleTbBuild_keeps s).of_ret hr
  obtain ⟨_, htree, hfreq, _, hb, he⟩ := (ruleTbBuild_frame s).of_ret hr
  have ht : total u.freq ≠ 0 := hfreq ▸ htotal
  exact runInv_goTo hrun hu ⟨hb.trans hbsr, ht, he.trans hemitted, htree⟩

theorem runInv_dOpen (htotal : total s.freq ≠ 0) (hemitted : s.emitted = 0#40) (htree : s.treeValid = true)
    (hr : ruleBsrOpen true s = .ret v u) : RunInv (goTo .dSymbol u) := by
  have hu := (ruleBsrOpen_keeps true s).of_ret hr
  obtain ⟨hf, hb, he⟩ := (ruleBsrOpen_frame true s).of_ret hr
  have hlt : u.emitted.toNat < total u.freq := by
    rw [he, hemitted, hf.freq]; exact Nat.pos_of_ne_zero htotal
  exact runInv_goTo hrun hu ⟨congrArg Reader.isOpen hb, congrArg Reader.unlimited hb, hf.treeValid.trans htree, hlt⟩

theorem runInv_dSymbol (hunl : s.bsr.unlimited = true) (htree : s.treeValid = true)
    (hlt : s.emitted.toNat < total s.freq) (hr : ruleDecSymbol s = .ret v u) : RunInv (afterDSymbol u) := by
  have hu := (ruleDecSymbol_keeps s).of_ret hr
  obtain ⟨hf, hopen, hunl', he⟩ := (ruleDecSymbol_frame s).of_ret hr
  have hemitted : u.emitted.toNat = s.emitted.toNat + 1 := by
    have hbound := total_lt s.freq
    rw [he, BitVec.toNat_add]
    exact Nat.mod_eq_of_lt (by simp only [BitVec.toNat_ofNat]; omega)
  unfold afterDSymbol
  split
  next => exact runInv_of_idle rfl
  next hne =>
    have hlt' : u.emitted.toNat < total u.freq := by rw [hf.freq] at hne ⊢; omega
    exact runInv_goTo hrun hu ⟨hopen, hunl'.trans hunl, hf.treeValid.trans htree, hlt'⟩

end Labels

/-- Every core step leaves the facts of the label it goes to. -/
theorem coreStep_runInv {s t : State} (hs : Inv s) (h : coreStep s = .next t) : RunInv t := by
  obtain ⟨hbusy, hp⟩ := hs.run
  by_cases hidle : s.seq = .idle
  · simp only [coreStep, hidle] at h
    cases h
    exact hs.run
  have hrun := hbusy hidle
  cases hq : s.seq <;> simp only [coreStep, PhaseInv, hq] at h hp
  case idle => exact absurd hq hidle
  all_goals refine runInv_afterSub h fun a u hr => ?_
  case eCount =>
    obtain ⟨hpos, hbsw⟩ := hp
    exact runInv_eCount hrun hs.input hpos hbsw hr
  case eHeader =>
    obtain ⟨hcounts, hbsw⟩ := hp
    exact runInv_eHeader hrun hcounts hbsw hr
  case eBuild =>
    obtain ⟨hcounts, hbsw, _⟩ := hp
    exact runInv_eBuild hrun hcounts hbsw hr
  case eDerive =>
    obtain ⟨hcounts, hbsw, _⟩ := hp
    exact runInv_eDerive hrun hcounts hbsw hr
  case eRewind =>
    obtain ⟨hcounts, hbsw, hcodes⟩ := hp
    exact runInv_eRewind hrun hcounts hbsw hcodes hr
  case eOpen =>
    obtain ⟨hcounts, _, hcodes⟩ := hp
    exact runInv_eOpen hrun hcounts hcodes hr
  case eStep =>
    obtain ⟨hcounts, _, hcodes⟩ := hp
    exact runInv_eStep hrun hcounts hcodes hr
  case eClose => exact runInv_of_idle rfl
  case dHeader => exact runInv_dHeader hrun hp hr
  case dBuild =>
    obtain ⟨hbsr, htotal, hemitted⟩ := hp
    exact runInv_dBuild hrun hbsr htotal hemitted hr
  case dOpen =>
    obtain ⟨_, htotal, hemitted, htree⟩ := hp
    exact runInv_dOpen hrun htotal hemitted htree hr
  case dSymbol =>
    obtain ⟨_, hunl, htree, hlt⟩ := hp
    exact runInv_dSymbol hrun hunl htree hlt hr

/-! ## Commands and steps -/

/-- A RUN just accepted is at its first label with that label's facts (R123). -/
theorem acceptRun_runInv {i : Instr} {q : Seq} (h : Accepts i q) (s : State) :
    RunInv (acceptRun q (startCommand s)) := by
  obtain ⟨_, rfl⟩ | ⟨_, rfl⟩ := h
  · exact ⟨fun _ => ⟨rfl, rfl⟩, rfl, rfl⟩
  · exact ⟨fun _ => ⟨rfl, rfl⟩, rfl⟩

theorem exec_runInv {i : Instr} {s t : State} (h : exec i s = .next t) : RunInv t := by
  rcases exec_cases h with ⟨q, hq, rfl⟩ | ⟨_, hidle⟩
  · exact acceptRun_runInv hq s
  · exact runInv_of_idle hidle

/-- No invariant speaks of ARG or of the host's pending moves. -/
theorem inv_hostUpdate {s : State} (hs : Inv s) (a : Word64) (ms : List HostMove) :
    Inv { s with arg := a, hostMoves := ms } :=
  ⟨hs.writer, hs.reader, hs.input, hs.tree, hs.codes, hs.run⟩

theorem hostStep_runInv {m : HostMove} {s t : State} (hs : Inv s) (h : hostStep m s = .next t) : RunInv t := by
  cases m with
  | yield => exact coreStep_runInv hs h
  | writeCmd w =>
    rcases submitWord_cases h with ⟨i, he⟩ | rfl
    · exact exec_runInv he
    · exact runInv_of_idle (illegalWord_control _).2
  | writeArg v => cases h; exact (inv_hostUpdate hs v s.hostMoves).run
  | loadInput bytes =>
    obtain ⟨hidle, _, rfl⟩ := loadInput_eq_next h
    exact runInv_of_idle hidle
  | reset => cases h; exact runInv_of_idle rfl
  | writeResult | writeStatus | writeUnmapped | readAt | readOut => cases h; exact hs.run

theorem step_runInv {s t : State} (hs : Inv s) (h : step s = .next t) : RunInv t := by
  cases hm : s.hostMoves with
  | nil => exact coreStep_runInv hs (step_silent hm ▸ h)
  | cons m rest => exact hostStep_runInv (inv_hostUpdate hs s.arg rest) (step_move hm ▸ h)

theorem KeepsInvs.inv {s t : State} (h : KeepsInvs s t) (hs : Inv s) (hrun : RunInv t) : Inv t :=
  ⟨h.writer hs.writer, h.reader hs.reader, h.input hs.input, h.tree hs.tree, h.codes hs.codes, hrun⟩

end Sys2Proof.Machine

/-!
SUPPORT. The statements of the state's family (spec/10_state.md), each a short use of the frames and of the inversion of
`exec`, `coreStep` and `step`.
-/

namespace Sys2Proof.Machine

/-! ## STATUS -/

/-- The bits of STATUS, from bit 0 up (R24). -/
def State.statusBit (s : State) (i : Nat) : Bool :=
  if i = 0 then s.busy else if i = 1 then s.done else if i < 4 then false
  else if i < 8 then s.code.bits.getLsbD (i - 4) else if i = 8 then s.bsw.isOpen else if i = 9 then s.bsr.isOpen
  else if i = 10 then s.bsr.ended else if i = 11 then s.treeValid else if i = 12 then s.codesValid
  else if i < 16 then false else if i < 19 then s.bsw.n.getLsbD (i - 16) else false

theorem statusWord_getLsbD (s : State) {i : Nat} (hi : i < 32) : s.statusWord.getLsbD i = s.statusBit i := by
  unfold State.statusWord State.statusBit
  iterate 11 rw [BitVec.getLsbD_append]
  interval_cases i <;> simp

/-- A field of STATUS has the value whose bits stand at its place. -/
theorem statusWord_field {s : State} {start len : Nat} {v : BitVec len} (hlen : start + len ≤ 32)
    (h : ∀ i < len, s.statusBit (start + i) = v.getLsbD i) : s.statusWord.extractLsb' start len = v := by
  refine BitVec.eq_of_getLsbD_eq fun i hi => ?_
  rw [BitVec.getLsbD_extractLsb', statusWord_getLsbD s (by omega), h i hi]
  simp [hi]

/-! ## The frequency table's writers -/

/-- The labels whose sub-command may write the frequency table. -/
theorem writesFreq_subCommand {q : Seq} {i : Instr} (hq : subCommand q = some i) (hw : WritesFreq i) :
    q = .eCount ∨ q = .dHeader := by
  cases q
  case eCount => exact .inl rfl
  case dHeader => exact .inr rfl
  all_goals cases hq <;> simp [WritesFreq] at hw

/-! ## The statements -/

/-- Settles O58: the stored elements' invariants carry over, and the phase's facts hold of the new label. -/
theorem everyStepKeepsTheInvariants : Obligations.EveryStepKeepsTheInvariants :=
  fun _ _ hs h => (step_keepsInvs h).inv hs (step_runInv hs h)

/-- Settles O20: the writer's part of what every step keeps. -/
theorem writerInvariantsKept : Obligations.WriterInvariantsKept :=
  fun _ _ hs h => (step_keepsInvs h).writer hs

/-- Settles O25: the reader's part of what every step keeps. -/
theorem readerInvariantsKept : Obligations.ReaderInvariantsKept :=
  fun _ _ hs h => (step_keepsInvs h).reader hs

/-- Settles O52: the acceptance of a RUN writes none of them, and every other effect is within its command's frame. -/
theorem commandsKeepTheHostsRegisters : Obligations.CommandsKeepTheHostsRegisters := by
  constructor
  · intro i s t h
    rcases exec_cases h with ⟨q, _, rfl⟩ | ⟨hf, _⟩
    · exact ⟨rfl, rfl, rfl, rfl⟩
    · exact ⟨hf.cmd, hf.arg, hf.input_eq, hf.hostMoves⟩
  · intro s t h
    rcases coreStep_cases h with ⟨_, rfl⟩ | ⟨i, _, hf⟩
    · exact ⟨rfl, rfl, rfl, rfl⟩
    · exact ⟨hf.cmd, hf.arg, hf.input_eq, hf.hostMoves⟩

/-- Settles O55: the `freq` part of each command's frame, and the labels whose sub-command is such a command. -/
theorem freqWritesClearTheValidFlags : Obligations.FreqWritesClearTheValidFlags := by
  constructor
  · intro i s t h hne
    rcases exec_cases h with ⟨q, _, rfl⟩ | ⟨hf, _⟩
    · exact absurd rfl hne
    · exact hf.freq.resolve_left hne
  · intro s t h hne
    rcases coreStep_cases h with ⟨_, rfl⟩ | ⟨i, hi, hf⟩
    · exact absurd rfl hne
    · obtain ⟨ht, hc, hw⟩ := hf.freq.resolve_left hne
      exact ⟨ht, hc, writesFreq_subCommand hi hw⟩

/-- Settles O56: only the acceptance of a RUN leaves its command's frame, in which OUT grows at its end. -/
theorem outOnlyGrows : Obligations.OutOnlyGrows := by
  constructor
  · intro i s t henc hdec h
    rcases exec_cases h with ⟨q, ⟨hi, _⟩ | ⟨hi, _⟩, _⟩ | ⟨hf, _⟩
    · exact absurd hi henc
    · exact absurd hi hdec
    · exact hf.out
  · intro s t h
    rcases coreStep_cases h with ⟨_, rfl⟩ | ⟨i, _, hf⟩
    · exact List.prefix_rfl
    · exact hf.out

/-- Settles O12: every field is the bits that stand at its place. -/
theorem statusRegisterFields : Obligations.StatusRegisterFields := by
  refine ⟨fun s => ?_, rfl, rfl, rfl, rfl, rfl, rfl, rfl, rfl, rfl⟩
  have bit (i : Nat) (hi : i < 32) := statusWord_getLsbD s hi
  refine ⟨bit 0 (by decide), bit 1 (by decide), statusWord_field (by decide) ?_, statusWord_field (by decide) ?_,
    bit 8 (by decide), bit 9 (by decide), bit 10 (by decide), bit 11 (by decide), bit 12 (by decide),
    statusWord_field (by decide) ?_, statusWord_field (by decide) ?_, statusWord_field (by decide) ?_⟩
  all_goals intro i hi; interval_cases i <;> simp [State.statusBit]

end Sys2Proof.Machine

/-!
SUPPORT. The statement of the memory family: the container's header, read back from the bytes written
(spec/20_memory.md R65).
-/

namespace Sys2Proof.Machine

/-- Four bytes that hold a field's bits, most significant byte first, join to the field. -/
theorem headerField_fieldBytes_append (c : BitVec 32) (h : List Byte) : headerField (fieldBytes c ++ h) 0 = c := by
  change c.extractLsb' 24 8 ++ c.extractLsb' 16 8 ++ c.extractLsb' 8 8 ++ c.extractLsb' 0 8 = c
  have join (start len : Nat) :
      c.extractLsb' (start + 8) len ++ c.extractLsb' start 8 = c.extractLsb' start (len + 8) :=
    BitVec.extractLsb'_append_extractLsb'_eq_extractLsb' rfl
  rw [join 16, join 8, join 0, BitVec.extractLsb'_eq_self]

/-- A field is four bytes long, so the fields after it are those of the bytes after it. -/
theorem headerField_fieldBytes_append_succ (c : BitVec 32) (h : List Byte) (i : Nat) :
    headerField (fieldBytes c ++ h) (i + 1) = headerField h i := by
  have hlen : (fieldBytes c).length = 4 := rfl
  have skip (n : Nat) : (fieldBytes c ++ h)[n + 4]? = h[n]? := by
    rw [List.getElem?_append_right (by omega), hlen, Nat.add_sub_cancel]
  simp only [headerField, ← skip]
  rfl

/-- Entry `i` of a list of fields stands at bytes `4i` to `4i + 3` of their concatenation. -/
theorem headerField_flatMap_fieldBytes {cs : List (BitVec 32)} {i : Nat} (hi : i < cs.length) :
    headerField (cs.flatMap fieldBytes) i = cs[i] := by
  induction cs generalizing i with
  | nil => cases hi
  | cons c cs ih =>
    rw [List.flatMap_cons]
    cases i with
    | zero => exact headerField_fieldBytes_append c _
    | succ i => exact (headerField_fieldBytes_append_succ c _ i).trans (ih (Nat.lt_of_succ_lt_succ hi))

/-- Settles O45: field by field, the header holds the table's entries in symbol order. -/
theorem headerRoundTrip : Obligations.HeaderRoundTrip := by
  intro f
  ext1 i hi
  have hlen : i < f.toList.length := by rwa [Vector.length_toList]
  calc (headerFreq (headerBytes f))[i]
      = headerField (headerBytes f) i := by simp [headerFreq]
    _ = f.toList[i] := headerField_flatMap_fieldBytes hlen
    _ = f[i] := Vector.getElem_toList hlen

end Sys2Proof.Machine

/-!
SUPPORT. The statements of the encoding family about words and commands (spec/30_encoding.md R91 to R100). The centre is
`decode_eq_ok_iff`: the decoder answers a command exactly on that command's word. Around it stand the fields of a word,
the four forms of a row's constraint, and the opcode map's rows under their masks.
-/

namespace Sys2Proof

/-! ## The fields of a word (R91) -/

/-- A word is its four fields side by side. -/
theorem fields_append (w : CmdWord) :
    unitOpField w ++ rsvField w ++ BitVec.ofBool (uField w) ++ imm8Field w = w := by
  have hu : BitVec.ofBool (uField w) = w.extractLsb' 8 1 := by
    ext j hj
    obtain rfl : j = 0 := by omega
    simp [uField]
  have join (start len len' : Nat) :
      w.extractLsb' (start + len) len' ++ w.extractLsb' start len = w.extractLsb' start (len' + len) :=
    BitVec.extractLsb'_append_extractLsb'_eq_extractLsb' rfl
  rw [hu, unitOpField, rsvField, imm8Field, join 9 15, join 8 1, join 0 8, BitVec.extractLsb'_eq_self]

@[simp] theorem unitOpField_encode (i : Instr) : unitOpField (encode i) = i.unitOp := by
  unfold unitOpField encode
  rw [BitVec.extractLsb'_append_eq_of_le (by decide), BitVec.extractLsb'_append_eq_of_le (by decide)]
  exact BitVec.extractLsb'_append_eq_left

@[simp] theorem rsvField_encode (i : Instr) : rsvField (encode i) = 0#15 := by
  unfold rsvField encode
  rw [BitVec.extractLsb'_append_eq_of_le (by decide), BitVec.extractLsb'_append_eq_of_le (by decide)]
  exact BitVec.extractLsb'_append_eq_right

@[simp] theorem uField_encode (i : Instr) : uField (encode i) = i.uBit := by
  unfold uField encode
  rw [BitVec.getLsbD_append, BitVec.getLsbD_append]
  simp

@[simp] theorem imm8Field_encode (i : Instr) : imm8Field (encode i) = i.imm8 := BitVec.extractLsb'_append_eq_right

/-- A word is a command's when its four fields are. -/
theorem encode_eq_of_fields {w : CmdWord} {i : Instr} (hop : unitOpField w = i.unitOp) (hrsv : rsvField w = 0#15)
    (hu : uField w = i.uBit) (himm : imm8Field w = i.imm8) : encode i = w := by
  rw [← fields_append w, hop, hrsv, hu, himm]
  rfl

/-- A command whose operand is a symbol: IMM8 is the symbol, any of 0..255, and U is 0 (R93, R94). -/
structure SymbolCommand (mk : Byte → Instr) : Prop where
  unitOp (s : Byte) : (mk s).unitOp = (mk 0).unitOp := by intros; rfl
  uBit (s : Byte) : (mk s).uBit = false := by intros; rfl
  imm8 (s : Byte) : (mk s).imm8 = s := by intros; rfl
  wellFormed (s : Byte) : (mk s).wellFormed = true := by intros; rfl

/-- A word with the opcode of a symbol command, RSV = 0 and U = 0 is that command's, with the symbol in IMM8. -/
theorem SymbolCommand.encode_eq {mk : Byte → Instr} (hmk : SymbolCommand mk) {w : CmdWord}
    (hop : unitOpField w = (mk 0).unitOp) (hrsv : rsvField w = 0#15) (hu : uField w = false) :
    encode (mk (imm8Field w)) = w :=
  encode_eq_of_fields (hop.trans (hmk.unitOp _).symm) hrsv (hu.trans (hmk.uBit _).symm) (hmk.imm8 _).symm

/-! ## The four forms of a row's constraint, on a command's word -/

theorem decodePlain_encode {i : Instr} (hu : i.uBit = false) (himm : i.imm8 = 0#8) :
    decodePlain (encode i) i = .ok i := by
  simp [decodePlain, hu, himm]

theorem decodeSymbol_encode {mk : Byte → Instr} (hmk : SymbolCommand mk) (s : Byte) :
    decodeSymbol (encode (mk s)) mk = .ok (mk s) := by
  simp [decodeSymbol, hmk.uBit, hmk.imm8]

theorem decodePutbit_encode {imm : Byte} (himm : imm.toNat ≤ 1) :
    decodePutbit (encode (.bswPutbit imm)) = .ok (.bswPutbit imm) := by
  simp [decodePutbit, Instr.uBit, Instr.imm8, himm]

theorem decodeBsrOpen_encode (u : Bool) : decodeBsrOpen (encode (.bsrOpen u)) = .ok (.bsrOpen u) := by
  simp [decodeBsrOpen, Instr.uBit, Instr.imm8]

/-- CMD[31:24] picks the command's own row, and its other fields meet that row's constraint. -/
theorem decode_encode {i : Instr} (hwf : i.wellFormed = true) : decode (encode i) = .ok i := by
  unfold decode
  rw [unitOpField_encode]
  cases i
  case bswPutbit imm => exact decodePutbit_encode (of_decide_eq_true hwf)
  case bsrOpen u => exact decodeBsrOpen_encode u
  case tbSetfreq | tbGetfreq | encCodelen | encCodeword | encEmit => exact decodeSymbol_encode {} _
  all_goals exact decodePlain_encode rfl rfl

/-! ## The four forms again, on a word the row accepts -/

theorem encode_of_decodePlain {w : CmdWord} {i j : Instr} (h : decodePlain w j = .ok i)
    (hop : unitOpField w = j.unitOp) (hu : j.uBit = false) (himm : j.imm8 = 0#8) (hwf : j.wellFormed = true) :
    encode i = w ∧ i.wellFormed = true := by
  unfold decodePlain at h
  split at h
  next hc =>
    obtain ⟨hrsv, hwu, hwimm⟩ := hc
    cases h
    exact ⟨encode_eq_of_fields hop hrsv (hwu.trans hu.symm) (hwimm.trans himm.symm), hwf⟩
  next => cases h

theorem encode_of_decodeSymbol {w : CmdWord} {i : Instr} {mk : Byte → Instr} (hmk : SymbolCommand mk)
    (h : decodeSymbol w mk = .ok i) (hop : unitOpField w = (mk 0).unitOp) : encode i = w ∧ i.wellFormed = true := by
  unfold decodeSymbol at h
  split at h
  next hc =>
    cases h
    exact ⟨hmk.encode_eq hop hc.1 hc.2, hmk.wellFormed _⟩
  next => cases h

theorem encode_of_decodePutbit {w : CmdWord} {i : Instr} (h : decodePutbit w = .ok i) (hop : unitOpField w = 0x11#8) :
    encode i = w ∧ i.wellFormed = true := by
  unfold decodePutbit at h
  split at h
  next hc =>
    obtain ⟨hrsv, hu, himm⟩ := hc
    cases h
    exact ⟨encode_eq_of_fields hop hrsv hu rfl, decide_eq_true himm⟩
  next => cases h

theorem encode_of_decodeBsrOpen {w : CmdWord} {i : Instr} (h : decodeBsrOpen w = .ok i)
    (hop : unitOpField w = 0x20#8) : encode i = w ∧ i.wellFormed = true := by
  unfold decodeBsrOpen at h
  split at h
  next hc =>
    obtain ⟨hrsv, himm⟩ := hc
    cases h
    exact ⟨encode_eq_of_fields hop hrsv rfl himm, rfl⟩
  next => cases h

/-- In each row, CMD[31:24] is the command's own, and the row's constraint gives the fields below it. -/
theorem encode_of_decode {w : CmdWord} {i : Instr} (h : decode w = .ok i) : encode i = w ∧ i.wellFormed = true := by
  unfold decode at h
  split at h <;> rename_i hop
  case h_4 => exact encode_of_decodePutbit h hop
  case h_6 => exact encode_of_decodeBsrOpen h hop
  case h_9 | h_10 | h_17 | h_18 | h_19 =>
    exact encode_of_decodeSymbol {} h hop
  case h_25 => cases h
  all_goals exact encode_of_decodePlain h hop rfl rfl rfl

/-- The decoder answers a command exactly on the word of that command, when it is well formed (R91, R93). -/
theorem decode_eq_ok_iff {w : CmdWord} {i : Instr} : decode w = .ok i ↔ encode i = w ∧ i.wellFormed = true :=
  ⟨encode_of_decode, fun ⟨hw, hwf⟩ => hw ▸ decode_encode hwf⟩

/-! ## The opcode map's rows under their masks (R93, R95)

A field that the row's mask covers is the row's own. -/

section Rows
variable {w m b : CmdWord} (h : w &&& m = b)
include h

theorem unitOpField_of_mask (hm : unitOpField m = BitVec.allOnes 8) : unitOpField w = unitOpField b :=
  calc unitOpField w = unitOpField w &&& unitOpField m := by rw [hm, BitVec.and_allOnes]
    _ = unitOpField (w &&& m) := BitVec.extractLsb'_and.symm
    _ = unitOpField b := by rw [h]

theorem rsvField_of_mask (hm : rsvField m = BitVec.allOnes 15) : rsvField w = rsvField b :=
  calc rsvField w = rsvField w &&& rsvField m := by rw [hm, BitVec.and_allOnes]
    _ = rsvField (w &&& m) := BitVec.extractLsb'_and.symm
    _ = rsvField b := by rw [h]

theorem uField_of_mask (hm : uField m = true) : uField w = uField b :=
  calc uField w = (uField w && uField m) := by rw [hm, Bool.and_true]
    _ = uField (w &&& m) := BitVec.getLsbD_and.symm
    _ = uField b := by rw [h]

theorem imm8Field_and_of_mask : imm8Field w &&& imm8Field m = imm8Field b :=
  calc imm8Field w &&& imm8Field m = imm8Field (w &&& m) := BitVec.extractLsb'_and.symm
    _ = imm8Field b := by rw [h]

end Rows

theorem decodes_of_plainRow {w : CmdWord} (i : Instr) (hwf : i.wellFormed = true)
    (h : w &&& 0xFFFFFFFF#32 = encode i) : ∃ i, decode w = .ok i :=
  ⟨i, decode_eq_ok_iff.mpr ⟨h.symm.trans BitVec.and_allOnes, hwf⟩⟩

theorem decodes_of_symbolRow {w : CmdWord} {mk : Byte → Instr} (hmk : SymbolCommand mk)
    (h : w &&& 0xFFFFFF00#32 = encode (mk 0)) : ∃ i, decode w = .ok i := by
  have hop : unitOpField w = (mk 0).unitOp := (unitOpField_of_mask h rfl).trans (unitOpField_encode _)
  have hrsv : rsvField w = 0#15 := (rsvField_of_mask h rfl).trans (rsvField_encode _)
  have hu : uField w = false := (uField_of_mask h rfl).trans ((uField_encode _).trans (hmk.uBit 0))
  exact ⟨mk (imm8Field w), decode_eq_ok_iff.mpr ⟨hmk.encode_eq hop hrsv hu, hmk.wellFormed _⟩⟩

/-- A byte with no bit above bit 0 is 0 or 1. -/
theorem toNat_le_one_of_and {x : Byte} (h : x &&& 0xFE#8 = 0#8) : x.toNat ≤ 1 := by
  have hx : x = x &&& 1#8 := by
    calc x = x &&& (0xFE#8 ||| 1#8) := BitVec.and_allOnes.symm
      _ = x &&& 1#8 := by rw [BitVec.and_or_distrib_left, h, BitVec.zero_or]
  rw [hx, BitVec.toNat_and]
  exact Nat.and_le_right

theorem decodes_of_putbitRow {w : CmdWord} (h : w &&& 0xFFFFFFFE#32 = 0x11000000#32) : ∃ i, decode w = .ok i :=
  ⟨.bswPutbit (imm8Field w), decode_eq_ok_iff.mpr
    ⟨encode_eq_of_fields (unitOpField_of_mask h rfl) (rsvField_of_mask h rfl) (uField_of_mask h rfl) rfl,
      decide_eq_true (toNat_le_one_of_and (imm8Field_and_of_mask h))⟩⟩

theorem decodes_of_bsrOpenRow {w : CmdWord} (h : w &&& 0xFFFFFEFF#32 = 0x20000000#32) : ∃ i, decode w = .ok i :=
  ⟨.bsrOpen (uField w), decode_eq_ok_iff.mpr
    ⟨encode_eq_of_fields (unitOpField_of_mask h rfl) (rsvField_of_mask h rfl) rfl
      (BitVec.and_allOnes.symm.trans (imm8Field_and_of_mask h)), rfl⟩⟩

/-- The 24 rows in the map's order, each by the form of its mask. -/
theorem decodes_of_row {w : CmdWord} : ∀ r ∈ opcodeRows, w &&& r.mask = r.bits → ∃ i, decode w = .ok i := by
  simp only [opcodeRows, List.cons_append, List.nil_append, List.forall_mem_cons]
  exact ⟨decodes_of_plainRow .ctrlAbort rfl, decodes_of_plainRow .ctrlRewind rfl,
    decodes_of_plainRow .bswOpen rfl, decodes_of_putbitRow, decodes_of_plainRow .bswClose rfl,
    decodes_of_bsrOpenRow, decodes_of_plainRow .bsrNext rfl, decodes_of_plainRow .bsrClose rfl,
    decodes_of_symbolRow (mk := .tbSetfreq) {}, decodes_of_symbolRow (mk := .tbGetfreq) {},
    decodes_of_plainRow .tbBuild rfl, decodes_of_plainRow .tbInfo rfl, decodes_of_plainRow .tbNode rfl,
    decodes_of_plainRow .encCount rfl, decodes_of_plainRow .encHeader rfl, decodes_of_plainRow .encDerive rfl,
    decodes_of_symbolRow (mk := .encCodelen) {}, decodes_of_symbolRow (mk := .encCodeword) {},
    decodes_of_symbolRow (mk := .encEmit) {}, decodes_of_plainRow .encStep rfl, decodes_of_plainRow .encRun rfl,
    decodes_of_plainRow .decHeader rfl, decodes_of_plainRow .decSymbol rfl, decodes_of_plainRow .decRun rfl,
    fun _ h => absurd h List.not_mem_nil⟩

theorem decodes_of_legal {w : CmdWord} (h : legalWord w = true) : ∃ i, decode w = .ok i := by
  obtain ⟨r, hr, hw⟩ := List.any_eq_true.mp h
  exact decodes_of_row r hr (beq_iff_eq.mp hw)

open Laws in
/-- A well-formed command's word is a word of the map, command by command. -/
theorem encode_legal : ∀ i : Instr, EncodeLegal.Statement i
  | .ctrlAbort => EncodeLegal.ctrlAbort
  | .ctrlRewind => EncodeLegal.ctrlRewind
  | .bswOpen => EncodeLegal.bswOpen
  | .bswPutbit imm => EncodeLegal.bswPutbit imm
  | .bswClose => EncodeLegal.bswClose
  | .bsrOpen u => EncodeLegal.bsrOpen u
  | .bsrNext => EncodeLegal.bsrNext
  | .bsrClose => EncodeLegal.bsrClose
  | .tbSetfreq sym => EncodeLegal.tbSetfreq sym
  | .tbGetfreq sym => EncodeLegal.tbGetfreq sym
  | .tbBuild => EncodeLegal.tbBuild
  | .tbInfo => EncodeLegal.tbInfo
  | .tbNode => EncodeLegal.tbNode
  | .encCount => EncodeLegal.encCount
  | .encHeader => EncodeLegal.encHeader
  | .encDerive => EncodeLegal.encDerive
  | .encCodelen sym => EncodeLegal.encCodelen sym
  | .encCodeword sym => EncodeLegal.encCodeword sym
  | .encEmit sym => EncodeLegal.encEmit sym
  | .encStep => EncodeLegal.encStep
  | .encRun => EncodeLegal.encRun
  | .decHeader => EncodeLegal.decHeader
  | .decSymbol => EncodeLegal.decSymbol
  | .decRun => EncodeLegal.decRun

/-! ## The statements -/

/-- Settles O1: the half of `decode_eq_ok_iff` about a command's own word. -/
theorem decodeOfEncode : Obligations.DecodeOfEncode := fun _ => decode_encode

/-- Settles O2: the half of `decode_eq_ok_iff` about an accepted word. -/
theorem encodeOfDecode : Obligations.EncodeOfDecode := fun _ _ => encode_of_decode

/-- Settles O3: every row's words decode, and an accepted word is a well-formed command's, which is legal. -/
theorem legalWordsAreTheDecodedOnes : Obligations.LegalWordsAreTheDecodedOnes := by
  refine fun w => ⟨decodes_of_legal, fun ⟨i, h⟩ => ?_⟩
  obtain ⟨rfl, hwf⟩ := encode_of_decode h
  exact encode_legal i hwf

/-- Settles O4: each word's fields pick its row and meet or break that row's constraint, by evaluation. -/
theorem wordsOfTheOpcodeMapDecode : Obligations.WordsOfTheOpcodeMapDecode :=
  ⟨rfl, rfl, rfl, rfl, rfl, rfl, rfl, rfl, rfl⟩

end Sys2Proof

/-!
SUPPORT. The statements of the encoding family about the host's moves: an illegal word (spec/30_encoding.md R96) and the
register map (R90).
-/

namespace Sys2Proof.Machine

/-! ## What the moves do -/

/-- An illegal word while idle (R96). -/
theorem illegalWord_idle {s : State} (h : s.seq = .idle) :
    illegalWord s = { s with done := true, code := .illegalCommand } := by
  have hbusy : ¬ s.busy = true := Bool.eq_false_iff.mp (busy_eq_false.mpr h)
  rw [illegalWord, if_neg hbusy, endError, ← h]

/-- A word of no row is submitted as an illegal one (R95, R120). -/
theorem submitWord_of_not_legal {w : CmdWord} (h : legalWord w = false) (s : State) :
    submitWord w s = .next (illegalWord { s with cmd := w }) := by
  unfold submitWord
  split
  next i hi =>
    have hlegal : legalWord w = true := (legalWordsAreTheDecodedOnes w).mpr ⟨i, hi⟩
    exact absurd hlegal (Bool.eq_false_iff.mp h)
  next => rfl

/-- A write at any offset but CMD's stores into ARG or is ignored (R90, R128). -/
theorem hostStep_writeAt {off : BitVec 5} (hoff : off ≠ 0x00#5) (v : Word64) (s : State) :
    hostStep (HostMove.writeAt off v) s = .next { s with arg := if off = 0x08#5 then v else s.arg } := by
  unfold HostMove.writeAt
  rw [if_neg hoff]
  split_ifs <;> rfl

theorem readReg_unmapped (s : State) {off : BitVec 5} (hcmd : off ≠ 0x00#5) (harg : off ≠ 0x08#5)
    (hresult : off ≠ 0x10#5) (hstatus : off ≠ 0x18#5) : s.readReg off = 0#64 := by
  simp [State.readReg, hcmd, harg, hresult, hstatus]

/-! ## The statements -/

/-- Settles O6: the word is of no row, so it is submitted as an illegal one, and the block is idle. -/
theorem illegalWordWhileIdle : Obligations.IllegalWordWhileIdle := by
  intro s w rest hmoves hw hidle
  calc step s = submitWord w { s with hostMoves := rest } := step_move hmoves
    _ = .next (illegalWord { s with hostMoves := rest, cmd := w }) := submitWord_of_not_legal hw _
    _ = .next { s with hostMoves := rest, cmd := w, done := true, code := .illegalCommand } :=
      congrArg _ (illegalWord_idle hidle)

/-- Settles O9: the map's offsets by evaluation, and each move's step by that move's own effect. -/
theorem hostRegisterAccess : Obligations.HostRegisterAccess := by
  refine ⟨fun s => ⟨rfl, rfl, rfl, rfl, fun _ => readReg_unmapped s⟩, ?_, ?_, ?_, fun _ => rfl⟩
  · intro s off rest h
    exact step_move h
  · intro s rest h
    exact step_move h
  · intro s off v rest h hoff
    rw [step_move h, hostStep_writeAt hoff]

end Sys2Proof.Machine

/-!
SUPPORT. How a unit rule can stop: with which status codes (spec/60_exceptions.md R285), and that it always does. Only
ENC.DERIVE walks a structure of the state that need not be finite; on a tree that TB.BUILD made every child stands
before its parent (43_huffman_tree_builder.md R185, R189), so its walk ends too.
-/

namespace Sys2Proof.Machine

/-! ## Children stand before their parents -/

/-- Every internal entry of the arena below `n` has its children before it; the right one may be absent (R185, R186). -/
def ChildrenBefore (a : Arena) (n : Nat) : Prop :=
  ∀ i : NodeIdx, i.toNat < n → (nodeAt a i).kind = .internal →
    (nodeAt a i).left.toNat < i.toNat ∧
      ((nodeAt a i).right = Config.noneIdx ∨ (nodeAt a i).right.toNat < i.toNat)

/-- A new entry `n`, a leaf or a node over earlier entries. -/
theorem childrenBefore_setNode {a : Arena} {n : Nat} (ha : ChildrenBefore a n) (hn : n < 511) {e : Node}
    (he : e.kind = .internal → e.left.toNat < n ∧ (e.right = Config.noneIdx ∨ e.right.toNat < n)) :
    ChildrenBefore (setNode a (BitVec.ofNat 9 n) e) (n + 1) := by
  have hidx : (BitVec.ofNat 9 n).toNat = n := Nat.mod_eq_of_lt (by omega)
  intro i hi
  by_cases hin : i = BitVec.ofNat 9 n
  · rw [hin, nodeAt_setNode_same a e (by omega), hidx]
    exact he
  · have hne : i.toNat ≠ n := fun h => hin (BitVec.eq_of_toNat_eq (h.trans hidx.symm))
    rw [nodeAt_setNode_other a e hin]
    exact ha i (by omega)

theorem childrenBefore_placeLeaves (f : Freq) {syms : List Byte} {k : Nat} {a : Arena} (ha : ChildrenBefore a k)
    (hcap : k + syms.length ≤ 511) : ChildrenBefore (placeLeaves f syms k a) (k + syms.length) := by
  induction syms generalizing k a with
  | nil => exact ha
  | cons sym syms ih =>
    rw [List.length_cons] at hcap ⊢
    have hleaf := childrenBefore_setNode ha (by omega) (e := leafNode f sym) nofun
    rw [placeLeaves, ← Nat.add_assoc, Nat.add_right_comm]
    exact ih hleaf (by omega)

/-- At most 256 symbols are in use. -/
theorem usedSymbols_length_le (f : Freq) : (usedSymbols f).length ≤ 256 :=
  (List.length_filter_le _ _).trans (by simp)

theorem leastKey_mem (a : Arena) (best : NodeIdx) (l : List NodeIdx) : leastKey a best l ∈ best :: l := by
  induction l generalizing best with
  | nil => exact List.mem_singleton.mpr rfl
  | cons i l ih =>
    rw [leastKey]
    split
    · exact List.mem_cons_of_mem _ (ih i)
    · exact (List.mem_cons.mp (ih best)).elim (fun h => List.mem_cons.mpr (.inl h))
        fun h => List.mem_cons_of_mem _ (List.mem_cons_of_mem _ h)

/-- An extraction takes one member out of the live set (R184). -/
theorem extractLeast_eq_some {a : Arena} {live rest : List NodeIdx} {i : NodeIdx}
    (h : extractLeast a live = some (i, rest)) : i ∈ live ∧ rest = live.erase i := by
  cases live with
  | nil => cases h
  | cons j l =>
    obtain ⟨rfl, rfl⟩ : leastKey a j l = i ∧ (j :: l).erase (leastKey a j l) = rest := by
      simpa [extractLeast] using h
    exact ⟨leastKey_mem a j l, rfl⟩

/-- Each merge adds a node over two earlier ones. The entries made and the live nodes are together as many after a merge
as before it, so the arena has room for every merge. -/
theorem childrenBefore_mergeAll {fuel n : Nat} {live : List NodeIdx} {a : Arena} (ha : ChildrenBefore a n)
    (hlive : ∀ i ∈ live, i.toNat < n) (hcap : n + live.length ≤ 512) :
    ChildrenBefore (mergeAll fuel n live a).1 (mergeAll fuel n live a).2 ∧ n ≤ (mergeAll fuel n live a).2 := by
  induction fuel generalizing n live a with
  | zero => exact ⟨ha, le_rfl⟩
  | succ fuel ih =>
    rw [mergeAll]
    split
    next => exact ⟨ha, le_rfl⟩
    next i live1 hi =>
      split
      next => exact ⟨ha, le_rfl⟩
      next j live2 hj =>
        obtain ⟨himem, rfl⟩ := extractLeast_eq_some hi
        obtain ⟨hjmem, rfl⟩ := extractLeast_eq_some hj
        have hlen1 := List.length_erase_add_one himem
        have hlen2 := List.length_erase_add_one hjmem
        have hjn := hlive j (List.mem_of_mem_erase hjmem)
        have hmerge := childrenBefore_setNode ha (by omega) (e := mergeNode a i j)
          fun _ => ⟨hlive i himem, .inr hjn⟩
        have hlive' : ∀ m ∈ (live.erase i).erase j ++ [BitVec.ofNat 9 n], m.toNat < n + 1 := by
          intro m hm
          rcases List.mem_append.mp hm with hm | hm
          · exact Nat.lt_succ_of_lt (hlive m (List.mem_of_mem_erase (List.mem_of_mem_erase hm)))
          · rw [List.mem_singleton.mp hm]
            exact Nat.lt_succ_of_le (Nat.mod_le _ _)
        obtain ⟨hc, hle⟩ := ih hmerge hlive' (by rw [List.length_append, List.length_singleton]; omega)
        exact ⟨hc, Nat.le_of_succ_le hle⟩

/-- In a tree that TB.BUILD made every child stands before its parent (R185, R186, R188). -/
theorem childrenBefore_buildTree {f : Freq} {a : Arena} {b : Built} (h : buildTree f a = some b) :
    ∃ n, ChildrenBefore b.arena n ∧ b.root.toNat < n := by
  have hk := usedSymbols_length_le f
  have hleaves := childrenBefore_placeLeaves f (syms := usedSymbols f) (k := 0) (a := a) nofun (by omega)
  rw [Nat.zero_add] at hleaves
  simp only [buildTree] at h
  generalize (usedSymbols f).length = k at h hk hleaves
  generalize placeLeaves f (usedSymbols f) 0 a = leaves at h hleaves
  split_ifs at h with h0 h1
  · cases h
    subst h1
    exact ⟨2, childrenBefore_setNode hleaves (by decide) fun _ => ⟨Nat.zero_lt_one, .inl rfl⟩, Nat.one_lt_two⟩
  · cases h
    obtain ⟨hc, hle⟩ := childrenBefore_mergeAll (fuel := k) (live := (List.range k).map (BitVec.ofNat 9)) hleaves
      (by
        intro i hi
        obtain ⟨m, hm, rfl⟩ := List.mem_map.mp hi
        exact (Nat.mod_le _ _).trans_lt (List.mem_range.mp hm))
      (by rw [List.length_map, List.length_range]; omega)
    have hroot := Nat.mod_le ((mergeAll k k ((List.range k).map (BitVec.ofNat 9)) leaves).2 - 1) (2 ^ 9)
    exact ⟨_, hc, by rw [BitVec.toNat_ofNat]; omega⟩

/-! ## The derivation ends -/

/-- A walk from entry `i` goes at most `i` nodes deeper where children stand before their parents. -/
theorem deriveBelow_eq_some {a : Arena} {n depth : Nat} {i : NodeIdx} (ha : ChildrenBefore a n) (hi : i.toNat < n)
    (hdepth : i.toNat < depth) (path : List Bool) (t : CodeTable) : ∃ t', deriveBelow a depth i path t = some t' := by
  induction depth generalizing i path t with
  | zero => cases hdepth
  | succ depth ih =>
    rw [deriveBelow]
    cases hkind : (nodeAt a i).kind with
    | leaf => exact ⟨_, rfl⟩
    | internal =>
      obtain ⟨hleft, hright⟩ := ha i hi hkind
      obtain ⟨t1, ht1⟩ := ih (hleft.trans hi) (by omega) (path ++ [false]) t
      simp only [ht1]
      split
      next => exact ⟨t1, rfl⟩
      next hsome =>
        have hlt := hright.resolve_left hsome
        exact ih (hlt.trans hi) (by omega) _ _

/-- The work-stack of R213 empties on a valid tree. -/
theorem deriveCodes_eq_some {s : State} (h : TreeInv s) (hvalid : s.treeValid = true) :
    ∃ t, deriveCodes s.node s.root = some t := by
  obtain ⟨a, hbuilt⟩ := h hvalid
  obtain ⟨n, hn, hroot⟩ := childrenBefore_buildTree hbuilt
  exact deriveBelow_eq_some hn hroot s.root.isLt _ _

/-! ## The status codes a rule can raise -/

/-- The rule stops: normally, with one of the errors in `E`, or, only where `F` holds, by never ending. -/
def Res.Stops {α : Type} (E : List StatusCode) (F : Prop) : Res α → Prop
  | .ret _ _ => True
  | .raise e _ => e ∈ E
  | .stuck _ => F

theorem Res.Stops.bind {α β : Type} {E : List StatusCode} {F : Prop} {r : Res α} {k : α → State → Res β}
    (h : r.Stops E F) (hk : ∀ a t, (k a t).Stops E F) : (r.bind k).Stops E F := by
  cases r with
  | ret a t => exact hk a t
  | raise e t => exact h
  | stuck f => exact h

/-- A rule that does no more than give a value after a part that stops. -/
theorem Res.Stops.map {α β : Type} {E : List StatusCode} {F : Prop} {r : Res α} (h : r.Stops E F)
    (g : α → β) (u : α → State → State) : (r.bind fun a t => .ret (g a) (u a t)).Stops E F :=
  h.bind fun _ _ => trivial

theorem Res.Stops.of_raise {α : Type} {E : List StatusCode} {F : Prop} {r : Res α} {e : StatusCode} {t : State}
    (h : r.Stops E F) (hr : r = .raise e t) : e ∈ E := by
  subst hr; exact h

theorem Res.Stops.of_stuck {α : Type} {E : List StatusCode} {F : Prop} {r : Res α} {f : Fault}
    (h : r.Stops E F) (hr : r = .stuck f) : F := by
  subst hr; exact h

theorem Res.Stops.of_never {α : Type} {E : List StatusCode} {F F' : Prop} {r : Res α} (h : r.Stops E F)
    (hF : F → F') : r.Stops E F' := by
  cases r with
  | ret a t => trivial
  | raise e t => exact h
  | stuck f => exact hF h

theorem Res.Stops.ite {α : Type} {E : List StatusCode} {F c : Prop} [Decidable c] {r r' : Res α} (h : r.Stops E F)
    (h' : r'.Stops E F) : (if c then r else r').Stops E F := by
  split
  · exact h
  · exact h'

/-- A `require` that fails, with the first error of the list. -/
theorem Res.Stops.require {α : Type} {e : StatusCode} {E : List StatusCode} {F : Prop} {s : State} :
    (.raise e s : Res α).Stops (e :: E) F := List.mem_cons_self

section Primitives

variable {E : List StatusCode} {F : Prop} (hio : .ioError ∈ E)
include hio

theorem writeBytes_stops (bs : List Byte) (s : State) : (writeBytes bs s).Stops E F := by
  induction bs generalizing s with
  | nil => trivial
  | cons b bs ih =>
    rw [writeBytes]
    split
    · exact hio
    · exact ih _

theorem putBit_stops (b : Bool) (s : State) : (putBit b s).Stops E F := by
  unfold putBit
  split
  · split
    · trivial
    · exact hio
  · trivial

theorem putBits_stops (bs : List Bool) (s : State) : (putBits bs s).Stops E F := by
  induction bs generalizing s with
  | nil => trivial
  | cons b bs ih => exact (putBit_stops hio b s).bind fun _ t => ih t

theorem nextBit_stops (s : State) : (nextBit s).Stops E F := by
  rcases nextBit_frame s with ⟨_, _, _, _, h⟩ | h <;> rw [h]
  · trivial
  · exact hio

theorem countLoop_stops (hover : .overflow ∈ E) (n : Nat) (f : Freq) (s : State) : (countLoop n f s).Stops E F := by
  induction n generalizing f s with
  | zero => trivial
  | succ n ih =>
    rw [countLoop]
    split
    · exact hio
    · trivial
    · split
      · exact hover
      · exact ih _ _

theorem readBytes_stops (hformat : .formatError ∈ E) (n : Nat) (s : State) : (readBytes n s).Stops E F := by
  rcases readBytes_frame n s with ⟨_, _, _, h, _⟩ | ⟨e, _, _, h, rfl | rfl⟩ <;> rw [h]
  · trivial
  · exact hio
  · exact hformat

theorem decodeWalk_stops (hformat : .formatError ∈ E) (hcorrupt : .corruptStream ∈ E) (n : Nat) (cur : NodeIdx)
    (s : State) : (decodeWalk n cur s).Stops E F := by
  induction n generalizing cur s with
  | zero => exact hformat
  | succ n ih =>
    rw [decodeWalk]
    refine (nextBit_stops hio s).bind fun r t => ?_
    cases r with
    | none => exact hformat
    | some bit =>
      simp only []
      generalize (if bit then (nodeAt t.node cur).right else (nodeAt t.node cur).left) = nxt
      split
      · exact hcorrupt
      split
      · split
        · exact hio
        · trivial
      · exact ih nxt t

theorem encStepByte_stops (hprotocol : .protocolError ∈ E) (s : State) : (encStepByte s).Stops E F := by
  unfold encStepByte
  split
  · exact hprotocol
  split
  · exact hprotocol
  split
  · exact hio
  · trivial
  · split
    · exact hprotocol
    · exact (putBits_stops hio _ _).map _ _

end Primitives

/-- The errors each unit command can end with (R285). -/
def unitErrors : Instr → List StatusCode
  | .ctrlAbort | .ctrlRewind | .encRun | .decRun | .tbSetfreq _ | .tbGetfreq _ => []
  | .bswOpen | .bsrOpen _ | .bsrClose | .tbInfo | .tbNode | .encDerive | .encCodelen _ | .encCodeword _ =>
    [.protocolError]
  | .bswPutbit _ | .bswClose | .bsrNext | .encEmit _ | .encStep => [.protocolError, .ioError]
  | .tbBuild => [.emptyInput]
  | .encCount => [.ioError, .overflow]
  | .encHeader => [.ioError]
  | .decHeader => [.ioError, .formatError]
  | .decSymbol => [.protocolError, .ioError, .formatError, .corruptStream]

/-- No command's list of errors holds OK. -/
theorem ne_ok_of_mem_unitErrors {i : Instr} {e : StatusCode} (h : e ∈ unitErrors i) : e ≠ .ok := by
  rintro rfl
  cases i <;> simp [unitErrors] at h

theorem ruleEncDerive_stops (s : State) : (ruleEncDerive s).Stops [.protocolError] (¬ TreeInv s) := by
  unfold ruleEncDerive
  split
  next hvalid =>
    split
    next hnone =>
      intro htree
      obtain ⟨t, ht⟩ := deriveCodes_eq_some htree hvalid
      cases hnone.symm.trans ht
    next => trivial
  next => exact List.mem_singleton.mpr rfl

theorem ruleTbBuild_stops {F : Prop} (s : State) : (ruleTbBuild s).Stops [.emptyInput] F := by
  unfold ruleTbBuild
  split
  next => exact List.mem_singleton.mpr rfl
  next => trivial

theorem ruleBswClose_stops {F : Prop} (s : State) : (ruleBswClose s).Stops [.protocolError, .ioError] F := by
  unfold ruleBswClose
  refine .ite ?_ .require
  split
  · trivial
  · split
    · trivial
    · exact List.mem_cons_of_mem _ List.mem_cons_self

/-- Every rule stops, with its command's errors; ENC.DERIVE alone may not, where tree_valid is dishonest
(R285, R289). -/
theorem unitRule_stops {i : Instr} {rule : State → UnitRes} (h : unitRule i = some rule) (s : State) :
    (rule s).Stops (unitErrors i) (i = .encDerive ∧ ¬ TreeInv s) :=
  match i, h with
  | .ctrlRewind, rfl | .tbSetfreq _, rfl | .tbGetfreq _, rfl => trivial
  | .bswOpen, rfl => .ite .require trivial
  | .bswPutbit _, rfl => .ite ((putBit_stops (.tail _ (.head _)) _ s).map _ _) .require
  | .bswClose, rfl => ruleBswClose_stops s
  | .bsrOpen _, rfl => .ite .require trivial
  | .bsrNext, rfl => .ite ((nextBit_stops (by decide) s).map _ _) .require
  | .bsrClose, rfl => .ite trivial .require
  | .tbBuild, rfl => ruleTbBuild_stops s
  | .tbInfo, rfl => .ite trivial .require
  | .tbNode, rfl => .ite (.ite trivial trivial) .require
  | .encCount, rfl => (countLoop_stops (by decide) (by decide) _ _ s).map _ _
  | .encHeader, rfl => (writeBytes_stops (by decide) _ s).map _ _
  | .encDerive, rfl => (ruleEncDerive_stops s).of_never fun h => ⟨rfl, h⟩
  | .encCodelen _, rfl => .ite trivial .require
  | .encCodeword _, rfl => .ite trivial .require
  | .encEmit _, rfl =>
    .ite .require (.ite .require (.ite .require ((putBits_stops (.tail _ (.head _)) _ s).map _ _)))
  | .encStep, rfl => (encStepByte_stops (by decide) (by decide) s).map _ _
  | .decHeader, rfl => (readBytes_stops (by decide) (by decide) _ s).map _ _
  | .decSymbol, rfl =>
    .ite .require (.ite .require
      ((decodeWalk_stops (by decide) (by decide) (by decide) _ _ s).map _ _))

end Sys2Proof.Machine

/-!
SUPPORT. The core step as one rule per label and the "next" column of the RUN tables (spec/40_control.md R124;
44_huffman_encoder.md R221; 45_huffman_decoder.md R254).
-/

namespace Sys2Proof.Machine

/-- What the control unit does with the table's "next" entry (R124). -/
def RunNext.apply : RunNext → State → State
  | .label q, s => goTo q s
  | .finish r, s => finishRun r s

theorem afterEHeader_eq (s : State) (w : Word64) : afterEHeader s = (runNext .eHeader s w).apply s := by
  unfold afterEHeader runNext
  split <;> rfl

theorem afterDHeader_eq (s : State) (w : Word64) : afterDHeader s = (runNext .dHeader s w).apply s := by
  unfold afterDHeader runNext
  split <;> rfl

theorem afterDSymbol_eq (s : State) (w : Word64) : afterDSymbol s = (runNext .dSymbol s w).apply s := by
  unfold afterDSymbol runNext
  split <;> rfl

/-- The RESULT of ENC.STEP tells E_STEP's two successors apart by its EOF flag (R220, R221). -/
theorem afterEStep_eq (b : Option Byte) (s : State) :
    afterEStep b s = (runNext .eStep s (stepResult b)).apply s := by
  cases b with
  | none => rfl
  | some b => simp [afterEStep, runNext, stepResult, zext64, RunNext.apply]

/-- A core step runs the rule of its label's sub-command, and its end is the table's (R124). -/
theorem coreStep_eq_afterSub {s : State} {i : Instr} {rule : State → UnitRes} (hi : subCommand s.seq = some i)
    (hrule : unitRule i = some rule) :
    coreStep s = afterSub (rule s) fun v u => (runNext s.seq u (v.getD s.result)).apply u := by
  cases hq : s.seq <;> rw [hq] at hi
  case idle => cases hi
  all_goals cases hi; cases hrule; simp only [coreStep, hq]
  case eHeader => exact congrArg _ (funext₂ fun _ u => afterEHeader_eq u _)
  case eStep =>
    rw [ruleEncStep]
    cases encStepByte s with
    | ret b u => exact congrArg _ (afterEStep_eq b u)
    | raise e u => rfl
    | stuck f => rfl
  case dHeader => exact congrArg _ (funext₂ fun _ u => afterDHeader_eq u _)
  case dSymbol => exact congrArg _ (funext₂ fun _ u => afterDSymbol_eq u _)
  all_goals rfl

theorem seq_eq_idle_of_subCommand {q : Seq} (h : subCommand q = none) : q = .idle := by
  cases q <;> simp [subCommand] at h ⊢

/-- Each sub-command is a unit command. -/
theorem unitRule_of_subCommand {q : Seq} {i : Instr} (h : subCommand q = some i) :
    ∃ rule, unitRule i = some rule := by
  cases q <;> cases h <;> exact ⟨_, rfl⟩

theorem seq_eq_eDerive_of_subCommand {q : Seq} (h : subCommand q = some .encDerive) : q = .eDerive := by
  cases q <;> simp [subCommand] at h ⊢

/-- A core step gives a next state; at E_DERIVE, where the tree is honest. -/
theorem coreStep_eq_next {s : State} (h : s.seq = .eDerive → TreeInv s) : ∃ t, coreStep s = .next t := by
  cases hi : subCommand s.seq with
  | none => exact ⟨s, by rw [coreStep, seq_eq_idle_of_subCommand hi]⟩
  | some i =>
    obtain ⟨rule, hrule⟩ := unitRule_of_subCommand hi
    rw [coreStep_eq_afterSub hi hrule]
    cases hr : rule s with
    | ret v u => exact ⟨_, rfl⟩
    | raise e u => exact ⟨_, rfl⟩
    | stuck f =>
      obtain ⟨rfl, htree⟩ := (unitRule_stops hrule s).of_stuck hr
      exact absurd (h (seq_eq_eDerive_of_subCommand hi)) htree

end Sys2Proof.Machine

/-!
SUPPORT. No unit rule reads `seq`, so a RUN's sub-command does what the same command issued on its own does
(spec/40_control.md R124). With it, the statement that says so.
-/

namespace Sys2Proof.Machine

/-! ## Rules do not read the sequencer -/

/-- The end of a rule with the sequencer at `q`. -/
def Res.atLabel {α : Type} (q : Seq) : Res α → Res α
  | .ret a s => .ret a (goTo q s)
  | .raise e s => .raise e (goTo q s)
  | .stuck f => .stuck f

/-- A rule that does the same wherever the sequencer is. -/
def SeqBlind {α : Type} (g : State → Res α) : Prop := ∀ q s, g (goTo q s) = (g s).atLabel q

theorem SeqBlind.bind {α β : Type} {g : State → Res α} {k : α → State → Res β} (hg : SeqBlind g)
    (hk : ∀ a, SeqBlind (k a)) : SeqBlind fun s => (g s).bind k := by
  intro q s
  simp only [hg q s]
  cases g s with
  | ret a t => exact hk a q t
  | raise e t => rfl
  | stuck f => rfl

/-- A test of what `seq` is no part of. -/
theorem SeqBlind.ite {α : Type} {c : State → Prop} [DecidablePred c] {g g' : State → Res α}
    (hg : SeqBlind g) (hg' : SeqBlind g') (hc : ∀ q s, c (goTo q s) ↔ c s := by exact fun _ _ => Iff.rfl) :
    SeqBlind fun s => if c s then g s else g' s := by
  intro q s
  simp only [hc q s]
  split
  · exact hg q s
  · exact hg' q s

theorem inRead_goTo (q : Seq) (s : State) : inRead (goTo q s) = ((inRead s).1, goTo q (inRead s).2) := by
  rcases inRead_cases s with ⟨h, e⟩ | ⟨h, hb, e⟩ | ⟨h, b, hb, e⟩ <;> rw [e]
  · exact inRead_ioerr (s := goTo q s) h
  · exact inRead_eof (s := goTo q s) h hb
  · exact inRead_byte (s := goTo q s) h hb

theorem outWrite_goTo (b : Byte) (q : Seq) (s : State) :
    outWrite b (goTo q s) = ((outWrite b s).1, goTo q (outWrite b s).2) := by
  rcases outWrite_cases b s with ⟨h, e⟩ | ⟨h, e⟩ <;> rw [e]
  · exact outWrite_ioerr (s := goTo q s) b h
  · exact outWrite_ok (s := goTo q s) b h

theorem writeBytes_seqBlind (bs : List Byte) : SeqBlind (writeBytes bs) := by
  induction bs with
  | nil => exact fun _ _ => rfl
  | cons b bs ih =>
    intro q s
    rw [writeBytes, writeBytes, outWrite_goTo]
    rcases outWrite b s with ⟨d, t⟩
    cases d with
    | ok => exact ih q t
    | ioerr => rfl

theorem putBit_seqBlind (b : Bool) : SeqBlind (putBit b) := by
  refine .ite (fun q s => ?_) fun _ _ => rfl
  rw [show { goTo q s with bsw := { (goTo q s).bsw with acc := 0#8, n := 0#3 } } =
    goTo q { s with bsw := { s.bsw with acc := 0#8, n := 0#3 } } from rfl, outWrite_goTo, goTo_bsw]
  rcases outWrite _ _ with ⟨d, t⟩
  cases d <;> rfl

theorem putBits_seqBlind (bs : List Bool) : SeqBlind (putBits bs) := by
  induction bs with
  | nil => exact fun _ _ => rfl
  | cons b bs ih => exact (putBit_seqBlind b).bind fun _ => ih

theorem emitCode_seqBlind (sym : Byte) : SeqBlind (emitCode sym) :=
  fun q s => putBits_seqBlind (s.codeOf sym) q s

theorem nextBit_seqBlind : SeqBlind nextBit := by
  refine .ite (fun _ _ => rfl) <| .ite (fun _ _ => rfl) <| .ite (fun q s => ?_) fun _ _ => rfl
  rw [inRead_goTo]
  rcases inRead s with ⟨o, t⟩
  cases o <;> rfl

theorem countLoop_seqBlind (n : Nat) (f : Freq) : SeqBlind (countLoop n f) := by
  induction n generalizing f with
  | zero => exact fun _ _ => rfl
  | succ n ih =>
    intro q s
    rw [countLoop, countLoop, inRead_goTo]
    rcases inRead s with ⟨o, t⟩
    cases o with
    | ioerr => rfl
    | eof => rfl
    | byte b =>
      simp only []
      split
      · rfl
      · exact ih _ q t

theorem readBytes_seqBlind (n : Nat) : SeqBlind (readBytes n) := by
  induction n with
  | zero => exact fun _ _ => rfl
  | succ n ih =>
    intro q s
    rw [readBytes, readBytes, inRead_goTo]
    rcases inRead s with ⟨o, t⟩
    cases o with
    | ioerr => rfl
    | eof => rfl
    | byte b => exact ih.bind (fun _ _ _ => rfl) q t

theorem decodeWalk_seqBlind (n : Nat) (cur : NodeIdx) : SeqBlind (decodeWalk n cur) := by
  induction n generalizing cur with
  | zero => exact fun _ _ => rfl
  | succ n ih =>
    refine nextBit_seqBlind.bind fun r q s => ?_
    cases r with
    | none => rfl
    | some bit =>
      simp only []
      rw [goTo_node]
      generalize (if bit then (nodeAt s.node cur).right else (nodeAt s.node cur).left) = nxt
      split
      · rfl
      split
      · rw [outWrite_goTo]
        rcases outWrite (nodeAt s.node nxt).sym s with ⟨d, t⟩
        cases d <;> rfl
      · exact ih nxt q s

theorem encStepByte_seqBlind : SeqBlind encStepByte := by
  refine .ite (fun _ _ => rfl) <| .ite (fun _ _ => rfl) fun q s => ?_
  rw [inRead_goTo]
  rcases inRead s with ⟨o, t⟩
  cases o with
  | ioerr => rfl
  | eof => rfl
  | byte b =>
    have hbyte : SeqBlind fun t : State =>
        if t.codeLenAt b = 0#8 then .raise .protocolError t else (emitCode b t).bind fun _ u => .ret (some b) u :=
      .ite (fun _ _ => rfl) ((emitCode_seqBlind b).bind fun _ _ _ => rfl)
    exact hbyte q t

theorem ruleTbBuild_seqBlind : SeqBlind ruleTbBuild := by
  intro q s
  simp only [ruleTbBuild, goTo_freq, goTo_node]
  cases buildTree s.freq s.node <;> rfl

theorem ruleEncDerive_seqBlind : SeqBlind ruleEncDerive := by
  refine .ite (fun q s => ?_) fun _ _ => rfl
  simp only [goTo_node, goTo_root]
  cases deriveCodes s.node s.root <;> rfl

theorem ruleBswClose_seqBlind : SeqBlind ruleBswClose := by
  refine .ite (.ite (fun _ _ => rfl) fun q s => ?_) fun _ _ => rfl
  rw [show { goTo q s with bsw := Writer.closed } = goTo q { s with bsw := Writer.closed } from rfl, outWrite_goTo,
    goTo_bsw]
  rcases outWrite _ _ with ⟨d, t⟩
  cases d <;> rfl

/-- No unit rule reads the sequencer. -/
theorem unitRule_seqBlind {i : Instr} {rule : State → UnitRes} (h : unitRule i = some rule) : SeqBlind rule :=
  match i, h with
  | .ctrlRewind, rfl | .tbSetfreq _, rfl | .tbGetfreq _, rfl => fun _ _ => rfl
  | .bswOpen, rfl | .bsrOpen _, rfl | .bsrClose, rfl | .tbInfo, rfl | .encCodelen _, rfl | .encCodeword _, rfl =>
    .ite (fun _ _ => rfl) fun _ _ => rfl
  | .bswPutbit _, rfl => .ite ((putBit_seqBlind _).bind fun _ _ _ => rfl) fun _ _ => rfl
  | .bswClose, rfl => ruleBswClose_seqBlind
  | .bsrNext, rfl => .ite (nextBit_seqBlind.bind fun _ _ _ => rfl) fun _ _ => rfl
  | .tbBuild, rfl => ruleTbBuild_seqBlind
  | .tbNode, rfl => .ite (.ite (fun _ _ => rfl) fun _ _ => rfl) fun _ _ => rfl
  | .encCount, rfl => fun q s => (countLoop_seqBlind _ _).bind (fun _ _ _ => rfl) q s
  | .encHeader, rfl => fun q s => (writeBytes_seqBlind _).bind (fun _ _ _ => rfl) q s
  | .encDerive, rfl => ruleEncDerive_seqBlind
  | .encEmit sym, rfl =>
    .ite (fun _ _ => rfl) <| .ite (fun _ _ => rfl) <|
      .ite (fun _ _ => rfl) <| (emitCode_seqBlind sym).bind fun _ _ _ => rfl
  | .encStep, rfl => encStepByte_seqBlind.bind fun _ _ _ => rfl
  | .decHeader, rfl => (readBytes_seqBlind _).bind fun _ _ _ => rfl
  | .decSymbol, rfl =>
    .ite (fun _ _ => rfl) <| .ite (fun _ _ => rfl) fun q s =>
      (decodeWalk_seqBlind _ _).bind (fun _ _ _ => rfl) q s

/-! ## The statement -/

theorem Res.atLabel_eq_ret {α : Type} {q : Seq} {r : Res α} {a : α} {t : State} (h : r.atLabel q = .ret a t) :
    ∃ u, r = .ret a u ∧ t = goTo q u := by
  cases r <;> cases h
  exact ⟨_, rfl, rfl⟩

theorem Res.atLabel_eq_raise {α : Type} {q : Seq} {r : Res α} {e : StatusCode} {t : State}
    (h : r.atLabel q = .raise e t) : ∃ u, r = .raise e u ∧ t = goTo q u := by
  cases r <;> cases h
  exact ⟨_, rfl, rfl⟩

/-- Where DONE = 0 and CODE = OK, as in a RUN, starting a command writes nothing (R120, R123). -/
theorem startCommand_goTo {s : State} (q : Seq) (hdone : s.done = false) (hcode : s.code = .ok) :
    startCommand (goTo q s) = goTo q s := by
  rw [startCommand, ← hdone, ← hcode]
  rfl

/-- The "next" column does not look at what the control unit writes. -/
theorem runNext_endOk (q : Seq) (v : Option Word64) (q' : Seq) (u : State) (w : Word64) :
    runNext q (endOk v (goTo q' u)) w = runNext q u w := by
  cases q <;> rfl

/-- Settles O46: the label's rule does the same with the sequencer at IDLE, so each end of the command is an end of the
core step. -/
theorem coreStepPerformsTheSubCommand : Obligations.CoreStepPerformsTheSubCommand := by
  intro s t i hdone hcode hi hexec
  obtain ⟨rule, hrule⟩ := unitRule_of_subCommand hi
  have hblind : rule (startCommand (goTo .idle s)) = (rule s).atLabel .idle := by
    rw [startCommand_goTo .idle hdone hcode, unitRule_seqBlind hrule]
  rw [coreStep_eq_afterSub hi hrule]
  rw [exec_eq_unitCommand hrule] at hexec
  rcases unitCommand_cases hexec with ⟨hbusy, _⟩ | ⟨_, v, w, hr, rfl⟩ | ⟨_, e, w, hr, rfl⟩
  · exact absurd rfl hbusy
  · obtain ⟨u, hu, rfl⟩ := Res.atLabel_eq_ret (hblind.symm.trans hr)
    have hk := (unitRule_keeps hrule s).of_ret hu
    refine ⟨fun h => absurd rfl h, fun _ => ?_⟩
    rw [hu, runNext_endOk, endOk_result, goTo_result, hk.result]
    simp only [afterSub]
    cases runNext s.seq u (v.getD s.result) with
    | label q =>
      rw [← hk.result, ← hdone, ← hcode, ← hk.done, ← hk.code]
      rfl
    | finish r => rfl
  · obtain ⟨u, hu, rfl⟩ := Res.atLabel_eq_raise (hblind.symm.trans hr)
    have hk := (unitRule_keeps hrule s).of_raise hu
    refine ⟨fun _ => ?_, fun h => absurd h (ne_ok_of_mem_unitErrors ((unitRule_stops hrule s).of_raise hu))⟩
    rw [hu, ← hk.result]
    rfl

end Sys2Proof.Machine

/-!
SUPPORT. How many core steps a RUN takes (spec/40_control.md R124; 70_reset_and_hazards.md R316): a bound that every core
step brings down by one. With it, the statement that every RUN ends.
-/

namespace Sys2Proof.Machine

/-! ## How far a RUN is from its end -/

/-- The RUN is past its first label and ends within `n` core steps (R124, R316). E_STEP takes one step for each unread
byte and one for the end of IN; D_SYMBOL takes one for each symbol not yet out. -/
def EndsWithin (n : Nat) (s : State) : Prop :=
  match s.seq with
  | .idle => True
  | .eCount | .dHeader => False
  | .eHeader => s.input.length + 7 ≤ n
  | .eBuild => s.input.length + 6 ≤ n
  | .eDerive => TreeInv s ∧ s.input.length + 5 ≤ n
  | .eRewind => s.input.length + 4 ≤ n
  | .eOpen => s.input.length + 3 ≤ n
  | .eStep => s.remaining + 2 ≤ n
  | .eClose => 1 ≤ n
  | .dBuild => s.emitted = 0#40 ∧ total s.freq ≠ 0 ∧ total s.freq + 2 ≤ n
  | .dOpen => s.emitted = 0#40 ∧ total s.freq ≠ 0 ∧ total s.freq + 1 ≤ n
  | .dSymbol => s.emitted.toNat < total s.freq ∧ total s.freq ≤ s.emitted.toNat + n

theorem endsWithin_of_idle (n : Nat) {s : State} (h : s.seq = .idle) : EndsWithin n s := by
  rw [EndsWithin, h]; trivial

/-- With no step left the RUN has ended. -/
theorem idle_of_endsWithin_zero {s : State} (h : EndsWithin 0 s) : s.seq = .idle := by
  cases hq : s.seq <;> simp only [EndsWithin, hq] at h ⊢ <;> omega

/-- A core step that ends with an error ends the RUN; the rest is what its normal end does. -/
theorem endsWithin_afterSub {α : Type} {r : Res α} {k : α → State → State} {t : State} {n : Nat}
    (h : afterSub r k = .next t) (hk : ∀ a u, r = .ret a u → EndsWithin n (k a u)) : EndsWithin n t := by
  rcases afterSub_cases h with ⟨a, u, hr, rfl⟩ | ⟨e, u, _, rfl⟩
  · exact hk a u hr
  · exact endsWithin_of_idle n rfl

/-! ## The steps of ENC.RUN -/

theorem putBit_inPos (b : Bool) (s : State) :
    (putBit b s).Meets (fun _ t => t.inPos = s.inPos) fun t => t.inPos = s.inPos := by
  by_cases hn : s.bsw.n = 7#3
  · by_cases hd : s.ioDraws.head? = some .ioerr
    · rw [putBit_lost b hn hd]; rfl
    · rw [putBit_sent b hn hd]; rfl
  · rw [putBit_buffer b hn]; rfl

/-- The writer does not move in_pos. -/
theorem putBits_inPos (bs : List Bool) (s : State) :
    (putBits bs s).Meets (fun _ t => t.inPos = s.inPos) fun t => t.inPos = s.inPos := by
  induction bs generalizing s with
  | nil => rfl
  | cons b bs ih =>
    exact (putBit_inPos b s).bind fun _ t ht => (ih t).mono (fun _ _ hu => hu.trans ht) fun _ hu => hu.trans ht

/-- ENC.STEP reads the byte at in_pos and moves past it (R220). -/
theorem encStepByte_some {s u : State} {b : Byte} (h : encStepByte s = .ret (some b) u) :
    s.input[s.inPos.toNat]? = some b ∧ u.inPos = s.inPos + 1#64 := by
  unfold encStepByte at h
  split at h
  · cases h
  split at h
  · cases h
  rcases inRead_cases s with ⟨_, hr⟩ | ⟨_, _, hr⟩ | ⟨_, c, hc, hr⟩ <;> rw [hr] at h
  · cases h
  · cases h
  simp only [] at h
  split at h
  · cases h
  obtain ⟨_, v, hemit, hret⟩ := Res.bind_eq_ret h
  cases hret
  exact ⟨hc, (putBits_inPos _ _).of_ret hemit⟩

/-- A step at E_STEP that reads a byte leaves one byte fewer. -/
theorem remaining_encStepByte_some {s u : State} {b : Byte} (hin : InputInv s)
    (h : encStepByte s = .ret (some b) u) : s.remaining = u.remaining + 1 := by
  obtain ⟨hb, hpos⟩ := encStepByte_some h
  have hinput := ((encStepByte_keeps s).of_ret h).input
  have hlength := congrArg List.length (unread_eq_cons hin hb s.ioDraws)
  simpa only [State.unread, State.remaining, List.length_drop, List.length_cons, hinput, hpos] using hlength

/-- A sub-command leaves IN as it is, so a bound in |IN| goes down by the step. -/
theorem input_length_le {s : State} {n c : Nat} (u : State) (hu : Untouched s u)
    (hn : s.input.length + (c + 1) ≤ n + 1) : u.input.length + c ≤ n := by
  rw [hu.input]; omega

section Labels

variable {s u : State} {v : Option Word64} {n : Nat}

theorem endsWithin_eHeader (hn : s.input.length + 7 ≤ n + 1) (hr : ruleEncHeader s = .ret v u) :
    EndsWithin n (afterEHeader u) := by
  unfold afterEHeader
  split
  next => exact endsWithin_of_idle n rfl
  next => exact input_length_le u ((ruleEncHeader_keeps s).of_ret hr) hn

/-- The tree that E_DERIVE walks is the one E_BUILD just made. -/
theorem endsWithin_eBuild (hn : s.input.length + 6 ≤ n + 1) (hr : ruleTbBuild s = .ret v u) :
    EndsWithin n (goTo .eDerive u) := by
  have htree : TreeInv u := by
    unfold ruleTbBuild at hr
    split at hr
    next => cases hr
    next b hb => cases hr; exact fun _ => ⟨s.node, hb⟩
  exact ⟨htree, input_length_le u ((ruleTbBuild_keeps s).of_ret hr) hn⟩

theorem endsWithin_eOpen (hn : s.input.length + 3 ≤ n + 1) (hr : ruleBswOpen s = .ret v u) :
    EndsWithin n (goTo .eStep u) := by
  have hinput : u.input.length + 2 ≤ n := input_length_le u ((ruleBswOpen_keeps s).of_ret hr) hn
  exact (Nat.add_le_add_right (Nat.sub_le _ _) 2).trans hinput

theorem endsWithin_eStep {b : Option Byte} (hin : InputInv s) (hn : s.remaining + 2 ≤ n + 1)
    (hr : encStepByte s = .ret b u) : EndsWithin n (afterEStep b u) := by
  cases b with
  | none => show 1 ≤ n; omega
  | some b =>
    have hrem := remaining_encStepByte_some hin hr
    show u.remaining + 2 ≤ n
    omega

/-! ## The steps of DEC.RUN -/

theorem endsWithin_dHeader (hr : ruleDecHeader s = .ret v u) :
    EndsWithin (total (afterDHeader u).freq + 2) (afterDHeader u) := by
  have hemitted := ((ruleDecHeader_frame s).of_ret hr).2.2
  unfold afterDHeader
  split
  next => exact endsWithin_of_idle _ rfl
  next htotal => exact ⟨hemitted, htotal, le_rfl⟩

theorem endsWithin_dBuild (hemitted : s.emitted = 0#40) (htotal : total s.freq ≠ 0)
    (hn : total s.freq + 2 ≤ n + 1) (hr : ruleTbBuild s = .ret v u) : EndsWithin n (goTo .dOpen u) := by
  obtain ⟨_, _, hfreq, _, _, he⟩ := (ruleTbBuild_frame s).of_ret hr
  rw [← hfreq] at htotal hn
  exact ⟨he.trans hemitted, htotal, Nat.le_of_succ_le_succ hn⟩

theorem endsWithin_dOpen (hemitted : s.emitted = 0#40) (htotal : total s.freq ≠ 0)
    (hn : total s.freq + 1 ≤ n + 1) (hr : ruleBsrOpen true s = .ret v u) : EndsWithin n (goTo .dSymbol u) := by
  obtain ⟨hf, _, he⟩ := (ruleBsrOpen_frame true s).of_ret hr
  rw [← hf.freq] at htotal hn
  have hzero : u.emitted.toNat = 0 := by rw [he, hemitted]; rfl
  show u.emitted.toNat < total u.freq ∧ total u.freq ≤ u.emitted.toNat + n
  omega

theorem endsWithin_dSymbol (hlt : s.emitted.toNat < total s.freq) (hn : total s.freq ≤ s.emitted.toNat + (n + 1))
    (hr : ruleDecSymbol s = .ret v u) : EndsWithin n (afterDSymbol u) := by
  obtain ⟨hf, _, _, he⟩ := (ruleDecSymbol_frame s).of_ret hr
  have hemitted : u.emitted.toNat = s.emitted.toNat + 1 := by
    have hbound := total_lt s.freq
    rw [he, BitVec.toNat_add]
    exact Nat.mod_eq_of_lt (by simp only [BitVec.toNat_ofNat]; omega)
  rw [← hf.freq] at hlt hn
  unfold afterDSymbol
  split
  next => exact endsWithin_of_idle n rfl
  next hne =>
    show u.emitted.toNat < total u.freq ∧ total u.freq ≤ u.emitted.toNat + n
    omega

end Labels

/-- Every core step brings the RUN one step nearer to its end. -/
theorem coreStep_endsWithin {n : Nat} {s : State} (hin : InputInv s) (h : EndsWithin (n + 1) s) :
    ∃ t, coreStep s = .next t ∧ EndsWithin n t := by
  obtain ⟨t, ht⟩ := coreStep_eq_next (s := s) fun hq => by rw [EndsWithin, hq] at h; exact h.1
  refine ⟨t, ht, ?_⟩
  cases hq : s.seq <;> simp only [coreStep, EndsWithin, hq] at ht h
  case idle => cases ht; exact endsWithin_of_idle n hq
  all_goals refine endsWithin_afterSub ht fun a u hr => ?_
  case eHeader => exact endsWithin_eHeader h hr
  case eBuild => exact endsWithin_eBuild h hr
  case eDerive => exact input_length_le u ((ruleEncDerive_keeps s).of_ret hr) h.2
  case eRewind => exact input_length_le u ((ruleCtrlRewind_keeps s).of_ret hr) h
  case eOpen => exact endsWithin_eOpen h hr
  case eStep => exact endsWithin_eStep hin h hr
  case eClose => exact endsWithin_of_idle n rfl
  case dBuild =>
    obtain ⟨hemitted, htotal, hn⟩ := h
    exact endsWithin_dBuild hemitted htotal hn hr
  case dOpen =>
    obtain ⟨hemitted, htotal, hn⟩ := h
    exact endsWithin_dOpen hemitted htotal hn hr
  case dSymbol => exact endsWithin_dSymbol h.1 h.2 hr

/-- Past the first label no step writes the frequency table (R32). -/
theorem freq_eq_of_endsWithin {n : Nat} {s t : State} (h : EndsWithin n s) (ht : coreStep s = .next t) :
    t.freq = s.freq := by
  by_contra hne
  rcases (freqWritesClearTheValidFlags.2 s t ht hne).2.2 with hq | hq <;> simp [EndsWithin, hq] at h

/-- A core step of a silent host, then the rest of the run. -/
theorem run_succ_of_coreStep {s t : State} (hsilent : s.hostMoves = []) (ht : coreStep s = .next t) (n : Nat) :
    Host.Core.run Sys2Proof.core (n + 1) s = Host.Core.run Sys2Proof.core n t := by
  have hstep : Sys2Proof.core.step s = .next t := (step_silent hsilent).trans ht
  simp only [Host.Core.run, hstep]

/-- A core step leaves the host silent and IN within its bounds. -/
theorem coreStep_keeps_silent {s t : State} (hsilent : s.hostMoves = []) (hin : InputInv s)
    (ht : coreStep s = .next t) : t.hostMoves = [] ∧ InputInv t := by
  obtain ⟨_, _, _, hmoves⟩ := commandsKeepTheHostsRegisters.2 s t ht
  exact ⟨hmoves.trans hsilent, (coreStep_keepsInvs ht).input hin⟩

/-- A RUN that ends within `n` core steps is idle after `n` steps of a silent host, its frequency table unchanged. -/
theorem run_of_endsWithin {n : Nat} {s : State} (hsilent : s.hostMoves = []) (hin : InputInv s)
    (h : EndsWithin n s) : ∃ t, Host.Core.run Sys2Proof.core n s = .next t ∧ t.seq = .idle ∧ t.freq = s.freq := by
  induction n generalizing s with
  | zero => exact ⟨s, rfl, idle_of_endsWithin_zero h, rfl⟩
  | succ n ih =>
    obtain ⟨t, ht, hends⟩ := coreStep_endsWithin hin h
    obtain ⟨hsilent', hin'⟩ := coreStep_keeps_silent hsilent hin ht
    obtain ⟨v, hv, hidle, hfreq⟩ := ih hsilent' hin' hends
    exact ⟨v, (run_succ_of_coreStep hsilent ht n).trans hv, hidle, hfreq.trans (freq_eq_of_endsWithin h ht)⟩

/-- A RUN whose first core step leaves it within `n` steps of its end. -/
theorem run_of_first_step {n : Nat} {s : State} (hsilent : s.hostMoves = []) (hin : InputInv s) {t : State}
    (ht : coreStep s = .next t) (hends : EndsWithin n t) :
    ∃ v, Host.Core.run Sys2Proof.core (n + 1) s = .next v ∧ v.seq = .idle ∧ v.freq = t.freq := by
  obtain ⟨hsilent', hin'⟩ := coreStep_keeps_silent hsilent hin ht
  rw [run_succ_of_coreStep hsilent ht]
  exact run_of_endsWithin hsilent' hin' hends

/-- ENC.RUN's first step counts; what is left does not depend on how the count ends. -/
theorem coreStep_eCount {s : State} (hq : s.seq = .eCount) :
    ∃ t, coreStep s = .next t ∧ EndsWithin (s.input.length + 7) t := by
  obtain ⟨t, ht⟩ := coreStep_eq_next (s := s) fun h => by rw [hq] at h; cases h
  refine ⟨t, ht, ?_⟩
  simp only [coreStep, hq] at ht
  refine endsWithin_afterSub ht fun v u hr => ?_
  exact input_length_le u ((ruleEncCount_keeps s).of_ret hr) le_rfl

/-- DEC.RUN's first step reads the table whose total bounds the steps left. -/
theorem coreStep_dHeader {s : State} (hq : s.seq = .dHeader) :
    ∃ t, coreStep s = .next t ∧ EndsWithin (total t.freq + 2) t := by
  obtain ⟨t, ht⟩ := coreStep_eq_next (s := s) fun h => by rw [hq] at h; cases h
  refine ⟨t, ht, ?_⟩
  simp only [coreStep, hq] at ht
  rcases afterSub_cases ht with ⟨v, u, hr, rfl⟩ | ⟨e, u, _, rfl⟩
  · exact endsWithin_dHeader hr
  · exact endsWithin_of_idle _ rfl

/-- Settles O49: each RUN's first step leaves it within its bound of the end, and every later step brings it one nearer;
DEC.RUN's bound is the total of the header its first step read. -/
theorem everyRunEnds : Obligations.EveryRunEnds := by
  intro s hsilent hin
  constructor
  · intro hq
    obtain ⟨t, ht, hends⟩ := coreStep_eCount hq
    obtain ⟨v, hv, hidle, _⟩ := run_of_first_step hsilent hin ht hends
    exact ⟨v, hv, hidle⟩
  · intro hq
    obtain ⟨t, ht, hends⟩ := coreStep_dHeader hq
    obtain ⟨v, hv, hidle, hfreq⟩ := run_of_first_step hsilent hin ht hends
    exact ⟨_, v, hv, hidle, by rw [hfreq]⟩

end Sys2Proof.Machine

/-!
SUPPORT. The statements of the control family about submitted words and commands, and about LOAD_INPUT
(spec/40_control.md R120 to R127).
-/

namespace Sys2Proof.Machine

theorem not_busy {s : State} (h : s.seq = .idle) : ¬ s.busy = true := Bool.eq_false_iff.mp (busy_eq_false.mpr h)

/-! ## Submission while a RUN is in progress (R121) -/

/-- Every command but CTRL.ABORT ends the RUN with PROTOCOL_ERROR. -/
theorem exec_busy {i : Instr} {s : State} (hi : i ≠ .ctrlAbort) (h : s.seq ≠ .idle) :
    exec i s = .next (endError .protocolError s) := by
  cases hrule : unitRule i with
  | some rule => rw [exec_eq_unitCommand hrule, unitCommand_busy rule h]
  | none =>
    rcases unitRule_eq_none hrule with rfl | rfl | rfl
    · exact absurd rfl hi
    · exact if_pos (busy_eq_true.mpr h)
    · exact if_pos (busy_eq_true.mpr h)

/-- CTRL.ABORT ends the RUN with ABORTED (R125). -/
theorem exec_ctrlAbort_busy {s : State} (h : s.seq ≠ .idle) : exec .ctrlAbort s = .next (endError .aborted s) :=
  congrArg Host.Outcome.next (if_pos (busy_eq_true.mpr h))

/-- A word other than CTRL.ABORT's, legal or not. -/
theorem submitWord_busy {w : CmdWord} {s : State} (hw : w ≠ encode .ctrlAbort) (h : s.seq ≠ .idle) :
    submitWord w s = .next (endError .protocolError { s with cmd := w }) := by
  unfold submitWord
  split
  next i hi =>
    have hne : i ≠ .ctrlAbort := by rintro rfl; exact hw (encode_of_decode hi).1.symm
    exact exec_busy hne h
  next => exact congrArg _ (if_pos (busy_eq_true.mpr h))

/-! ## Submission while idle -/

theorem exec_ctrlAbort_idle {s : State} (h : s.seq = .idle) :
    exec .ctrlAbort s = .next { s with done := true, code := .ok } :=
  congrArg Host.Outcome.next (if_neg (not_busy h))

/-- A RUN command is accepted (R123). -/
theorem runCommand_idle (q : Seq) {s : State} (h : s.seq = .idle) :
    runCommand q s = .next (acceptRun q (startCommand s)) :=
  if_neg (not_busy h)

/-! ## The statements -/

/-- Settles O5: the step is the move's, and the word's command is what is submitted. -/
theorem stepRunsTheDecodedCommand : Obligations.StepRunsTheDecodedCommand := by
  intro s w i rest hmoves hi
  rw [step_move hmoves]
  simp only [hostStep, submitWord, hi]

/-- Settles O7: CTRL.ABORT's word is the one that decodes to it, and every other word is refused while BUSY. -/
theorem wordWhileBusyEndsTheRun : Obligations.WordWhileBusyEndsTheRun := by
  intro s w rest hmoves hbusy
  constructor
  · rintro rfl
    rw [stepRunsTheDecodedCommand s _ .ctrlAbort rest hmoves rfl]
    exact exec_ctrlAbort_busy hbusy
  · intro hw
    rw [step_move hmoves]
    exact submitWord_busy hw hbusy

/-- Settles O8: the two tests of LOAD_INPUT, in order. -/
theorem loadInputMove : Obligations.LoadInputMove := by
  intro s bytes rest hmoves
  rw [step_move hmoves]
  refine ⟨fun hidle hlen => ?_, fun hbusy => if_pos (busy_eq_true.mpr hbusy), fun hidle hlen => ?_⟩
  · exact (if_neg (not_busy hidle)).trans (if_pos hlen)
  · exact (if_neg (not_busy hidle)).trans (if_neg hlen.not_ge)

/-- Settles O13: Abort's two cases. -/
theorem abortStopsTheRun : Obligations.AbortStopsTheRun :=
  ⟨rfl, fun _ => ⟨exec_ctrlAbort_idle, exec_ctrlAbort_busy⟩⟩

/-- Settles O14: a unit command whose rule always ends normally. -/
theorem rewindMovesToTheFirstByte : Obligations.RewindMovesToTheFirstByte :=
  ⟨rfl, fun _ hidle => unitCommand_ret (rule := ruleCtrlRewind) hidle rfl⟩

/-- Settles O15: the acceptance of each RUN. -/
theorem runAcceptance : Obligations.RunAcceptance :=
  fun _ hidle => ⟨runCommand_idle .eCount hidle, runCommand_idle .dHeader hidle⟩

/-- Settles O57: a unit command's rule stops where the tree is honest; CTRL.ABORT and the RUNs have no rule to run. -/
theorem everyCommandEnds : Obligations.EveryCommandEnds := by
  intro i s htree
  by_cases hidle : s.seq = .idle
  · cases hrule : unitRule i with
    | some rule =>
      rw [exec_eq_unitCommand hrule]
      cases hr : rule (startCommand s) with
      | ret v t => exact ⟨_, unitCommand_ret hidle hr⟩
      | raise e t => exact ⟨_, unitCommand_raise hidle hr⟩
      | stuck f => exact absurd htree ((unitRule_stops hrule _).of_stuck hr).2
    | none =>
      rcases unitRule_eq_none hrule with rfl | rfl | rfl
      · exact ⟨_, rfl⟩
      · exact ⟨_, runCommand_idle .eCount hidle⟩
      · exact ⟨_, runCommand_idle .dHeader hidle⟩
  · by_cases hi : i = .ctrlAbort
    · exact ⟨abort s, by rw [hi]; rfl⟩
    · exact ⟨_, exec_busy hi hidle⟩

end Sys2Proof.Machine

/-!
SUPPORT. The bits of a byte as the writer buffers them, and the packing of a bit string into bytes
(spec/10_state.md R28; 20_memory.md R66).
-/

namespace Sys2Proof.Machine

/-! ## The low bits of a byte -/

/-- Bits k−1..0 of a byte, highest first. -/
def lowBits (x : Byte) (k : Nat) : List Bool := (List.range k).map fun i => x.getLsbD (k - 1 - i)

theorem bufferedBits_eq_lowBits (w : Writer) : bufferedBits w = lowBits w.acc w.n.toNat := rfl

@[simp] theorem lowBits_zero (x : Byte) : lowBits x 0 = [] := rfl

@[simp] theorem lowBits_length (x : Byte) (k : Nat) : (lowBits x k).length = k := by simp [lowBits]

theorem lowBits_getD (x : Byte) (k i : Nat) :
    (lowBits x k).getD i false = if i < k then x.getLsbD (k - 1 - i) else false := by
  split
  next hi => simp [lowBits, hi]
  next hi => exact List.getD_eq_default _ _ (by simpa using hi)

/-- Bit 0 of a shifted byte is the new bit; the others stood one place lower (R140). -/
theorem getLsbD_shiftIn (acc : Byte) (b : Bool) {i : Nat} (hi : i < 8) :
    (shiftIn acc b).getLsbD i = if i = 0 then b else acc.getLsbD (i - 1) := by
  rw [shiftIn, BitVec.getLsbD_append]
  cases i with
  | zero => simp
  | succ i => simp [show i < 7 by omega]

/-- A bit shifted in is the newest of the low bits. -/
theorem lowBits_shiftIn (acc : Byte) (b : Bool) {k : Nat} (hk : k < 8) :
    lowBits (shiftIn acc b) (k + 1) = lowBits acc k ++ [b] := by
  have hold : ∀ i ∈ List.range k, (shiftIn acc b).getLsbD (k - i) = acc.getLsbD (k - 1 - i) := by
    intro i hi
    have hlt := List.mem_range.mp hi
    rw [getLsbD_shiftIn acc b (by omega), if_neg (by omega), Nat.sub_right_comm]
  have hnew : (shiftIn acc b).getLsbD (k - k) = b := by
    rw [Nat.sub_self, getLsbD_shiftIn acc b (by decide), if_pos rfl]
  simp only [lowBits, Nat.add_sub_cancel, List.range_succ, List.map_append, List.map_cons, List.map_nil, hnew,
    List.map_congr_left hold]

/-! ## Packed bytes -/

theorem getLsbD_packByte (bits : List Bool) (k : Nat) {i : Nat} (hi : i < 8) :
    (packByte bits k).getLsbD i = bits.getD (8 * k + (7 - i)) false := by
  rw [packByte, BitVec.getLsbD_ofFnLE, dif_pos hi]

/-- Two packed bytes whose eight bits agree. -/
theorem packByte_congr {bits bits' : List Bool} {k k' : Nat}
    (h : ∀ j < 8, bits.getD (8 * k + j) false = bits'.getD (8 * k' + j) false) :
    packByte bits k = packByte bits' k' := by
  refine BitVec.eq_of_getLsbD_eq fun i hi => ?_
  rw [getLsbD_packByte _ _ hi, getLsbD_packByte _ _ hi]
  exact h (7 - i) (by omega)

/-- At most eight low bits, packed, are the byte moved up with zeros below. -/
theorem packByte_lowBits (x : Byte) {k : Nat} (hk : k ≤ 8) : packByte (lowBits x k) 0 = x <<< (8 - k) := by
  refine BitVec.eq_of_getLsbD_eq fun i hi => ?_
  rw [getLsbD_packByte _ _ hi, lowBits_getD, BitVec.getLsbD_shiftLeft]
  by_cases hlow : i < 8 - k
  · rw [if_neg (by omega)]
    simp [hlow]
  · rw [if_pos (by omega), show k - 1 - (8 * 0 + (7 - i)) = i - (8 - k) by omega]
    simp [hi, hlow]

@[simp] theorem packBits_length (bits : List Bool) : (packBits bits).length = (bits.length + 7) / 8 := by
  simp [packBits]

@[simp] theorem packBits_nil : packBits [] = [] := rfl

/-- One to eight bits make one byte. -/
theorem packBits_eq_singleton {bits : List Bool} (hpos : 0 < bits.length) (hle : bits.length ≤ 8) :
    packBits bits = [packByte bits 0] := by
  rw [packBits, show (bits.length + 7) / 8 = 1 by omega]
  rfl

/-- After a whole number of bytes the packing starts afresh. -/
theorem packBits_append {l : List Bool} {m : Nat} (hl : l.length = 8 * m) (bits : List Bool) :
    packBits (l ++ bits) = packBits l ++ packBits bits := by
  have hleft : ∀ k ∈ List.range m, packByte (l ++ bits) k = packByte l k := fun k hk =>
    packByte_congr fun j hj => List.getD_append _ _ _ _ (by have := List.mem_range.mp hk; omega)
  have hright (k : Nat) : packByte (l ++ bits) (m + k) = packByte bits k := packByte_congr fun j hj => by
    rw [List.getD_append_right _ _ _ _ (by omega), show 8 * (m + k) + j - l.length = 8 * k + j by omega]
  have hcount : ((l ++ bits).length + 7) / 8 = m + (bits.length + 7) / 8 := by
    rw [List.length_append]; omega
  have hwhole : (l.length + 7) / 8 = m := by omega
  simp only [packBits, hcount, hwhole, List.range_add, List.map_append, List.map_congr_left hleft, List.map_map,
    Function.comp_def, hright]

end Sys2Proof.Machine

namespace Sys2Proof

/-- IMM8 is the low byte of a word and the rest of the word is 0 there (R91, R100). -/
theorem encode_eq_or (i : Instr) :
    encode i = (i.unitOp ++ 0#15 ++ BitVec.ofBool i.uBit ++ 0#8) ||| i.imm8.setWidth 32 := by
  have append_eq_or (x : BitVec 24) (y : Byte) : x ++ y = (x ++ 0#8) ||| y.setWidth 32 := by
    rw [BitVec.append_def, BitVec.append_def]
    simp
  exact append_eq_or _ _

end Sys2Proof

/-!
SUPPORT. The statements of the writer's family (spec/41_bit_stream_writer.md R140 to R144): first the three commands,
then the packed bytes they leave.
-/

namespace Sys2Proof.Machine

/-- A rule that raises and leaves `seq` IDLE: only CODE and DONE change after it (R120, R281). -/
theorem unitCommand_raise_of_idle {rule : State → UnitRes} {s t : State} {e : StatusCode} (h : s.seq = .idle)
    (hr : rule (startCommand s) = .raise e t) (ht : t.seq = .idle) :
    unitCommand rule s = .next { t with done := true, code := e } := by
  rw [unitCommand_raise h hr, endError_of_idle e ht]

/-! ## BSW.OPEN (R141) -/

theorem exec_bswOpen_closed {s : State} (hidle : s.seq = .idle) (hclosed : s.bsw.isOpen = false) :
    exec .bswOpen s = .next { s with bsw := { isOpen := true, acc := 0#8, n := 0#3 }, done := true, code := .ok } :=
  unitCommand_ret (rule := ruleBswOpen) hidle (if_neg (Bool.eq_false_iff.mp hclosed))

theorem exec_bswOpen_open {s : State} (hidle : s.seq = .idle) (hopen : s.bsw.isOpen = true) :
    exec .bswOpen s = .next { s with done := true, code := .protocolError } :=
  unitCommand_require (rule := ruleBswOpen) hidle (if_pos hopen)

/-- Settles O16: the `require` of R141, met and failed. -/
theorem bswOpenStartsAStream : Obligations.BswOpenStartsAStream :=
  ⟨rfl, fun _ hidle => ⟨exec_bswOpen_closed hidle, exec_bswOpen_open hidle⟩⟩

/-! ## BSW.PUTBIT (R140, R142) -/

/-- The word of BSW.PUTBIT holds its operand in IMM8, in range or not. -/
theorem encode_bswPutbit (imm : Byte) : encode (.bswPutbit imm) = 0x11000000#32 ||| imm.setWidth 32 := by
  have hword : 0x11#8 ++ 0#15 ++ BitVec.ofBool false ++ 0#8 = 0x11000000#32 := by decide
  exact (encode_eq_or _).trans (congrArg (· ||| imm.setWidth 32) hword)

/-- An operand above 1 breaks the row's constraint (R93, R95). -/
theorem encode_bswPutbit_not_legal {imm : Byte} (himm : 1 < imm.toNat) :
    legalWord (encode (.bswPutbit imm)) = false := by
  refine Bool.eq_false_iff.mpr fun hlegal => ?_
  obtain ⟨i, hi⟩ := (legalWordsAreTheDecodedOnes _).mp hlegal
  have hputbit : decodePutbit (encode (.bswPutbit imm)) = .ok i := by
    rwa [decode, unitOpField_encode] at hi
  have hrefused : ¬ imm.toNat ≤ 1 := himm.not_ge
  simp [decodePutbit, Instr.imm8, hrefused] at hputbit

/-! What the rule does with a bit while the writer is open. -/

theorem ruleBswPutbit_buffer (imm : Byte) {s : State} (hopen : s.bsw.isOpen = true) (hn : s.bsw.n ≠ 7#3) :
    ruleBswPutbit imm s = .ret none
      { s with bsw := { isOpen := true, acc := shiftIn s.bsw.acc (bitOperand imm), n := s.bsw.n + 1#3 } } := by
  simp [ruleBswPutbit, putBit_buffer _ hn, hopen]

theorem ruleBswPutbit_sent (imm : Byte) {s : State} (hopen : s.bsw.isOpen = true) (hn : s.bsw.n = 7#3)
    (hd : s.ioDraws.head? ≠ some .ioerr) :
    ruleBswPutbit imm s = .ret none
      { s with bsw := { isOpen := true, acc := 0#8, n := 0#3 }, out := s.out ++ [shiftIn s.bsw.acc (bitOperand imm)]
               ioDraws := s.ioDraws.tail } := by
  simp [ruleBswPutbit, putBit_sent _ hn hd, hopen]

theorem ruleBswPutbit_lost (imm : Byte) {s : State} (hopen : s.bsw.isOpen = true) (hn : s.bsw.n = 7#3)
    (hd : s.ioDraws.head? = some .ioerr) :
    ruleBswPutbit imm s = .raise .ioError
      { s with bsw := { isOpen := false, acc := 0#8, n := 0#3 }, ioDraws := s.ioDraws.tail } := by
  rw [ruleBswPutbit, if_pos hopen, putBit_lost _ hn hd, Res.bind_raise]

section Putbit

variable {s : State} (imm : Byte) (hidle : s.seq = .idle)
include hidle

theorem exec_bswPutbit_closed (hclosed : s.bsw.isOpen = false) :
    exec (.bswPutbit imm) s = .next { s with done := true, code := .protocolError } :=
  unitCommand_require (rule := ruleBswPutbit imm) hidle (if_neg (Bool.eq_false_iff.mp hclosed))

/-- Bits 1 to 7 of a byte. -/
theorem exec_bswPutbit_buffer (hopen : s.bsw.isOpen = true) (hn : s.bsw.n ≠ 7#3) :
    exec (.bswPutbit imm) s = .next
      { s with bsw := { isOpen := true, acc := shiftIn s.bsw.acc (bitOperand imm), n := s.bsw.n + 1#3 }
               done := true, code := .ok } :=
  unitCommand_ret hidle (ruleBswPutbit_buffer imm (s := startCommand s) hopen hn)

/-- The 8th bit, its byte sent. -/
theorem exec_bswPutbit_sent (hopen : s.bsw.isOpen = true) (hn : s.bsw.n = 7#3) (hd : s.ioDraws.head? ≠ some .ioerr) :
    exec (.bswPutbit imm) s = .next
      { s with bsw := { isOpen := true, acc := 0#8, n := 0#3 }, out := s.out ++ [shiftIn s.bsw.acc (bitOperand imm)]
               ioDraws := s.ioDraws.tail, done := true, code := .ok } :=
  unitCommand_ret hidle (ruleBswPutbit_sent imm (s := startCommand s) hopen hn hd)

/-- The 8th bit, its byte lost. -/
theorem exec_bswPutbit_lost (hopen : s.bsw.isOpen = true) (hn : s.bsw.n = 7#3) (hd : s.ioDraws.head? = some .ioerr) :
    exec (.bswPutbit imm) s = .next
      { s with bsw := { isOpen := false, acc := 0#8, n := 0#3 }, ioDraws := s.ioDraws.tail
               done := true, code := .ioError } :=
  unitCommand_raise_of_idle hidle (ruleBswPutbit_lost imm (s := startCommand s) hopen hn hd) hidle

end Putbit

/-- Settles O17: one lemma for each outcome of R142; the operand's range is that of the word's row. -/
theorem bswPutbitAppendsOneBit : Obligations.BswPutbitAppendsOneBit :=
  ⟨fun imm _ => encode_bswPutbit imm, fun imm himm => encode_bswPutbit imm ▸ encode_bswPutbit_not_legal himm,
    fun _ imm hidle => ⟨exec_bswPutbit_closed imm hidle, exec_bswPutbit_buffer imm hidle,
      exec_bswPutbit_sent imm hidle, exec_bswPutbit_lost imm hidle⟩⟩

/-! ## BSW.CLOSE (R143)

First what the rule does with buffered bits. -/

theorem ruleBswClose_sent {s : State} (hopen : s.bsw.isOpen = true) (hn : s.bsw.n ≠ 0#3)
    (hd : s.ioDraws.head? ≠ some .ioerr) :
    ruleBswClose s = .ret none
      { s with bsw := Writer.closed, out := s.out ++ [paddedByte s.bsw.acc s.bsw.n], ioDraws := s.ioDraws.tail } := by
  rw [ruleBswClose, if_pos hopen, if_neg hn, outWrite_ok _ (by simpa using hd)]

theorem ruleBswClose_lost {s : State} (hopen : s.bsw.isOpen = true) (hn : s.bsw.n ≠ 0#3)
    (hd : s.ioDraws.head? = some .ioerr) :
    ruleBswClose s = .raise .ioError { s with bsw := Writer.closed, ioDraws := s.ioDraws.tail } := by
  rw [ruleBswClose, if_pos hopen, if_neg hn, outWrite_ioerr _ (by simpa using hd)]

section Close

variable {s : State} (hidle : s.seq = .idle)
include hidle

theorem exec_bswClose_closed (hclosed : s.bsw.isOpen = false) :
    exec .bswClose s = .next { s with done := true, code := .protocolError } :=
  unitCommand_require (rule := ruleBswClose) hidle (if_neg (Bool.eq_false_iff.mp hclosed))

/-- Nothing is buffered, so nothing is written. -/
theorem exec_bswClose_empty (hopen : s.bsw.isOpen = true) (hn : s.bsw.n = 0#3) :
    exec .bswClose s = .next { s with bsw := Writer.closed, done := true, code := .ok } :=
  unitCommand_ret (rule := ruleBswClose) hidle ((if_pos hopen).trans (if_pos hn))

/-- The final byte, written. -/
theorem exec_bswClose_sent (hopen : s.bsw.isOpen = true) (hn : s.bsw.n ≠ 0#3) (hd : s.ioDraws.head? ≠ some .ioerr) :
    exec .bswClose s = .next
      { s with bsw := Writer.closed, out := s.out ++ [paddedByte s.bsw.acc s.bsw.n], ioDraws := s.ioDraws.tail
               done := true, code := .ok } :=
  unitCommand_ret hidle (ruleBswClose_sent (s := startCommand s) hopen hn hd)

/-- The final byte, lost. -/
theorem exec_bswClose_lost (hopen : s.bsw.isOpen = true) (hn : s.bsw.n ≠ 0#3) (hd : s.ioDraws.head? = some .ioerr) :
    exec .bswClose s = .next
      { s with bsw := Writer.closed, ioDraws := s.ioDraws.tail, done := true, code := .ioError } :=
  unitCommand_raise_of_idle hidle (ruleBswClose_lost (s := startCommand s) hopen hn hd) hidle

end Close

/-- Settles O18: one lemma for each outcome of R143. -/
theorem bswCloseEndsTheStream : Obligations.BswCloseEndsTheStream :=
  ⟨rfl, fun _ hidle => ⟨exec_bswClose_closed hidle, exec_bswClose_empty hidle, exec_bswClose_sent hidle,
    exec_bswClose_lost hidle⟩⟩

/-! ## The writer law (R144) -/

theorem commands_cons {i : Instr} {s t : State} (h : exec i s = .next t) (rest : List Instr) :
    commands (i :: rest) s = commands rest t := by
  rw [commands, h]

/-- The operand a bit is submitted with is that bit. -/
theorem bitOperand_ite (b : Bool) : bitOperand (if b then 1 else 0) = b := by cases b <;> rfl

theorem bufferedBits_shiftIn {w : Writer} (b : Bool) (hn : w.n ≠ 7#3) :
    bufferedBits { isOpen := true, acc := shiftIn w.acc b, n := w.n + 1#3 } = bufferedBits w ++ [b] := by
  have hsucc : (w.n + 1#3).toNat = w.n.toNat + 1 := by bv_omega
  rw [bufferedBits_eq_lowBits, bufferedBits_eq_lowBits, hsucc, lowBits_shiftIn _ _ (w.n.isLt)]

/-- Seven buffered bits and the 8th make the byte that is sent. -/
theorem packBits_bufferedBits_append {w : Writer} (b : Bool) (hn : w.n = 7#3) :
    packBits (bufferedBits w ++ [b]) = [shiftIn w.acc b] := by
  rw [bufferedBits_eq_lowBits, hn, ← lowBits_shiftIn _ _ (by decide), packBits_eq_singleton (by simp) (by simp),
    packByte_lowBits _ (by decide)]
  simp

/-- The bits buffered at BSW.CLOSE make the padded byte. -/
theorem packBits_bufferedBits {w : Writer} (hn : w.n ≠ 0#3) : packBits (bufferedBits w) = [paddedByte w.acc w.n] := by
  have hlt := w.n.isLt
  have hpos : 0 < w.n.toNat := by bv_omega
  rw [bufferedBits_eq_lowBits, packBits_eq_singleton (by simpa using hpos) (by simp; omega),
    packByte_lowBits _ (by omega), paddedByte]

/-- The end of a stream that sent these bytes: the writer closed, the bytes in OUT, one draw used for each. -/
def streamEnded (bytes : List Byte) (s : State) : State :=
  { s with bsw := Writer.closed, out := s.out ++ bytes, ioDraws := s.ioDraws.drop bytes.length
           done := true, code := .ok }

/-- The host draws OK at the next access. -/
theorem allDrawsOk_head {s : State} (h : allDrawsOk s) : s.ioDraws.head? ≠ some .ioerr :=
  drawsOk_head (n := 0) fun d hd => h d (List.mem_of_mem_take hd)

/-- BSW.CLOSE sends what is buffered as the last byte, if anything is. -/
theorem exec_bswClose_streamEnded {s : State} (hidle : s.seq = .idle) (hopen : s.bsw.isOpen = true)
    (hok : allDrawsOk s) :
    exec .bswClose s = .next (streamEnded (packBits (bufferedBits s.bsw)) s) := by
  by_cases hn : s.bsw.n = 0#3
  · have hnone : bufferedBits s.bsw = [] := by simp [bufferedBits_eq_lowBits, hn]
    rw [exec_bswClose_empty hidle hopen hn, hnone]
    simp [streamEnded]
  · rw [exec_bswClose_sent hidle hopen hn (allDrawsOk_head hok), packBits_bufferedBits hn]
    simp [streamEnded]

/-- From an open writer, bits and BSW.CLOSE send the packing of the bits already buffered followed by the new ones. -/
theorem commands_putbits_close {s : State} (bits : List Bool) (hidle : s.seq = .idle) (hopen : s.bsw.isOpen = true)
    (hok : allDrawsOk s) :
    commands (bits.map (fun b => .bswPutbit (if b then 1 else 0)) ++ [.bswClose]) s =
      .next (streamEnded (packBits (bufferedBits s.bsw ++ bits)) s) := by
  induction bits generalizing s with
  | nil =>
    rw [List.append_nil]
    exact commands_cons (exec_bswClose_streamEnded hidle hopen hok) []
  | cons b bits ih =>
    rw [List.map_cons, List.cons_append, List.append_cons (bufferedBits s.bsw)]
    by_cases hn : s.bsw.n = 7#3
    · have hsent := exec_bswPutbit_sent (if b then 1 else 0) hidle hopen hn (allDrawsOk_head hok)
      have hlength : (bufferedBits s.bsw ++ [b]).length = 8 * 1 := by simp [bufferedBits_eq_lowBits, hn]
      rw [commands_cons hsent, ih, packBits_append hlength, packBits_bufferedBits_append b hn, bitOperand_ite]
      · simp [streamEnded, bufferedBits_eq_lowBits]
      · exact hidle
      · rfl
      · exact fun d hd => hok d (List.mem_of_mem_tail hd)
    · have hbuffer := exec_bswPutbit_buffer (if b then 1 else 0) hidle hopen hn
      rw [commands_cons hbuffer, ih, bitOperand_ite, bufferedBits_shiftIn b hn]
      · rfl
      · exact hidle
      · rfl
      · exact hok

/-- Settles O19: BSW.OPEN leaves an open writer with nothing buffered. -/
theorem writerPacksTheBits : Obligations.WriterPacksTheBits := by
  intro s bits hidle hclosed hok
  refine (commands_cons (exec_bswOpen_closed hidle hclosed) _).trans ?_
  refine (commands_putbits_close (s := { s with bsw := _, done := true, code := .ok }) bits hidle rfl hok).trans ?_
  simp [streamEnded, bufferedBits_eq_lowBits, Writer.closed]

end Sys2Proof.Machine

/-!
SUPPORT. The reader's commands (spec/42_bit_stream_reader.md R160 to R164): NextBit branch by branch, then what each
command does with it.
-/

namespace Sys2Proof.Machine

/-! ## BSR.OPEN (R161) -/

theorem exec_bsrOpen_open {s : State} (u : Bool) (hidle : s.seq = .idle) (hopen : s.bsr.isOpen = true) :
    exec (.bsrOpen u) s = .next { s with done := true, code := .protocolError } :=
  unitCommand_require (rule := ruleBsrOpen u) hidle (if_pos hopen)

theorem exec_bsrOpen_closed {s : State} (u : Bool) (hidle : s.seq = .idle) (hclosed : s.bsr.isOpen = false) :
    exec (.bsrOpen u) s = .next { s with bsr := openedReader u s.arg, done := true, code := .ok } :=
  unitCommand_ret (rule := ruleBsrOpen u) hidle (if_neg (Bool.eq_false_iff.mp hclosed))

/-- Settles O21: the `require` of R161, failed and met. -/
theorem bsrOpenStartsAReader : Obligations.BsrOpenStartsAReader :=
  ⟨rfl, rfl, fun _ u hidle => ⟨exec_bsrOpen_open u hidle, exec_bsrOpen_closed u hidle⟩⟩

/-! ## NextBit (R160) -/

section NextBit

variable {s : State} (hended : s.bsr.ended = false)

/-- An unlimited reader, or one whose count is not its target, has not met its target. -/
theorem not_at_target (hmore : s.bsr.unlimited = true ∨ s.bsr.count ≠ s.bsr.target) :
    ¬ (s.bsr.unlimited = false ∧ s.bsr.count = s.bsr.target) := fun ⟨hunl, htarget⟩ =>
  hmore.elim (fun h => Bool.false_ne_true (hunl.symm.trans h)) (· htarget)

include hended

theorem nextBit_target (hunl : s.bsr.unlimited = false) (htarget : s.bsr.count = s.bsr.target) :
    nextBit s = .ret none { s with bsr := { s.bsr with ended := true } } :=
  (if_neg (Bool.eq_false_iff.mp hended)).trans (if_pos ⟨hunl, htarget⟩)

variable (hmore : s.bsr.unlimited = true ∨ s.bsr.count ≠ s.bsr.target)
include hmore

theorem nextBit_buffered (hpos : s.bsr.pos ≠ 8) :
    nextBit s = .ret (some (readerBit s.bsr))
      { s with bsr := { s.bsr with pos := s.bsr.pos + 1, count := s.bsr.count + 1#64 } } := by
  rw [nextBit, if_neg (Bool.eq_false_iff.mp hended), if_neg (not_at_target hmore), if_neg hpos, yieldBit]

theorem nextBit_ioerr (hpos : s.bsr.pos = 8) (hd : s.ioDraws.head? = some .ioerr) :
    nextBit s = .raise .ioError { s with ioDraws := s.ioDraws.tail } := by
  rw [nextBit, if_neg (Bool.eq_false_iff.mp hended), if_neg (not_at_target hmore), if_pos hpos, inRead_ioerr hd]

theorem nextBit_eof (hpos : s.bsr.pos = 8) (hd : s.ioDraws.head? ≠ some .ioerr)
    (hb : s.input[s.inPos.toNat]? = none) :
    nextBit s = .ret none { s with bsr := { s.bsr with ended := true }, ioDraws := s.ioDraws.tail } := by
  rw [nextBit, if_neg (Bool.eq_false_iff.mp hended), if_neg (not_at_target hmore), if_pos hpos, inRead_eof hd hb]
  rfl

theorem nextBit_byte {b : Byte} (hpos : s.bsr.pos = 8) (hd : s.ioDraws.head? ≠ some .ioerr)
    (hb : s.input[s.inPos.toNat]? = some b) :
    nextBit s = .ret (some (b.getLsbD 7))
      { s with bsr := { s.bsr with byte := b, pos := 1, count := s.bsr.count + 1#64 }
               inPos := s.inPos + 1#64, ioDraws := s.ioDraws.tail } := by
  rw [nextBit, if_neg (Bool.eq_false_iff.mp hended), if_neg (not_at_target hmore), if_pos hpos, inRead_byte hd hb]
  rfl

end NextBit

/-! ## BSR.NEXT (R163) -/

/-- A bit in RESULT is 1 or 0 (R163). -/
theorem nextResult_some (b : Bool) : nextResult (some b) = if b then 1#64 else 0#64 := by cases b <;> rfl

theorem ruleBsrNext_ret {s t : State} {r : Option Bool} (hopen : s.bsr.isOpen = true) (h : nextBit s = .ret r t) :
    ruleBsrNext s = .ret (some (nextResult r)) t := by
  rw [ruleBsrNext, if_pos hopen, h, Res.bind_ret]

theorem ruleBsrNext_raise {s t : State} {e : StatusCode} (hopen : s.bsr.isOpen = true) (h : nextBit s = .raise e t) :
    ruleBsrNext s = .raise e t := by
  rw [ruleBsrNext, if_pos hopen, h, Res.bind_raise]

theorem exec_bsrNext_closed {s : State} (hidle : s.seq = .idle) (hclosed : s.bsr.isOpen = false) :
    exec .bsrNext s = .next { s with done := true, code := .protocolError } :=
  unitCommand_require (rule := ruleBsrNext) hidle (if_neg (Bool.eq_false_iff.mp hclosed))

section Next

variable {s : State} (hidle : s.seq = .idle) (hopen : s.bsr.isOpen = true)
include hidle hopen

/-- A NextBit that ends normally gives RESULT its bit or END. -/
theorem exec_bsrNext_ret {r : Option Bool} {t : State} (h : nextBit (startCommand s) = .ret r t) :
    exec .bsrNext s = .next { t with result := nextResult r, done := true, code := .ok } :=
  unitCommand_ret hidle (ruleBsrNext_ret (s := startCommand s) hopen h)

theorem exec_bsrNext_ended (hended : s.bsr.ended = true) :
    exec .bsrNext s = .next { s with result := 2#64, done := true, code := .ok } :=
  exec_bsrNext_ret hidle hopen (nextBit_ended (s := startCommand s) hended)

variable (hended : s.bsr.ended = false)
include hended

theorem exec_bsrNext_target (hunl : s.bsr.unlimited = false) (htarget : s.bsr.count = s.bsr.target) :
    exec .bsrNext s = .next
      { s with bsr := { s.bsr with ended := true }, result := 2#64, done := true, code := .ok } :=
  exec_bsrNext_ret hidle hopen (nextBit_target (s := startCommand s) hended hunl htarget)

variable (hmore : s.bsr.unlimited = true ∨ s.bsr.count ≠ s.bsr.target)
include hmore

/-- A bit is left of the last byte fetched. -/
theorem exec_bsrNext_buffered (hpos : s.bsr.pos ≠ 8) :
    exec .bsrNext s = .next
      { s with bsr := { s.bsr with pos := s.bsr.pos + 1, count := s.bsr.count + 1#64 }
               result := nextResult (some (readerBit s.bsr)), done := true, code := .ok } :=
  exec_bsrNext_ret hidle hopen (nextBit_buffered (s := startCommand s) hended hmore hpos)

/-- The fetch fails. -/
theorem exec_bsrNext_ioerr (hpos : s.bsr.pos = 8) (hd : s.ioDraws.head? = some .ioerr) :
    exec .bsrNext s = .next { s with ioDraws := s.ioDraws.tail, done := true, code := .ioError } := by
  have hraise := nextBit_ioerr (s := startCommand s) hended hmore hpos hd
  exact unitCommand_raise_of_idle hidle (ruleBsrNext_raise (s := startCommand s) hopen hraise) hidle

/-- IN has run out. -/
theorem exec_bsrNext_eof (hpos : s.bsr.pos = 8) (hd : s.ioDraws.head? ≠ some .ioerr)
    (hb : s.input[s.inPos.toNat]? = none) :
    exec .bsrNext s = .next
      { s with bsr := { s.bsr with ended := true }, ioDraws := s.ioDraws.tail
               result := 2#64, done := true, code := .ok } :=
  exec_bsrNext_ret hidle hopen (nextBit_eof (s := startCommand s) hended hmore hpos hd hb)

/-- A byte is fetched, and its first bit is yielded. -/
theorem exec_bsrNext_byte {b : Byte} (hpos : s.bsr.pos = 8) (hd : s.ioDraws.head? ≠ some .ioerr)
    (hb : s.input[s.inPos.toNat]? = some b) :
    exec .bsrNext s = .next
      { s with bsr := { s.bsr with byte := b, pos := 1, count := s.bsr.count + 1#64 }
               inPos := s.inPos + 1#64, ioDraws := s.ioDraws.tail
               result := nextResult (some (b.getLsbD 7)), done := true, code := .ok } :=
  exec_bsrNext_ret hidle hopen (nextBit_byte (s := startCommand s) hended hmore hpos hd hb)

end Next

/-- Settles O22: one lemma for each outcome of R163. -/
theorem bsrNextYieldsTheNextBit : Obligations.BsrNextYieldsTheNextBit := by
  refine ⟨rfl, fun s hidle => ⟨exec_bsrNext_closed hidle, exec_bsrNext_ended hidle, exec_bsrNext_target hidle,
    fun hopen hended hmore => ⟨fun hpos => ?_, exec_bsrNext_ioerr hidle hopen hended hmore,
      exec_bsrNext_eof hidle hopen hended hmore, fun b hpos hd hb => ?_⟩⟩⟩
  · rw [exec_bsrNext_buffered hidle hopen hended hmore hpos, nextResult_some, readerBit]
  · rw [exec_bsrNext_byte hidle hopen hended hmore hpos hd hb, nextResult_some]

/-! ## BSR.CLOSE (R164) -/

theorem exec_bsrClose_closed {s : State} (hidle : s.seq = .idle) (hclosed : s.bsr.isOpen = false) :
    exec .bsrClose s = .next { s with done := true, code := .protocolError } :=
  unitCommand_require (rule := ruleBsrClose) hidle (if_neg (Bool.eq_false_iff.mp hclosed))

theorem exec_bsrClose_open {s : State} (hidle : s.seq = .idle) (hopen : s.bsr.isOpen = true) :
    exec .bsrClose s = .next { s with bsr := Reader.closed, done := true, code := .ok } :=
  unitCommand_ret (rule := ruleBsrClose) hidle (if_pos hopen)

/-- Settles O23: the `require` of R164, failed and met. -/
theorem bsrCloseDiscardsTheReader : Obligations.BsrCloseDiscardsTheReader :=
  ⟨rfl, fun _ hidle => ⟨exec_bsrClose_closed hidle, exec_bsrClose_open hidle⟩⟩

end Sys2Proof.Machine

/-!
SUPPORT. The reader law (spec/42_bit_stream_reader.md R162). The bits the reader can still yield are a list, of which
each BSR.NEXT takes the head.
-/

namespace Sys2Proof.Machine

/-! ## The bits of a byte string -/

/-- The highest of the low bits comes first. -/
theorem lowBits_succ (x : Byte) (k : Nat) : lowBits x (k + 1) = x.getLsbD k :: lowBits x k := by
  simp only [lowBits, List.range_succ_eq_map, List.map_cons, List.map_map, Function.comp_def, Nat.add_sub_cancel,
    Nat.sub_zero, Nat.succ_eq_add_one, Nat.sub_add_eq, Nat.sub_right_comm]

theorem bitsOfBytes_cons (b : Byte) (bs : List Byte) : bitsOfBytes (b :: bs) = lowBits b 8 ++ bitsOfBytes bs := rfl

@[simp] theorem bitsOfBytes_length (bs : List Byte) : (bitsOfBytes bs).length = 8 * bs.length := by
  induction bs with
  | nil => rfl
  | cons b bs ih => rw [bitsOfBytes_cons, List.length_append, lowBits_length, ih, List.length_cons]; omega

/-! ## The bits a reader can still yield -/

/-- The first bits of a list, as many as the reader may still yield: none once it has ended, those short of the target
when it is limited (R160). -/
def Reader.allowed (r : Reader) (bits : List Bool) : List Bool :=
  if r.ended then [] else if r.unlimited then bits else bits.take (r.target.toNat - r.count.toNat)

/-- The bits left of the last byte fetched, then those of the unread bytes. -/
def State.bitsAhead (s : State) : List Bool := lowBits s.bsr.byte (8 - s.bsr.pos.val) ++ bitsOfBytes s.unread

/-- The bits that BSR.NEXT will yield before END. -/
def State.readable (s : State) : List Bool := s.bsr.allowed s.bitsAhead

/-- The place in IN of the next bit, plus 8: it is bit `bsr_pos` of the byte before in_pos (R160). -/
def State.bitAddress (s : State) : Nat := 8 * s.inPos.toNat + s.bsr.pos.val

@[simp] theorem Reader.allowed_nil (r : Reader) : r.allowed [] = [] := by simp [Reader.allowed]

theorem Reader.allowed_of_ended {r : Reader} (h : r.ended = true) (bits : List Bool) : r.allowed bits = [] :=
  if_pos h

theorem Reader.allowed_at_target {r : Reader} (hunl : r.unlimited = false) (htarget : r.count = r.target)
    (bits : List Bool) : r.allowed bits = [] := by
  simp [Reader.allowed, hunl, htarget]

/-- Short of END and of the target a bit is allowed, and once it is counted so are those after it as before. -/
theorem Reader.allowed_cons {r : Reader} (hended : r.ended = false) (hmore : r.unlimited = true ∨ r.count ≠ r.target)
    (hle : r.unlimited = false → r.count.toNat ≤ r.target.toNat) (x : Byte) (p : Fin 9) (b : Bool) (bits : List Bool) :
    r.allowed (b :: bits) = b :: { r with byte := x, pos := p, count := r.count + 1#64 : Reader }.allowed bits := by
  cases hunl : r.unlimited with
  | true => simp [Reader.allowed, hended, hunl]
  | false =>
    have hne : r.count ≠ r.target := hmore.resolve_left (by simp [hunl])
    have hleft : r.target.toNat - r.count.toNat = r.target.toNat - (r.count + 1#64).toNat + 1 := by
      have hcount := hle hunl
      bv_omega
    simp [Reader.allowed, hended, hunl, hleft]

/-- A position that is not 8 has a next one. -/
theorem val_pos_succ {p : Fin 9} (h : p ≠ 8) : (p + 1).val = p.val + 1 := Fin.val_add_one_of_lt' (by omega)

/-- With no bit left of the last byte, the bits ahead are the unread ones. -/
theorem bitsAhead_of_pos_eq {s : State} (hpos : s.bsr.pos = 8) : s.bitsAhead = bitsOfBytes s.unread := by
  simp [State.bitsAhead, hpos]

theorem bitsAhead_eof {s : State} (hpos : s.bsr.pos = 8) (hb : s.input[s.inPos.toNat]? = none) : s.bitsAhead = [] := by
  have hunread : s.unread = [] := List.drop_eq_nil_of_le (List.getElem?_eq_none_iff.mp hb)
  rw [bitsAhead_of_pos_eq hpos, hunread]
  rfl

/-- NextBit's buffered bit is the first ahead. -/
theorem bitsAhead_buffered {s : State} (hpos : s.bsr.pos ≠ 8) (c : Word64) :
    s.bitsAhead = readerBit s.bsr ::
      State.bitsAhead { s with bsr := { s.bsr with pos := s.bsr.pos + 1, count := c } } := by
  have hleft : 8 - s.bsr.pos.val = 7 - s.bsr.pos.val + 1 := by omega
  have hrest : 8 - (s.bsr.pos + 1).val = 7 - s.bsr.pos.val := by rw [val_pos_succ hpos]; omega
  simp only [State.bitsAhead, hleft, hrest, lowBits_succ, readerBit, List.cons_append, State.unread]

/-- in_pos after a byte is read. -/
theorem inPos_succ {s : State} {b : Byte} (hin : InputInv s) (hb : s.input[s.inPos.toNat]? = some b) :
    (s.inPos + 1#64).toNat = s.inPos.toNat + 1 := by
  have hlt := (List.getElem?_eq_some_iff.mp hb).1
  have hmax : s.input.length ≤ 2 ^ 64 - 1 := hin.2
  bv_omega

/-- With none buffered it is the first of the next byte. -/
theorem bitsAhead_byte {s : State} {b : Byte} (hin : InputInv s) (hpos : s.bsr.pos = 8)
    (hb : s.input[s.inPos.toNat]? = some b) (c : Word64) (ds : List IoDraw) :
    s.bitsAhead = b.getLsbD 7 ::
      State.bitsAhead { s with bsr := { s.bsr with byte := b, pos := 1, count := c }
                               inPos := s.inPos + 1#64, ioDraws := ds } := by
  rw [bitsAhead_of_pos_eq hpos, unread_eq_cons hin hb ds, bitsOfBytes_cons, lowBits_succ]
  rfl

/-! ## One BSR.NEXT -/

/-- An open reader in an idle block, with every draw OK: it can take BSR.NEXT. -/
structure ReaderReady (s : State) : Prop where
  idle : s.seq = .idle
  isOpen : s.bsr.isOpen = true
  pos_ne_zero : s.bsr.pos ≠ 0
  drawsOk : allDrawsOk s
  input : InputInv s
  reader : ReaderInv s

/-- What `j + 1` BSR.NEXTs from `s` leave: RESULT holds bit `j` of the readable ones or END, the later ones are still
readable, and the reader has moved by as many bits as it yielded. -/
structure NextsDone (j : Nat) (s t : State) : Prop where
  ready : ReaderReady t
  code : t.code = .ok
  result : t.result = nextResult s.readable[j]?
  readable : t.readable = s.readable.drop (j + 1)
  address : t.bitAddress + t.readable.length = s.bitAddress + s.readable.length

/-- BSR.NEXT at END: no bit was readable and none is, and the reader stays where it is. -/
theorem nextsDone_end {s t : State} (ht : ReaderReady t) (hcode : t.code = .ok) (hresult : t.result = nextResult none)
    (hempty : s.readable = []) (hempty' : t.readable = []) (haddress : t.bitAddress = s.bitAddress) :
    NextsDone 0 s t where
  ready := ht
  code := hcode
  result := by rw [hempty]; exact hresult
  readable := by rw [hempty]; exact hempty'
  address := by rw [hempty, hempty', haddress]

/-- BSR.NEXT that yields a bit: it is the first that was readable, and the reader moves by one. -/
theorem nextsDone_bit {s t : State} {b : Bool} (ht : ReaderReady t) (hcode : t.code = .ok)
    (hresult : t.result = nextResult (some b)) (hreadable : s.readable = b :: t.readable)
    (haddress : t.bitAddress = s.bitAddress + 1) : NextsDone 0 s t where
  ready := ht
  code := hcode
  result := by rw [hreadable]; exact hresult
  readable := by rw [hreadable]; rfl
  address := by rw [hreadable, haddress, List.length_cons]; omega

/-- A command keeps the reader ready when it keeps it open, off position 0, and the later draws OK. -/
theorem ReaderReady.of_exec {i : Instr} {s t : State} (hs : ReaderReady s) (hexec : exec i s = .next t)
    (hidle : t.seq = .idle) (hopen : t.bsr.isOpen = true) (hzero : t.bsr.pos ≠ 0) (hok : allDrawsOk t) :
    ReaderReady t :=
  ⟨hidle, hopen, hzero, hok, (exec_keepsInvs hexec).input hs.input, (exec_keepsInvs hexec).reader hs.reader⟩

section Ready

variable {s : State} (hs : ReaderReady s)
include hs

theorem exec_bsrNext_ready_ended (hended : s.bsr.ended = true) :
    ∃ t, exec .bsrNext s = .next t ∧ NextsDone 0 s t := by
  have hexec := exec_bsrNext_ended hs.idle hs.isOpen hended
  have ht := hs.of_exec hexec hs.idle hs.isOpen hs.pos_ne_zero hs.drawsOk
  exact ⟨_, hexec, nextsDone_end ht rfl rfl (Reader.allowed_of_ended hended _) (Reader.allowed_of_ended hended _) rfl⟩

variable (hended : s.bsr.ended = false)
include hended

theorem exec_bsrNext_ready_target (hunl : s.bsr.unlimited = false) (htarget : s.bsr.count = s.bsr.target) :
    ∃ t, exec .bsrNext s = .next t ∧ NextsDone 0 s t := by
  have hexec := exec_bsrNext_target hs.idle hs.isOpen hended hunl htarget
  have ht := hs.of_exec hexec hs.idle hs.isOpen hs.pos_ne_zero hs.drawsOk
  exact ⟨_, hexec,
    nextsDone_end ht rfl rfl (Reader.allowed_at_target hunl htarget _) (Reader.allowed_of_ended rfl _) rfl⟩

variable (hmore : s.bsr.unlimited = true ∨ s.bsr.count ≠ s.bsr.target)
include hmore

theorem exec_bsrNext_ready_buffered (hpos : s.bsr.pos ≠ 8) : ∃ t, exec .bsrNext s = .next t ∧ NextsDone 0 s t := by
  have hexec := exec_bsrNext_buffered hs.idle hs.isOpen hended hmore hpos
  have hsucc := val_pos_succ hpos
  have ht := hs.of_exec hexec hs.idle hs.isOpen (Fin.val_ne_iff.mp (hsucc ▸ Nat.succ_ne_zero _)) hs.drawsOk
  refine ⟨_, hexec, nextsDone_bit ht rfl rfl ?_ ?_⟩
  · rw [State.readable, bitsAhead_buffered hpos (s.bsr.count + 1#64),
      Reader.allowed_cons hended hmore (hs.reader.2 hs.isOpen) s.bsr.byte (s.bsr.pos + 1)]
    rfl
  · simp only [State.bitAddress, hsucc, Nat.add_assoc]

theorem exec_bsrNext_ready_fetch (hpos : s.bsr.pos = 8) : ∃ t, exec .bsrNext s = .next t ∧ NextsDone 0 s t := by
  have hd := allDrawsOk_head hs.drawsOk
  have htail : ∀ d ∈ s.ioDraws.tail, d = .ok := fun d hmem => hs.drawsOk d (List.mem_of_mem_tail hmem)
  cases hb : s.input[s.inPos.toNat]? with
  | none =>
    have hexec := exec_bsrNext_eof hs.idle hs.isOpen hended hmore hpos hd hb
    have ht := hs.of_exec hexec hs.idle hs.isOpen hs.pos_ne_zero htail
    have hempty : s.readable = [] := by rw [State.readable, bitsAhead_eof hpos hb, Reader.allowed_nil]
    exact ⟨_, hexec, nextsDone_end ht rfl rfl hempty (Reader.allowed_of_ended rfl _) rfl⟩
  | some b =>
    have hexec := exec_bsrNext_byte hs.idle hs.isOpen hended hmore hpos hd hb
    have ht := hs.of_exec hexec hs.idle hs.isOpen one_ne_zero htail
    refine ⟨_, hexec, nextsDone_bit ht rfl rfl ?_ ?_⟩
    · rw [State.readable, bitsAhead_byte hs.input hpos hb (s.bsr.count + 1#64) s.ioDraws.tail,
        Reader.allowed_cons hended hmore (hs.reader.2 hs.isOpen) b 1]
      rfl
    · have hnext := inPos_succ hs.input hb
      simp only [State.bitAddress, hnext, hpos]
      omega

end Ready

/-- BSR.NEXT on a ready reader, by the branches of NextBit (R160). -/
theorem exec_bsrNext_ready {s : State} (hs : ReaderReady s) : ∃ t, exec .bsrNext s = .next t ∧ NextsDone 0 s t := by
  cases hended : s.bsr.ended with
  | true => exact exec_bsrNext_ready_ended hs hended
  | false =>
    by_cases hmore : s.bsr.unlimited = true ∨ s.bsr.count ≠ s.bsr.target
    · by_cases hpos : s.bsr.pos = 8
      · exact exec_bsrNext_ready_fetch hs hended hmore hpos
      · exact exec_bsrNext_ready_buffered hs hended hmore hpos
    · obtain ⟨hunl, htarget⟩ := not_or.mp hmore
      exact exec_bsrNext_ready_target hs hended (Bool.eq_false_iff.mpr hunl) (not_not.mp htarget)

/-! ## A sequence of BSR.NEXTs -/

/-- The readable bits come in order, and END once they are all out. -/
theorem commands_bsrNexts (j : Nat) {s : State} (hs : ReaderReady s) :
    ∃ t, commands (List.replicate (j + 1) .bsrNext) s = .next t ∧ NextsDone j s t := by
  induction j generalizing s with
  | zero =>
    obtain ⟨t, hexec, ht⟩ := exec_bsrNext_ready hs
    exact ⟨t, commands_cons hexec [], ht⟩
  | succ j ih =>
    obtain ⟨t, hexec, ht⟩ := exec_bsrNext_ready hs
    obtain ⟨v, hrest, hv⟩ := ih ht.ready
    refine ⟨v, (commands_cons hexec _).trans hrest, hv.ready, hv.code, ?_, ?_, hv.address.trans ht.address⟩
    · rw [hv.result, ht.readable, List.getElem?_drop, Nat.zero_add, Nat.add_comm]
    · rw [hv.readable, ht.readable, List.drop_drop, Nat.zero_add, Nat.add_comm]

/-! ## The reader law -/

/-- The state BSR.OPEN leaves. -/
def readerOpened (u : Bool) (s : State) : State := { s with bsr := openedReader u s.arg, done := true, code := .ok }

theorem readerReady_opened (u : Bool) {s : State} (hidle : s.seq = .idle) (hok : allDrawsOk s) (hin : InputInv s) :
    ReaderReady (readerOpened u s) where
  idle := hidle
  isOpen := rfl
  pos_ne_zero := by simp [readerOpened, openedReader]
  drawsOk := hok
  input := hin
  reader := ⟨fun h => absurd h (by simp [readerOpened, openedReader]), fun _ _ => Nat.zero_le _⟩

/-- A reader just opened can yield the unread bits, up to ARG of them when it is limited (R161, R162). -/
theorem readable_opened (u : Bool) (s : State) :
    (readerOpened u s).readable =
      if u then bitsOfBytes s.unread else (bitsOfBytes s.unread).take s.arg.toNat := by
  rw [State.readable, bitsAhead_of_pos_eq rfl]
  cases u <;> simp [readerOpened, openedReader, Reader.allowed, State.unread]

/-- The target only cuts the bits short. -/
theorem readable_opened_prefix (u : Bool) (s : State) : (readerOpened u s).readable <+: bitsOfBytes s.unread := by
  rw [readable_opened]
  split
  · exact List.prefix_rfl
  · exact List.take_prefix _ _

theorem readable_opened_length (u : Bool) (s : State) :
    (readerOpened u s).readable.length =
      if u then 8 * s.unread.length else min s.arg.toNat (8 * s.unread.length) := by
  rw [readable_opened]
  split <;> simp

/-- in_pos is past the byte of the last bit yielded. -/
theorem inPos_of_nextsDone {u : Bool} {j : Nat} {s t : State} (h : NextsDone j (readerOpened u s) t) :
    t.inPos.toNat = s.inPos.toNat + (min (j + 1) (readerOpened u s).readable.length + 7) / 8 := by
  have haddress := h.address
  have hstart : (readerOpened u s).bitAddress = 8 * s.inPos.toNat + 8 := rfl
  have hpos : t.bsr.pos.val ≠ 0 := Fin.val_ne_iff.mpr h.ready.pos_ne_zero
  rw [h.readable, List.length_drop, hstart, State.bitAddress] at haddress
  omega

/-- Settles O24: the readable bits of the reader BSR.OPEN starts are those the law names, and each NEXT takes the
first. -/
theorem readerYieldsTheInputBits : Obligations.ReaderYieldsTheInputBits := by
  intro s u j hidle hclosed hok hin
  obtain ⟨t, hexec, hdone⟩ := commands_bsrNexts j (readerReady_opened u hidle hok hin)
  have hinPos := inPos_of_nextsDone hdone
  rw [← readable_opened_length]
  have hopened := commands_cons (exec_bsrOpen_closed u hidle hclosed) (List.replicate (j + 1) .bsrNext)
  refine ⟨t, hopened.trans hexec, hdone.code, fun hj => ?_, fun hj => ?_⟩
  · have hprefix := readable_opened_prefix u s
    rw [min_eq_left hj] at hinPos
    refine ⟨?_, hinPos⟩
    rw [hdone.result, List.getElem?_eq_getElem hj, hprefix.getElem hj, nextResult_some,
      List.getD_eq_getElem _ _ (hj.trans_le hprefix.length_le)]
  · rw [min_eq_right (hj.trans (Nat.le_succ j))] at hinPos
    rw [hdone.result, List.getElem?_eq_none hj]
    exact ⟨rfl, hinPos⟩

end Sys2Proof.Machine

/-!
SUPPORT. The facts about the construction's parts that the statements about TB.BUILD need: arena entries under writes,
the used symbols, the placed leaves, and the extraction of the least key (spec/43_huffman_tree_builder.md R183, R184).
-/

namespace Sys2Proof.Machine

/-! ## Arena entries by number -/

theorem toNat_nodeIdx {n : Nat} (hn : n < 512) : (BitVec.ofNat 9 n).toNat = n := Nat.mod_eq_of_lt hn

theorem nodeIdx_toNat (i : NodeIdx) : BitVec.ofNat 9 i.toNat = i := by simp

theorem nodeIdx_inj {m n : Nat} (hm : m < 512) (hn : n < 512) : BitVec.ofNat 9 m = BitVec.ofNat 9 n ↔ m = n := by
  rw [← BitVec.toNat_inj, toNat_nodeIdx hm, toNat_nodeIdx hn]

theorem nodeAt_setNode_nodeIdx_same (a : Arena) {n : Nat} (e : Node) (hn : n < 511) :
    nodeAt (setNode a (BitVec.ofNat 9 n) e) (BitVec.ofNat 9 n) = e :=
  nodeAt_setNode_same a e (by rw [toNat_nodeIdx (by omega)]; exact hn)

theorem nodeAt_setNode_nodeIdx_other (a : Arena) {m n : Nat} (e : Node) (hm : m < 512) (hn : n < 512) (h : m ≠ n) :
    nodeAt (setNode a (BitVec.ofNat 9 n) e) (BitVec.ofNat 9 m) = nodeAt a (BitVec.ofNat 9 m) :=
  nodeAt_setNode_other a e ((nodeIdx_inj hm hn).not.mpr h)

/-- The two arenas have the same entries below `n`. -/
def AgreeBelow (n : Nat) (a b : Arena) : Prop := ∀ i < n, nodeAt a (BitVec.ofNat 9 i) = nodeAt b (BitVec.ofNat 9 i)

theorem AgreeBelow.mono {m n : Nat} {a b : Arena} (h : AgreeBelow n a b) (hmn : m ≤ n) : AgreeBelow m a b :=
  fun i hi => h i (hi.trans_le hmn)

theorem AgreeBelow.nodeAt {n : Nat} {a b : Arena} (h : AgreeBelow n a b) {i : NodeIdx} (hi : i.toNat < n) :
    nodeAt a i = nodeAt b i :=
  nodeIdx_toNat i ▸ h i.toNat hi

theorem agreeBelow_setNode (a : Arena) {n : Nat} (e : Node) (hn : n < 511) :
    AgreeBelow n a (setNode a (BitVec.ofNat 9 n) e) :=
  fun _ hi => (nodeAt_setNode_nodeIdx_other a e (by omega) (by omega) (by omega)).symm

theorem AgreeBelow.zero (a b : Arena) : AgreeBelow 0 a b := nofun

/-- The same entry written to both. -/
theorem AgreeBelow.setNode {n : Nat} {a b : Arena} (h : AgreeBelow n a b) (e : Node) (hn : n < 511) :
    AgreeBelow (n + 1) (setNode a (BitVec.ofNat 9 n) e) (setNode b (BitVec.ofNat 9 n) e) := by
  intro i hi
  rcases Nat.lt_succ_iff_lt_or_eq.mp hi with hlt | rfl
  · rw [← agreeBelow_setNode a e hn i hlt, ← agreeBelow_setNode b e hn i hlt, h i hlt]
  · rw [nodeAt_setNode_nodeIdx_same a e hn, nodeAt_setNode_nodeIdx_same b e hn]

/-! ## The used symbols (R183) -/

theorem usedSymbols_nodup (f : Freq) : (usedSymbols f).Nodup := by
  refine List.Nodup.filter _ (List.Nodup.map_on (fun x hx y hy hxy => ?_) List.nodup_range)
  rw [List.mem_range] at hx hy
  have htoNat := congrArg BitVec.toNat hxy
  rwa [BitVec.toNat_ofNat, BitVec.toNat_ofNat, Nat.mod_eq_of_lt hx, Nat.mod_eq_of_lt hy] at htoNat

theorem usedSymbols_eq_nil {f : Freq} (h : ∀ sym, freqAt f sym = 0#32) : usedSymbols f = [] :=
  List.eq_nil_iff_forall_not_mem.mpr fun sym hsym => (mem_usedSymbols f sym).mp hsym (h sym)

theorem usedSymbols_eq_singleton {f : Freq} {sym : Byte} (h : freqAt f sym ≠ 0#32)
    (hothers : ∀ other, other ≠ sym → freqAt f other = 0#32) : usedSymbols f = [sym] := by
  refine List.perm_singleton.mp
    ((List.perm_ext_iff_of_nodup (usedSymbols_nodup f) (List.nodup_singleton sym)).mpr fun x => ?_)
  rw [mem_usedSymbols, List.mem_singleton]
  exact ⟨fun hx => not_imp_comm.mp (hothers x) hx, fun hx => hx ▸ h⟩

/-- The unused symbols add nothing to the total. -/
theorem total_eq_sum_usedSymbols (f : Freq) : total f = ((usedSymbols f).map fun sym => (freqAt f sym).toNat).sum := by
  rw [total, toList_eq_map_freqAt, usedSymbols]
  generalize (List.range 256).map (BitVec.ofNat 8) = l
  induction l with
  | nil => rfl
  | cons sym l ih =>
    simp only [List.map_cons, List.sum_cons, ih, List.filter_cons]
    split
    next => rfl
    next hzero => simp_all

/-! ## The leaves (R183) -/

/-- Entries outside the leaves keep their values. -/
theorem nodeAt_placeLeaves_other (f : Freq) (syms : List Byte) {k i : Nat} (a : Arena) (hcap : k + syms.length ≤ 511)
    (hi : i < k ∨ k + syms.length ≤ i) (hi' : i < 512) :
    nodeAt (placeLeaves f syms k a) (BitVec.ofNat 9 i) = nodeAt a (BitVec.ofNat 9 i) := by
  induction syms generalizing k a with
  | nil => rfl
  | cons sym syms ih =>
    rw [List.length_cons] at hcap hi
    rw [placeLeaves, ih _ (by omega) (by omega),
      nodeAt_setNode_nodeIdx_other a _ hi' (by omega) (by omega)]

theorem nodeAt_placeLeaves (f : Freq) {syms : List Byte} {k i : Nat} (a : Arena) (hcap : k + syms.length ≤ 511)
    {sym : Byte} (hsym : syms[i]? = some sym) :
    nodeAt (placeLeaves f syms k a) (BitVec.ofNat 9 (k + i)) = leafNode f sym := by
  induction syms generalizing k a i with
  | nil => cases hsym
  | cons first syms ih =>
    rw [List.length_cons] at hcap
    rw [placeLeaves]
    cases i with
    | zero =>
      cases hsym
      rw [nodeAt_placeLeaves_other f syms _ (by omega) (by omega) (by omega)]
      exact nodeAt_setNode_nodeIdx_same a _ (by omega)
    | succ i =>
      rw [← Nat.add_assoc, Nat.add_right_comm]
      exact ih _ (by omega) hsym

@[simp] theorem leafNode_weight_toNat (f : Freq) (sym : Byte) : (leafNode f sym).weight.toNat = (freqAt f sym).toNat :=
  BitVec.toNat_setWidth_of_le (by decide)

/-! ## The least key (R184) -/

/-- The key (weight, index) as one number. -/
def keyOf (a : Arena) (i : NodeIdx) : Nat := 512 * (nodeAt a i).weight.toNat + i.toNat

theorem keyOf_inj {a : Arena} {i j : NodeIdx} (h : keyOf a i = keyOf a j) : i = j := by
  unfold keyOf at h
  exact BitVec.eq_of_toNat_eq (by omega)

theorem keyBefore_iff_keyOf (a : Arena) {i j : Nat} (hi : i < 512) (hj : j < 512) :
    keyBefore a i j ↔ keyOf a (BitVec.ofNat 9 i) < keyOf a (BitVec.ofNat 9 j) := by
  rw [keyBefore, keyOf, keyOf, ← BitVec.toNat_inj, toNat_nodeIdx hi, toNat_nodeIdx hj]
  omega

theorem keyLess_iff_keyOf (a : Arena) (i j : NodeIdx) : keyLess a i j = true ↔ keyOf a i < keyOf a j := by
  rw [keyLess, keyOf, keyOf, Bool.or_eq_true, Bool.and_eq_true, decide_eq_true_iff, decide_eq_true_iff,
    decide_eq_true_iff, BitVec.lt_def, BitVec.lt_def, ← BitVec.toNat_inj]
  omega

theorem keyOf_leastKey_le (a : Arena) (best : NodeIdx) (l : List NodeIdx) :
    ∀ m ∈ best :: l, keyOf a (leastKey a best l) ≤ keyOf a m := by
  induction l generalizing best with
  | nil => simp [leastKey]
  | cons i l ih =>
    rw [leastKey]
    split
    next hless =>
      have hlt := (keyLess_iff_keyOf a i best).mp hless
      have hi := ih i
      rw [List.forall_mem_cons] at hi ⊢
      exact ⟨hi.1.trans hlt.le, List.forall_mem_cons.mpr hi⟩
    next hless =>
      have hle := not_lt.mp ((keyLess_iff_keyOf a i best).not.mp hless)
      have hbest := ih best
      rw [List.forall_mem_cons] at hbest ⊢
      exact ⟨hbest.1, List.forall_mem_cons.mpr ⟨hbest.1.trans hle, hbest.2⟩⟩

theorem keyOf_lt_of_extractLeast {a : Arena} {live rest : List NodeIdx} {i m : NodeIdx}
    (h : extractLeast a live = some (i, rest)) (hm : m ∈ live) (hne : m ≠ i) : keyOf a i < keyOf a m := by
  cases live with
  | nil => cases h
  | cons best l =>
    cases h
    exact lt_of_le_of_ne (keyOf_leastKey_le a best l m hm) fun heq => hne (keyOf_inj heq).symm

theorem extractLeast_eq_none {a : Arena} {live : List NodeIdx} (h : extractLeast a live = none) : live = [] := by
  cases live with
  | nil => rfl
  | cons i l => cases h

end Sys2Proof.Machine

/-!
SUPPORT. Greedy merges (spec/43_huffman_tree_builder.md R184, R185): what an entry's merge depends on, that it is the
only one, and what one merge does to the live set.
-/

namespace Sys2Proof.Machine

/-! ## Live entries depend on the entries before -/

theorem childBefore_congr {a b : Arena} {k n c : Nat} (h : AgreeBelow n a b) :
    childBefore a k n c ↔ childBefore b k n c := by
  refine exists_congr fun m => and_congr_right fun _ => and_congr_right fun hm => ?_
  rw [h m hm]

theorem childBefore_succ {a : Arena} {k n c : Nat} (hkn : k ≤ n) :
    childBefore a k (n + 1) c ↔
      childBefore a k n c ∨ (nodeAt a (BitVec.ofNat 9 n)).left.toNat = c ∨
        (nodeAt a (BitVec.ofNat 9 n)).right.toNat = c := by
  constructor
  · rintro ⟨m, hkm, hmn, hc⟩
    rcases Nat.lt_succ_iff_lt_or_eq.mp hmn with hlt | rfl
    · exact .inl ⟨m, hkm, hlt, hc⟩
    · exact .inr hc
  · rintro (⟨m, hkm, hmn, hc⟩ | hc)
    · exact ⟨m, hkm, hmn.trans (Nat.lt_succ_self n), hc⟩
    · exact ⟨n, hkn, Nat.lt_succ_self n, hc⟩

theorem liveBefore_congr {a b : Arena} {k n c : Nat} (h : AgreeBelow n a b) :
    liveBefore a k n c ↔ liveBefore b k n c := and_congr_right fun _ => (childBefore_congr h).not

theorem keyBefore_congr {a b : Arena} {n i j : Nat} (h : AgreeBelow n a b) (hi : i < n) (hj : j < n) :
    keyBefore a i j ↔ keyBefore b i j := by
  rw [keyBefore, keyBefore, h i hi, h j hj]

theorem keyBefore_asymm {a : Arena} {i j : Nat} (hi : i < 512) (hj : j < 512) (h : keyBefore a i j) :
    ¬ keyBefore a j i := by
  rw [keyBefore_iff_keyOf a hi hj] at h
  rw [keyBefore_iff_keyOf a hj hi]
  exact h.asymm

/-! ## The pair to merge -/

/-- `i` and `j` are the two live entries of least key, in this order, when entry `n` is made (R184). -/
structure LeastPair (a : Arena) (k n i j : Nat) : Prop where
  live_fst : liveBefore a k n i
  live_snd : liveBefore a k n j
  ne : i ≠ j
  fst_least : ∀ m, liveBefore a k n m → m ≠ i → keyBefore a i m
  snd_least : ∀ m, liveBefore a k n m → m ≠ i → m ≠ j → keyBefore a j m

theorem LeastPair.congr {a b : Arena} {k n i j : Nat} (hab : AgreeBelow n a b) (h : LeastPair a k n i j) :
    LeastPair b k n i j where
  live_fst := (liveBefore_congr hab).mp h.live_fst
  live_snd := (liveBefore_congr hab).mp h.live_snd
  ne := h.ne
  fst_least m hm hi :=
    (keyBefore_congr hab h.live_fst.1 hm.1).mp (h.fst_least m ((liveBefore_congr hab).mpr hm) hi)
  snd_least m hm hi hj :=
    (keyBefore_congr hab h.live_snd.1 hm.1).mp (h.snd_least m ((liveBefore_congr hab).mpr hm) hi hj)

/-- Only one pair is least. -/
theorem LeastPair.unique {a : Arena} {k n i j i' j' : Nat} (hn : n ≤ 512) (h : LeastPair a k n i j)
    (h' : LeastPair a k n i' j') : i = i' ∧ j = j' := by
  have hlt {m : Nat} (hm : liveBefore a k n m) : m < 512 := hm.1.trans_le hn
  have hfst : i = i' := by
    by_contra hne
    exact keyBefore_asymm (hlt h.live_fst) (hlt h'.live_fst) (h.fst_least i' h'.live_fst (Ne.symm hne))
      (h'.fst_least i h.live_fst hne)
  subst hfst
  refine ⟨rfl, ?_⟩
  by_contra hne
  exact keyBefore_asymm (hlt h.live_snd) (hlt h'.live_snd) (h.snd_least j' h'.live_snd h'.ne.symm (Ne.symm hne))
    (h'.snd_least j h.live_snd h.ne.symm hne)

/-! ## The merged entry -/

/-- A greedy merge makes the node of R185 over the least pair, and its weight does not overflow. -/
theorem greedyMerge_iff {a : Arena} {k n : Nat} :
    GreedyMerge a k n ↔ ∃ i j, LeastPair a k n i j ∧
      nodeAt a (BitVec.ofNat 9 n) = mergeNode a (BitVec.ofNat 9 i) (BitVec.ofNat 9 j) ∧
      (nodeAt a (BitVec.ofNat 9 i)).weight.toNat + (nodeAt a (BitVec.ofNat 9 j)).weight.toNat < 2 ^ 40 := by
  refine exists_congr fun i => exists_congr fun j => ⟨?_, ?_⟩
  · rintro ⟨hi, hj, hne, hfst, hsnd, hkind, hsym, hleft, hright, hweight⟩
    have hlt := hweight ▸ (nodeAt a (BitVec.ofNat 9 n)).weight.isLt
    refine ⟨⟨hi, hj, hne, hfst, hsnd⟩, ?_, hlt⟩
    have hsum := BitVec.eq_of_toNat_eq (hweight.trans (BitVec.toNat_add_of_lt hlt).symm)
    rw [mergeNode, ← hsum, ← hkind, ← hsym, ← hleft, ← hright]
  · rintro ⟨⟨hi, hj, hne, hfst, hsnd⟩, hnode, hlt⟩
    rw [hnode]
    exact ⟨hi, hj, hne, hfst, hsnd, rfl, rfl, rfl, rfl, BitVec.toNat_add_of_lt hlt⟩

theorem mergeNode_congr {a b : Arena} {n i j : Nat} (h : AgreeBelow n a b) (hi : i < n) (hj : j < n) :
    mergeNode a (BitVec.ofNat 9 i) (BitVec.ofNat 9 j) = mergeNode b (BitVec.ofNat 9 i) (BitVec.ofNat 9 j) := by
  rw [mergeNode, mergeNode, h i hi, h j hj]

theorem GreedyMerge.congr {a b : Arena} {k n : Nat} (hab : AgreeBelow (n + 1) a b) (h : GreedyMerge a k n) :
    GreedyMerge b k n := by
  obtain ⟨i, j, hpair, hnode, hlt⟩ := greedyMerge_iff.mp h
  have hbelow := hab.mono (Nat.le_succ n)
  have hi := hpair.live_fst.1
  have hj := hpair.live_snd.1
  refine greedyMerge_iff.mpr ⟨i, j, hpair.congr hbelow, ?_, ?_⟩
  · rw [← hab n (Nat.lt_succ_self n), hnode, mergeNode_congr hbelow hi hj]
  · rwa [← hbelow i hi, ← hbelow j hj]

/-- The entries before a greedy merge determine it. -/
theorem GreedyMerge.unique {a b : Arena} {k n : Nat} (hn : n ≤ 512) (hab : AgreeBelow n a b) (ha : GreedyMerge a k n)
    (hb : GreedyMerge b k n) : nodeAt a (BitVec.ofNat 9 n) = nodeAt b (BitVec.ofNat 9 n) := by
  obtain ⟨i, j, hpair, hnode, -⟩ := greedyMerge_iff.mp ha
  obtain ⟨i', j', hpair', hnode', -⟩ := greedyMerge_iff.mp hb
  obtain ⟨rfl, rfl⟩ := (hpair.congr hab).unique hn hpair'
  rw [hnode, hnode', mergeNode_congr hab hpair.live_fst.1 hpair.live_snd.1]

/-- A merge's children stand before it. -/
theorem GreedyMerge.children_lt {a : Arena} {k n : Nat} (hn : n ≤ 512) (h : GreedyMerge a k n) :
    (nodeAt a (BitVec.ofNat 9 n)).left.toNat < n ∧ (nodeAt a (BitVec.ofNat 9 n)).right.toNat < n := by
  obtain ⟨i, j, hpair, hnode, -⟩ := greedyMerge_iff.mp h
  have hi := hpair.live_fst.1
  have hj := hpair.live_snd.1
  rw [hnode]
  exact ⟨(toNat_nodeIdx (hi.trans_le hn)).trans_lt hi, (toNat_nodeIdx (hj.trans_le hn)).trans_lt hj⟩

/-- The newest entry is live. -/
theorem liveBefore_newest {a : Arena} {k n : Nat} (hn : n ≤ 512)
    (h : ∀ m, k ≤ m → m < n + 1 → GreedyMerge a k m) : liveBefore a k (n + 1) n := by
  refine ⟨Nat.lt_succ_self n, fun ⟨m, hkm, hmn, hchild⟩ => ?_⟩
  have hlt := (h m hkm hmn).children_lt (by omega)
  omega

end Sys2Proof.Machine

/-!
SUPPORT. The merges of TB.BUILD keep an invariant: the live list holds exactly the live entries, every entry made so far
is a greedy merge, and the live entries weigh the total (spec/43_huffman_tree_builder.md R184 to R188).
-/

namespace Sys2Proof.Machine

/-- The sum of the live entries' weights. -/
def liveWeight (a : Arena) (live : List NodeIdx) : Nat := (live.map fun i => (nodeAt a i).weight.toNat).sum

theorem weight_add_liveWeight_erase (a : Arena) {live : List NodeIdx} {i : NodeIdx} (h : i ∈ live) :
    (nodeAt a i).weight.toNat + liveWeight a (live.erase i) = liveWeight a live :=
  List.sum_map_erase (fun i => (nodeAt a i).weight.toNat) h

theorem liveWeight_append_singleton (a : Arena) (live : List NodeIdx) (i : NodeIdx) :
    liveWeight a (live ++ [i]) = liveWeight a live + (nodeAt a i).weight.toNat := by
  rw [liveWeight, List.map_append, List.sum_append, List.map_singleton, List.sum_singleton, liveWeight]

theorem liveWeight_congr {a b : Arena} {n : Nat} {live : List NodeIdx} (hab : AgreeBelow n a b)
    (h : ∀ i ∈ live, i.toNat < n) : liveWeight a live = liveWeight b live :=
  congrArg List.sum (List.map_congr_left fun i hi => by rw [hab.nodeAt (h i hi)])

theorem mergeNode_weight_toNat {a : Arena} {i j : NodeIdx}
    (h : (nodeAt a i).weight.toNat + (nodeAt a j).weight.toNat < 2 ^ 40) :
    (mergeNode a i j).weight.toNat = (nodeAt a i).weight.toNat + (nodeAt a j).weight.toNat := BitVec.toNat_add_of_lt h

/-- The merges up to entry `n`, from the arena `a₀` with leaves in entries 0..k−1 that weigh `w` together. -/
structure Merging (a₀ : Arena) (k w n : Nat) (live : List NodeIdx) (a : Arena) : Prop where
  first : k ≤ n
  size : n + live.length = 2 * k
  nodup : live.Nodup
  mem_live : ∀ i : NodeIdx, i ∈ live ↔ liveBefore a k n i.toNat
  merges : ∀ m, k ≤ m → m < n → GreedyMerge a k m
  weight : liveWeight a live = w
  kept : ∀ i < 512, i < k ∨ n ≤ i → nodeAt a (BitVec.ofNat 9 i) = nodeAt a₀ (BitVec.ofNat 9 i)

/-- Before the first merge the leaves are the live entries. -/
theorem merging_start (a : Arena) {k : Nat} (hk : k ≤ 256) :
    Merging a k (liveWeight a ((List.range k).map (BitVec.ofNat 9))) k ((List.range k).map (BitVec.ofNat 9)) a where
  first := le_rfl
  size := by rw [List.length_map, List.length_range, Nat.two_mul]
  nodup := by
    refine List.Nodup.map_on (fun x hx y hy => ?_) List.nodup_range
    rw [List.mem_range] at hx hy
    exact (nodeIdx_inj (by omega) (by omega)).mp
  mem_live i := by
    rw [List.mem_map]
    constructor
    · rintro ⟨m, hm, rfl⟩
      rw [List.mem_range] at hm
      rw [toNat_nodeIdx (by omega)]
      exact ⟨hm, fun ⟨c, hkc, hck, _⟩ => absurd hck hkc.not_gt⟩
    · exact fun ⟨hlt, _⟩ => ⟨i.toNat, List.mem_range.mpr hlt, nodeIdx_toNat i⟩
  merges m hkm hmk := absurd hmk hkm.not_gt
  weight := rfl
  kept _ _ _ := rfl

section Step

variable {a₀ a : Arena} {k w n : Nat} {live live1 live2 : List NodeIdx} {i j : NodeIdx}

theorem Merging.lt (h : Merging a₀ k w n live a) {m : NodeIdx} (hm : m ∈ live) : m.toNat < n :=
  ((h.mem_live m).mp hm).1

theorem Merging.mem_of_liveBefore (h : Merging a₀ k w n live a) (hn : n ≤ 512) {m : Nat} (hm : liveBefore a k n m) :
    BitVec.ofNat 9 m ∈ live := by
  rwa [h.mem_live, toNat_nodeIdx (hm.1.trans_le hn)]

/-- Two live entries remain, so there is room for the merge. -/
theorem Merging.lt_arena (h : Merging a₀ k w n live a) (hk : k ≤ 256) (hi : i ∈ live) (hj : j ∈ live.erase i) :
    n < 511 := by
  have hlen := List.length_erase_add_one hi
  have hpos := List.length_pos_of_mem hj
  have hsize := h.size
  omega

/-- The two extractions take the least pair (R184). -/
theorem Merging.leastPair (h : Merging a₀ k w n live a) (hn : n ≤ 512) (hi : extractLeast a live = some (i, live1))
    (hj : extractLeast a live1 = some (j, live2)) : LeastPair a k n i.toNat j.toNat := by
  obtain ⟨himem, rfl⟩ := extractLeast_eq_some hi
  obtain ⟨hjmem, -⟩ := extractLeast_eq_some hj
  obtain ⟨hji, hjlive⟩ := h.nodup.mem_erase_iff.mp hjmem
  have hilt := h.lt himem
  have hjlt := h.lt hjlive
  have nodeIdx_ne {m : Nat} {l : NodeIdx} (hne : m ≠ l.toNat) (hm : m < n) : BitVec.ofNat 9 m ≠ l :=
    fun heq => hne (heq ▸ toNat_nodeIdx (hm.trans_le hn)).symm
  refine ⟨(h.mem_live i).mp himem, (h.mem_live j).mp hjlive, fun heq => hji (BitVec.eq_of_toNat_eq heq.symm),
    fun m hm hmi => ?_, fun m hm hmi hmj => ?_⟩
  · rw [keyBefore_iff_keyOf a (by omega) (hm.1.trans_le hn), nodeIdx_toNat]
    exact keyOf_lt_of_extractLeast hi (h.mem_of_liveBefore hn hm) (nodeIdx_ne hmi hm.1)
  · rw [keyBefore_iff_keyOf a (by omega) (hm.1.trans_le hn), nodeIdx_toNat]
    exact keyOf_lt_of_extractLeast hj
      (h.nodup.mem_erase_iff.mpr ⟨nodeIdx_ne hmi hm.1, h.mem_of_liveBefore hn hm⟩) (nodeIdx_ne hmj hm.1)

/-- The pair's weights are part of the total, so their sum does not overflow. -/
theorem Merging.weight_pair (h : Merging a₀ k w n live a) (hi : i ∈ live) (hj : j ∈ live.erase i) :
    (nodeAt a i).weight.toNat + (nodeAt a j).weight.toNat + liveWeight a ((live.erase i).erase j) = w := by
  rw [← h.weight, ← weight_add_liveWeight_erase a hi, ← weight_add_liveWeight_erase a hj, Nat.add_assoc]

end Step

/-! ## One merge (R185)

Arena `b` is `a` with entry `n` the merge of the least pair `i`, `j`. -/

section Merge

variable {a b : Arena} {k n : Nat} {i j : NodeIdx} (hpair : LeastPair a k n i.toNat j.toNat)
  (hbelow : AgreeBelow n a b) (hnode : nodeAt b (BitVec.ofNat 9 n) = mergeNode a i j)
include hpair hbelow hnode

theorem greedyMerge_new (hlt : (nodeAt a i).weight.toNat + (nodeAt a j).weight.toNat < 2 ^ 40) :
    GreedyMerge b k n := by
  have hi := hbelow.nodeAt hpair.live_fst.1
  have hj := hbelow.nodeAt hpair.live_snd.1
  refine greedyMerge_iff.mpr ⟨i.toNat, j.toNat, hpair.congr hbelow, ?_, ?_⟩
  · rw [nodeIdx_toNat, nodeIdx_toNat, hnode, mergeNode, mergeNode, hi, hj]
  · rwa [nodeIdx_toNat, nodeIdx_toNat, ← hi, ← hj]

/-- The merged entries leave the live set and the new one joins it. -/
theorem liveBefore_succ (hkn : k ≤ n) (hnew : liveBefore b k (n + 1) n) (m : Nat) :
    liveBefore b k (n + 1) m ↔ m = n ∨ liveBefore a k n m ∧ m ≠ i.toNat ∧ m ≠ j.toNat := by
  by_cases hm : m = n
  · subst hm
    exact iff_of_true hnew (.inl rfl)
  · have hlt : m < n + 1 ↔ m < n := by omega
    rw [liveBefore, liveBefore, childBefore_succ hkn, hnode, ← childBefore_congr hbelow, hlt]
    simp only [mergeNode, not_or, eq_comm (b := m), ne_eq, and_assoc, hm, false_or]

end Merge

/-- Extracting the least pair and merging it keeps the invariant. -/
theorem Merging.step {a₀ a : Arena} {k w n : Nat} {live live1 live2 : List NodeIdx} {i j : NodeIdx}
    (h : Merging a₀ k w n live a) (hk : k ≤ 256) (hw : w < 2 ^ 40) (hi : extractLeast a live = some (i, live1))
    (hj : extractLeast a live1 = some (j, live2)) :
    Merging a₀ k w (n + 1) (live2 ++ [BitVec.ofNat 9 n]) (setNode a (BitVec.ofNat 9 n) (mergeNode a i j)) := by
  obtain ⟨himem, rfl⟩ := extractLeast_eq_some hi
  obtain ⟨hjmem, rfl⟩ := extractLeast_eq_some hj
  have hn := h.lt_arena hk himem hjmem
  have hpair := h.leastPair (by omega) hi hj
  have hbelow := agreeBelow_setNode a (mergeNode a i j) hn
  have hnode := nodeAt_setNode_nodeIdx_same a (mergeNode a i j) hn
  have hwsum := h.weight_pair himem hjmem
  have hmerges : ∀ m, k ≤ m → m < n + 1 →
      GreedyMerge (setNode a (BitVec.ofNat 9 n) (mergeNode a i j)) k m := by
    intro m hkm hmn
    rcases Nat.lt_succ_iff_lt_or_eq.mp hmn with hlt | rfl
    · exact (h.merges m hkm hlt).congr (hbelow.mono hlt)
    · exact greedyMerge_new hpair hbelow hnode (by omega)
  have hrest (m : NodeIdx) : m ∈ (live.erase i).erase j ↔ liveBefore a k n m.toNat ∧ m ≠ i ∧ m ≠ j := by
    rw [(h.nodup.erase i).mem_erase_iff, h.nodup.mem_erase_iff, h.mem_live, and_rotate, and_left_comm]
  have hlt {m : NodeIdx} (hm : m ∈ (live.erase i).erase j) : m.toNat < n := ((hrest m).mp hm).1.1
  constructor
  case first => exact h.first.trans (Nat.le_succ n)
  case size =>
    have hlen1 := List.length_erase_add_one himem
    have hlen2 := List.length_erase_add_one hjmem
    have hsize := h.size
    rw [List.length_append, List.length_singleton]
    omega
  case nodup =>
    refine ((h.nodup.erase i).erase j).append (List.nodup_singleton _) ?_
    rw [List.disjoint_singleton]
    intro hm
    have hfresh := hlt hm
    rw [toNat_nodeIdx (by omega)] at hfresh
    exact hfresh.false
  case mem_live =>
    intro m
    have hnew := liveBefore_newest (by omega) hmerges
    rw [liveBefore_succ hpair hbelow hnode h.first hnew, List.mem_append, hrest, List.mem_singleton,
      or_comm]
    simp only [ne_eq, ← BitVec.toNat_inj, toNat_nodeIdx (show n < 512 by omega)]
  case merges => exact hmerges
  case weight =>
    rw [liveWeight_append_singleton, hnode, mergeNode_weight_toNat (by omega), ← liveWeight_congr hbelow fun _ => hlt]
    omega
  case kept =>
    intro m hm hout
    have hkn := h.first
    rw [nodeAt_setNode_nodeIdx_other a _ hm (by omega) (by omega), h.kept m hm (by omega)]

/-- One live node is left after entry 2k − 2 (R188). -/
theorem Merging.last {a₀ a : Arena} {k w n : Nat} {live : List NodeIdx} (h : Merging a₀ k w n live a)
    (hpos : live ≠ []) (hone : live.length ≤ 1) : n = 2 * k - 1 ∧ ∃ r, live = [r] := by
  have hlen : live.length = 1 := hone.antisymm (List.length_pos_iff.mpr hpos)
  have hsize := h.size
  exact ⟨by omega, List.length_eq_one_iff.mp hlen⟩

/-- The merges go on until one live node is left. -/
theorem Merging.finish {a₀ a : Arena} {k w n fuel : Nat} {live : List NodeIdx} (h : Merging a₀ k w n live a)
    (hk : k ≤ 256) (hw : w < 2 ^ 40) (hpos : live ≠ []) (hfuel : live.length ≤ fuel + 1) :
    ∃ r b, mergeAll fuel n live a = (b, 2 * k - 1) ∧ Merging a₀ k w (2 * k - 1) [r] b := by
  induction fuel generalizing n live a with
  | zero =>
    obtain ⟨rfl, r, rfl⟩ := h.last hpos hfuel
    exact ⟨r, a, rfl, h⟩
  | succ fuel ih =>
    rw [mergeAll]
    split
    next hi => exact absurd (extractLeast_eq_none hi) hpos
    next i live1 hi =>
      obtain ⟨himem, rfl⟩ := extractLeast_eq_some hi
      have hlen1 := List.length_erase_add_one himem
      split
      next hj =>
        rw [extractLeast_eq_none hj, List.length_nil] at hlen1
        obtain ⟨rfl, r, rfl⟩ := h.last hpos hlen1.ge
        exact ⟨r, a, rfl, h⟩
      next j live2 hj =>
        obtain ⟨hjmem, rfl⟩ := extractLeast_eq_some hj
        have hlen2 := List.length_erase_add_one hjmem
        refine ih (h.step hk hw hi hj) (List.append_ne_nil_of_right_ne_nil _ (List.cons_ne_nil _ _)) ?_
        rw [List.length_append, List.length_singleton]
        omega

/-- The node left is the last entry made, the root (R188). -/
theorem Merging.root {a₀ a : Arena} {k w : Nat} {r : NodeIdx} (h : Merging a₀ k w (2 * k - 1) [r] a) (hk : 2 ≤ k)
    (hk' : k ≤ 256) : r = BitVec.ofNat 9 (2 * k - 2) := by
  have hsucc : 2 * k - 2 + 1 = 2 * k - 1 := by omega
  have hlive := liveBefore_newest (n := 2 * k - 2) (by omega) (hsucc ▸ h.merges)
  exact (List.mem_singleton.mp (h.mem_of_liveBefore (by omega) (hsucc ▸ hlive))).symm

end Sys2Proof.Machine

/-!
SUPPORT. The tree TB.BUILD makes for none, one and more used symbols, and what the last is: the greedy tree, which the
counts determine (spec/43_huffman_tree_builder.md R183 to R190).
-/

namespace Sys2Proof.Machine

/-! ## None and one used symbol (R186, R187) -/

theorem buildTree_nil {f : Freq} (a : Arena) (h : usedSymbols f = []) : buildTree f a = none := by
  rw [buildTree, h]
  rfl

/-- One symbol: an internal root over its leaf (R186). -/
theorem buildTree_singleton {f : Freq} {sym : Byte} (a : Arena) (h : usedSymbols f = [sym]) :
    buildTree f a = some
      { arena := setNode (setNode a 0#9 (leafNode f sym)) 1#9
          { kind := .internal, sym := 0#8, left := 0#9, right := 0x1FF#9, weight := (leafNode f sym).weight }
        count := 2#10, root := 1#9 } := by
  have hleaf := nodeAt_setNode_same a (i := 0#9) (leafNode f sym) (by decide)
  rw [buildTree, h]
  simp only [List.length_singleton, placeLeaves, singleRoot, hleaf]
  rfl

/-! ## The greedy tree (R188) -/

section Leaves

variable (f : Freq) (a : Arena)

/-- The i-th used symbol's leaf stands in entry i (R183). -/
theorem nodeAt_leaves {i : Nat} {sym : Byte} (hsym : (usedSymbols f)[i]? = some sym) :
    nodeAt (placeLeaves f (usedSymbols f) 0 a) (BitVec.ofNat 9 i) = leafNode f sym := by
  have hk := usedSymbols_length_le f
  have hleaf := nodeAt_placeLeaves f (k := 0) a (by omega) hsym
  rwa [Nat.zero_add] at hleaf

theorem map_nodeAt_leaves :
    ((List.range (usedSymbols f).length).map (BitVec.ofNat 9)).map (nodeAt (placeLeaves f (usedSymbols f) 0 a)) =
      (usedSymbols f).map (leafNode f) := by
  refine List.ext_getElem (by simp) fun i _ hi => ?_
  rw [List.length_map] at hi
  simp only [List.getElem_map, List.getElem_range, nodeAt_leaves f a (List.getElem?_eq_getElem hi)]

/-- The leaves weigh the total. -/
theorem liveWeight_leaves :
    liveWeight (placeLeaves f (usedSymbols f) 0 a) ((List.range (usedSymbols f).length).map (BitVec.ofNat 9)) =
      total f := by
  have hweights := congrArg (fun entries => (entries.map fun e => e.weight.toNat).sum) (map_nodeAt_leaves f a)
  simpa only [liveWeight, total_eq_sum_usedSymbols, List.map_map, Function.comp_def, leafNode_weight_toNat]
    using hweights

end Leaves

/-- `a` holds the greedy tree of `f` (R183 to R185), which weighs the total, and its later entries are those
of `a₀`. -/
structure GreedyTree (f : Freq) (a₀ a : Arena) : Prop where
  leaf : ∀ i sym, (usedSymbols f)[i]? = some sym → nodeAt a (BitVec.ofNat 9 i) = leafNode f sym
  merge : ∀ n, (usedSymbols f).length ≤ n → n < 2 * (usedSymbols f).length - 1 →
    GreedyMerge a (usedSymbols f).length n
  weight : (nodeAt a (BitVec.ofNat 9 (2 * (usedSymbols f).length - 2))).weight.toNat = total f
  kept : ∀ n, 2 * (usedSymbols f).length - 1 ≤ n → n < 511 →
    nodeAt a (BitVec.ofNat 9 n) = nodeAt a₀ (BitVec.ofNat 9 n)

/-- Merges that have ended have made the greedy tree. -/
theorem Merging.greedyTree {f : Freq} {a₀ a : Arena} {r : NodeIdx} (hk : 2 ≤ (usedSymbols f).length)
    (h : Merging (placeLeaves f (usedSymbols f) 0 a₀) (usedSymbols f).length (total f)
      (2 * (usedSymbols f).length - 1) [r] a) : GreedyTree f a₀ a := by
  have hk' := usedSymbols_length_le f
  constructor
  case leaf =>
    intro i sym hsym
    have hi := (List.getElem?_eq_some_iff.mp hsym).1
    rw [h.kept i (by omega) (.inl hi), nodeAt_leaves f a₀ hsym]
  case merge => exact h.merges
  case weight =>
    rw [← h.root hk hk', ← h.weight]
    rfl
  case kept =>
    intro n hn hn'
    rw [h.kept n (by omega) (.inr hn), nodeAt_placeLeaves_other f _ a₀ (by omega) (.inr (by omega)) (by omega)]

/-- Two or more symbols give the greedy tree (R188). -/
theorem buildTree_greedy {f : Freq} (a₀ : Arena) (hk : 2 ≤ (usedSymbols f).length) :
    ∃ a, GreedyTree f a₀ a ∧ buildTree f a₀ = some
      { arena := a, count := BitVec.ofNat 10 (2 * (usedSymbols f).length - 1)
        root := BitVec.ofNat 9 (2 * (usedSymbols f).length - 2) } := by
  have hk' := usedSymbols_length_le f
  have hstart := merging_start (placeLeaves f (usedSymbols f) 0 a₀) hk'
  rw [liveWeight_leaves] at hstart
  obtain ⟨r, a, hmerge, hdone⟩ := hstart.finish hk' (total_lt f)
    (List.ne_nil_of_length_pos (by rw [List.length_map, List.length_range]; omega))
    (by rw [List.length_map, List.length_range]; exact Nat.le_succ _)
  refine ⟨a, hdone.greedyTree hk, ?_⟩
  have h0 : (usedSymbols f).length ≠ 0 := by omega
  have h1 : (usedSymbols f).length ≠ 1 := by omega
  simp only [buildTree, if_neg h0, if_neg h1, hmerge, Nat.sub_sub]

/-- The counts determine every entry of the greedy tree. -/
theorem GreedyTree.unique {f : Freq} {a₀ b₀ a b : Arena} (ha : GreedyTree f a₀ a) (hb : GreedyTree f b₀ b) :
    AgreeBelow (2 * (usedSymbols f).length - 1) a b := by
  have hk := usedSymbols_length_le f
  intro n
  induction n using Nat.strong_induction_on with
  | _ n ih =>
    intro hn
    rcases Nat.lt_or_ge n (usedSymbols f).length with hleaf | hmerge
    · have hsym := List.getElem?_eq_getElem hleaf
      rw [ha.leaf n _ hsym, hb.leaf n _ hsym]
    · exact (ha.merge n hmerge hn).unique (by omega) (fun m hm => ih m hm (hm.trans hn)) (hb.merge n hmerge hn)

/-! ## Every tree TB.BUILD makes -/

/-- How many symbols are in use: none, one, or two and more. -/
theorem usedSymbols_cases (f : Freq) :
    usedSymbols f = [] ∨ (∃ sym, usedSymbols f = [sym]) ∨ 2 ≤ (usedSymbols f).length := by
  rcases usedSymbols f with _ | ⟨sym, _ | ⟨sym', rest⟩⟩
  · exact .inl rfl
  · exact .inr (.inl ⟨sym, rfl⟩)
  · exact .inr (.inr (Nat.le_add_left 2 rest.length))

/-- The tree does not depend on the arena it is built in (R190). -/
theorem buildTree_arena {f : Freq} {a b : Arena} {t : Built} (h : buildTree f a = some t) :
    ∃ arena, AgreeBelow t.count.toNat t.arena arena ∧ buildTree f b = some { t with arena := arena } := by
  rcases usedSymbols_cases f with hnone | ⟨sym, hone⟩ | hmany
  · cases (buildTree_nil a hnone).symm.trans h
  · cases (buildTree_singleton a hone).symm.trans h
    exact ⟨_, ((AgreeBelow.zero a b).setNode _ (by decide)).setNode _ (by decide), buildTree_singleton b hone⟩
  · obtain ⟨a', ha, hbuild⟩ := buildTree_greedy a hmany
    obtain ⟨b', hb, hbuild'⟩ := buildTree_greedy b hmany
    cases hbuild.symm.trans h
    exact ⟨b', (ha.unique hb).mono (Nat.mod_le _ _), hbuild'⟩

theorem buildTree_arena_none {f : Freq} {a b : Arena} (h : buildTree f a = none) : buildTree f b = none := by
  cases hb : buildTree f b with
  | none => rfl
  | some t =>
    obtain ⟨_, -, ha⟩ := buildTree_arena (b := a) hb
    cases h.symm.trans ha

/-- The root of a built tree weighs the total (R189). -/
theorem root_weight_of_buildTree {f : Freq} {a : Arena} {t : Built} (h : buildTree f a = some t) :
    (nodeAt t.arena t.root).weight.toNat = total f := by
  rcases usedSymbols_cases f with hnone | ⟨sym, hone⟩ | hmany
  · cases (buildTree_nil a hnone).symm.trans h
  · cases (buildTree_singleton a hone).symm.trans h
    rw [nodeAt_setNode_same _ _ (by decide), total_eq_sum_usedSymbols, hone, leafNode_weight_toNat,
      List.map_singleton, List.sum_singleton]
  · obtain ⟨_, htree, hbuild⟩ := buildTree_greedy a hmany
    cases hbuild.symm.trans h
    exact htree.weight

/-- A used symbol is enough for a tree (R187). -/
theorem buildTree_eq_some {f : Freq} {sym : Byte} (a : Arena) (h : freqAt f sym ≠ 0#32) :
    ∃ t, buildTree f a = some t := by
  rcases usedSymbols_cases f with hnone | ⟨sym, hone⟩ | hmany
  · exact absurd ((mem_usedSymbols f sym).mpr h) (hnone ▸ List.not_mem_nil)
  · exact ⟨_, buildTree_singleton a hone⟩
  · obtain ⟨_, -, hbuild⟩ := buildTree_greedy a hmany
    exact ⟨_, hbuild⟩

end Sys2Proof.Machine

/-!
SUPPORT. The statements of the tree builder's family (spec/43_huffman_tree_builder.md R181 to R192): the two count
commands, TB.BUILD, and the two commands that read the tree.
-/

namespace Sys2Proof.Machine

/-! ## TB.SETFREQ and TB.GETFREQ (R181, R182) -/

/-- The word of a command whose operand is IMM8 (R91). -/
theorem encode_eq_opcode_or {i : Instr} {word : CmdWord}
    (h : i.unitOp ++ 0#15 ++ BitVec.ofBool i.uBit ++ 0#8 = word) : encode i = word ||| i.imm8.setWidth 32 :=
  h ▸ encode_eq_or i

theorem encode_tbSetfreq (sym : Byte) : encode (.tbSetfreq sym) = 0x30000000#32 ||| sym.setWidth 32 :=
  encode_eq_opcode_or (show 0x30#8 ++ 0#15 ++ BitVec.ofBool false ++ 0#8 = _ by decide)

theorem encode_tbGetfreq (sym : Byte) : encode (.tbGetfreq sym) = 0x31000000#32 ||| sym.setWidth 32 :=
  encode_eq_opcode_or (show 0x31#8 ++ 0#15 ++ BitVec.ofBool false ++ 0#8 = _ by decide)

theorem exec_tbSetfreq {s : State} (sym : Byte) (hidle : s.seq = .idle) :
    exec (.tbSetfreq sym) s = .next
      { s with freq := setFreq s.freq sym (countOperand s), treeValid := false, codesValid := false
               done := true, code := .ok } :=
  unitCommand_ret (rule := ruleTbSetfreq sym) hidle rfl

/-- Settles O26: the rule's write is to the one element. -/
theorem setfreqWritesOneCount : Obligations.SetfreqWritesOneCount :=
  ⟨encode_tbSetfreq, fun s sym hidle => ⟨_, exec_tbSetfreq sym hidle, freqAt_setFreq_same s.freq sym _,
    fun _ hne => freqAt_setFreq_other s.freq _ hne⟩⟩

/-- Settles O27: the rule reads the count and tests nothing. -/
theorem getfreqReadsOneCount : Obligations.GetfreqReadsOneCount :=
  ⟨encode_tbGetfreq, fun _ sym hidle => unitCommand_ret (rule := ruleTbGetfreq sym) hidle rfl⟩

/-! ## TB.BUILD -/

theorem ruleTbBuild_none {s : State} (h : buildTree s.freq s.node = none) :
    ruleTbBuild s = .raise .emptyInput
      { s with nodeCount := 0#10, root := 0#9, treeValid := false, codesValid := false } := by
  rw [ruleTbBuild, h]

theorem ruleTbBuild_some {s : State} {t : Built} (h : buildTree s.freq s.node = some t) :
    ruleTbBuild s = .ret (some (zext64 (nodeAt t.arena t.root).weight))
      { s with node := t.arena, nodeCount := t.count, root := t.root, treeValid := true, codesValid := false } := by
  rw [ruleTbBuild, h]

theorem exec_tbBuild_none {s : State} (hidle : s.seq = .idle) (h : buildTree s.freq s.node = none) :
    exec .tbBuild s = .next
      { s with nodeCount := 0#10, root := 0#9, treeValid := false, codesValid := false, done := true
               code := .emptyInput } :=
  unitCommand_raise_of_idle hidle (ruleTbBuild_none (s := startCommand s) h) hidle

theorem exec_tbBuild_some {s : State} {t : Built} (hidle : s.seq = .idle) (h : buildTree s.freq s.node = some t) :
    exec .tbBuild s = .next
      { s with node := t.arena, nodeCount := t.count, root := t.root, treeValid := true, codesValid := false
               result := zext64 (nodeAt t.arena t.root).weight, done := true, code := .ok } :=
  unitCommand_ret hidle (ruleTbBuild_some (s := startCommand s) h)

theorem zext64_leafNode_weight (f : Freq) (sym : Byte) :
    zext64 (leafNode f sym).weight = (freqAt f sym).setWidth 64 :=
  BitVec.setWidth_setWidth (by decide)

/-- Settles O28: none and one of the three counts of used symbols. -/
theorem buildOfDegenerateTables : Obligations.BuildOfDegenerateTables := by
  constructor
  · intro s hidle hzero
    exact exec_tbBuild_none hidle (buildTree_nil _ (usedSymbols_eq_nil hzero))
  · intro s sym hidle hused hothers
    rw [exec_tbBuild_some hidle (buildTree_singleton _ (usedSymbols_eq_singleton hused hothers)),
      nodeAt_setNode_same _ _ (by decide), zext64_leafNode_weight]
    rfl

/-- Settles O29: the merges' invariant at their end. -/
theorem buildMakesTheGreedyTree : Obligations.BuildMakesTheGreedyTree := by
  intro s hidle hk
  obtain ⟨a, htree, hbuild⟩ := buildTree_greedy s.node hk
  exact ⟨a, _, exec_tbBuild_some hidle hbuild, htree.leaf, htree.merge, htree.kept⟩

theorem zext64_eq_ofNat {n : Nat} (v : BitVec n) : zext64 v = BitVec.ofNat 64 v.toNat :=
  (BitVec.ofNat_toNat 64 v).symm

/-- Settles O30: a used symbol gives a tree, and its root's weight is RESULT. -/
theorem builtRootWeighsTheTotal : Obligations.BuiltRootWeighsTheTotal := by
  intro s sym hidle hused
  obtain ⟨t, hbuild⟩ := buildTree_eq_some s.node hused
  have hweight := root_weight_of_buildTree hbuild
  refine ⟨t.arena, t.count, t.root, ?_, hweight⟩
  rw [exec_tbBuild_some hidle hbuild, zext64_eq_ofNat, hweight]

/-- Settles O31: the two arenas get the same tree. -/
theorem buildDependsOnFreqAlone : Obligations.BuildDependsOnFreqAlone := by
  intro s1 s2 t1 t2 hidle1 hidle2 hfreq hexec1 hexec2
  cases hbuild1 : buildTree s1.freq s1.node with
  | none =>
    have hbuild2 := hfreq ▸ buildTree_arena_none (b := s2.node) hbuild1
    cases (exec_tbBuild_none hidle1 hbuild1).symm.trans hexec1
    cases (exec_tbBuild_none hidle2 hbuild2).symm.trans hexec2
    exact ⟨rfl, rfl, rfl, rfl, nofun⟩
  | some t =>
    obtain ⟨a, hagree, hbuild2⟩ := buildTree_arena (b := s2.node) hbuild1
    cases (exec_tbBuild_some hidle1 hbuild1).symm.trans hexec1
    cases (exec_tbBuild_some hidle2 (hfreq ▸ hbuild2)).symm.trans hexec2
    exact ⟨rfl, rfl, rfl, rfl, fun _ hi => hagree.nodeAt hi⟩

/-! ## TB.INFO and TB.NODE (R191, R192) -/

section Read

variable {s : State} (hidle : s.seq = .idle)
include hidle

theorem exec_tbInfo_invalid (hinvalid : s.treeValid = false) :
    exec .tbInfo s = .next { s with done := true, code := .protocolError } :=
  unitCommand_require (rule := ruleTbInfo) hidle (if_neg (Bool.eq_false_iff.mp hinvalid))

theorem exec_tbInfo_valid (hvalid : s.treeValid = true) :
    exec .tbInfo s = .next { s with result := infoResult s.nodeCount s.root, done := true, code := .ok } :=
  unitCommand_ret (rule := ruleTbInfo) hidle (if_pos hvalid)

theorem exec_tbNode_invalid (hinvalid : s.treeValid = false) :
    exec .tbNode s = .next { s with done := true, code := .protocolError } :=
  unitCommand_require (rule := ruleTbNode) hidle (if_neg (Bool.eq_false_iff.mp hinvalid))

/-- An entry at or above node_count reads as 0. -/
theorem exec_tbNode_past (hvalid : s.treeValid = true) (hpast : s.nodeCount.toNat ≤ (indexOperand s).toNat) :
    exec .tbNode s = .next { s with result := 0#64, done := true, code := .ok } :=
  unitCommand_ret (rule := ruleTbNode) hidle ((if_pos hvalid).trans (if_pos hpast))

theorem exec_tbNode_entry (hvalid : s.treeValid = true) (hlt : (indexOperand s).toNat < s.nodeCount.toNat) :
    exec .tbNode s = .next
      { s with result := nodeResult (nodeAt s.node (indexOperand s)), done := true, code := .ok } :=
  unitCommand_ret (rule := ruleTbNode) hidle ((if_pos hvalid).trans (if_neg hlt.not_ge))

end Read

/-- The layout of R191. -/
theorem infoResult_fields (c : BitVec 10) (r : NodeIdx) :
    (infoResult c r).extractLsb' 0 9 = r ∧ (infoResult c r).extractLsb' 9 7 = 0#7 ∧
      (infoResult c r).extractLsb' 16 10 = c ∧ (infoResult c r).extractLsb' 26 38 = 0#38 := by
  have hzext {start len : Nat} (h : start + len ≤ 64) :
      (infoResult c r).extractLsb' start len = (c ++ 0#7 ++ r).extractLsb' start len :=
    BitVec.extractLsb'_setWidth_of_le h
  rw [hzext (by decide), hzext (by decide), hzext (by decide), hzext (by decide)]
  refine ⟨BitVec.extractLsb'_append_eq_right, ?_, ?_, ?_⟩
  · rw [BitVec.extractLsb'_append_eq_of_le (by decide)]
    exact BitVec.extractLsb'_append_eq_right
  · rw [BitVec.extractLsb'_append_eq_of_le (by decide)]
    exact BitVec.extractLsb'_append_eq_left
  · ext i hi
    simp

/-- Settles O32: the layout of R191 and the test of tree_valid. -/
theorem infoReadsSizeAndRoot : Obligations.InfoReadsSizeAndRoot :=
  ⟨rfl, fun s hidle => ⟨exec_tbInfo_invalid hidle,
    fun hvalid => ⟨_, exec_tbInfo_valid hidle hvalid, infoResult_fields s.nodeCount s.root⟩⟩⟩

/-- The layout of R192. -/
theorem nodeResult_fields (e : Node) :
    (nodeResult e).extractLsb' 0 40 = e.weight ∧ (nodeResult e).extractLsb' 40 9 = nodeFieldA e ∧
      (nodeResult e).extractLsb' 49 9 = nodeFieldB e ∧ (nodeResult e).extractLsb' 58 4 = 0#4 ∧
      (nodeResult e).getLsbD 62 = nodeIsLeaf e ∧ (nodeResult e).getLsbD 63 = true := by
  have habove {start len : Nat} (h : 40 ≤ start) : (nodeResult e).extractLsb' start len =
      (1#1 ++ BitVec.ofBool (nodeIsLeaf e) ++ 0#4 ++ nodeFieldB e ++ nodeFieldA e).extractLsb' (start - 40) len :=
    BitVec.extractLsb'_append_eq_of_le h
  refine ⟨BitVec.extractLsb'_append_eq_right, ?_, ?_, ?_, ?_⟩
  · rw [habove le_rfl]
    exact BitVec.extractLsb'_append_eq_right
  · rw [habove (by decide), BitVec.extractLsb'_append_eq_of_le (by decide)]
    exact BitVec.extractLsb'_append_eq_right
  · rw [habove (by decide), BitVec.extractLsb'_append_eq_of_le (by decide),
      BitVec.extractLsb'_append_eq_of_le (by decide)]
    exact BitVec.extractLsb'_append_eq_right
  · unfold nodeResult
    constructor <;> iterate 5 rw [BitVec.getLsbD_append]
    all_goals simp

theorem nodeFields_of_leaf {e : Node} (h : e.kind = .leaf) :
    nodeFieldA e = e.sym.setWidth 9 ∧ nodeFieldB e = 0x1FF#9 ∧ nodeIsLeaf e = true := by
  simp [nodeFieldA, nodeFieldB, nodeIsLeaf, h]

theorem nodeFields_of_internal {e : Node} (h : e.kind = .internal) :
    nodeFieldA e = e.left ∧ nodeFieldB e = e.right ∧ nodeIsLeaf e = false := by
  simp [nodeFieldA, nodeFieldB, nodeIsLeaf, h]

/-- Settles O33: the tests of R192 in order, then its layout for each kind of entry. -/
theorem nodeReadsOneEntry : Obligations.NodeReadsOneEntry := by
  refine ⟨rfl, fun s hidle => ⟨exec_tbNode_invalid hidle, exec_tbNode_past hidle, fun hvalid hlt => ?_⟩⟩
  obtain ⟨hweight, hA, hB, hzero, hleaf, hbit⟩ := nodeResult_fields (nodeAt s.node (indexOperand s))
  refine ⟨_, exec_tbNode_entry hidle hvalid hlt, hweight, hzero, hbit, fun hkind => ?_, fun hkind => ?_⟩
  · rw [hA, hB, hleaf]
    exact nodeFields_of_leaf hkind
  · rw [hA, hB, hleaf]
    exact nodeFields_of_internal hkind

end Sys2Proof.Machine

/-!
SUPPORT. The tree under an arena entry as a data type, with the root-to-leaf path of each of its leaves, and the walk of
ENC.DERIVE over it (spec/43_huffman_tree_builder.md R183 to R186; 44_huffman_encoder.md R213).
-/

namespace Sys2Proof.Machine

/-! ## Trees -/

/-- A tree of the arena: a leaf, the single-symbol root over its one child (R186), or a merged node (R185). -/
inductive CodeTree
  | leaf (sym : Byte)
  | single (child : CodeTree)
  | merged (left right : CodeTree)

/-- A symbol and its path with one more edge at the top. -/
def addEdge (b : Bool) (c : Byte × List Bool) : Byte × List Bool := (c.1, b :: c.2)

/-- The leaves' symbols with the paths to them, in the order ENC.DERIVE meets them: left first, with 0 for left
(R11, R213). -/
def CodeTree.codes : CodeTree → List (Byte × List Bool)
  | leaf sym => [(sym, [])]
  | single child => child.codes.map (addEdge false)
  | merged left right => left.codes.map (addEdge false) ++ right.codes.map (addEdge true)

/-- The symbols of the leaves. -/
def CodeTree.symbols (T : CodeTree) : List Byte := T.codes.map Prod.fst

@[simp] theorem CodeTree.symbols_leaf (sym : Byte) : (leaf sym).symbols = [sym] := rfl

theorem map_fst_addEdge (b : Bool) (cs : List (Byte × List Bool)) :
    (cs.map (addEdge b)).map Prod.fst = cs.map Prod.fst := by
  rw [List.map_map]; rfl

@[simp] theorem CodeTree.symbols_single (child : CodeTree) : (single child).symbols = child.symbols :=
  map_fst_addEdge false _

@[simp] theorem CodeTree.symbols_merged (left right : CodeTree) :
    (merged left right).symbols = left.symbols ++ right.symbols := by
  simp only [symbols, codes, List.map_append, map_fst_addEdge]

/-- Entry `i` of the arena is the top of tree `T`. -/
inductive HoldsTree (a : Arena) : NodeIdx → CodeTree → Prop
  | leaf {i : NodeIdx} (hkind : (nodeAt a i).kind = .leaf) : HoldsTree a i (.leaf (nodeAt a i).sym)
  | single {i : NodeIdx} {T : CodeTree} (hkind : (nodeAt a i).kind = .internal)
      (hleft : (nodeAt a i).left ≠ Config.noneIdx) (hright : (nodeAt a i).right = Config.noneIdx)
      (hchild : HoldsTree a (nodeAt a i).left T) : HoldsTree a i (.single T)
  | merged {i : NodeIdx} {L R : CodeTree} (hkind : (nodeAt a i).kind = .internal)
      (hleft : (nodeAt a i).left ≠ Config.noneIdx) (hright : (nodeAt a i).right ≠ Config.noneIdx)
      (hL : HoldsTree a (nodeAt a i).left L) (hR : HoldsTree a (nodeAt a i).right R) : HoldsTree a i (.merged L R)

/-! ## Paths -/

section Descend

variable {a : Arena} {i : NodeIdx}

theorem descend_left {path : List Bool} (hkind : (nodeAt a i).kind = .internal)
    (hleft : (nodeAt a i).left ≠ Config.noneIdx) :
    descend a i (false :: path) = descend a (nodeAt a i).left path := by
  simp [descend, hkind, hleft]

theorem descend_right {path : List Bool} (hkind : (nodeAt a i).kind = .internal)
    (hright : (nodeAt a i).right ≠ Config.noneIdx) :
    descend a i (true :: path) = descend a (nodeAt a i).right path := by
  simp [descend, hkind, hright]

/-- No path goes on below a leaf. -/
theorem descend_leaf_cons {b : Bool} {path : List Bool} (hkind : (nodeAt a i).kind = .leaf) :
    descend a i (b :: path) = none := by
  simp [descend, hkind]

theorem descend_append (path path' : List Bool) :
    descend a i (path ++ path') = (descend a i path).bind fun j => descend a j path' := by
  induction path generalizing i with
  | nil => rfl
  | cons b path ih =>
    simp only [List.cons_append, descend]
    generalize (if b then (nodeAt a i).right else (nodeAt a i).left) = child
    split
    · rfl
    · split
      · rfl
      · exact ih

/-- A path to a leaf that goes on to a leaf goes on by nothing. -/
theorem LeafPath.sym_eq_of_prefix {root : NodeIdx} {path path' : List Bool} {sym sym' : Byte}
    (h : LeafPath a root path sym) (h' : LeafPath a root path' sym') (hprefix : path <+: path') : sym = sym' := by
  obtain ⟨i, hi, hkind, rfl⟩ := h
  obtain ⟨j, hj, -, rfl⟩ := h'
  obtain ⟨rest, rfl⟩ := hprefix
  rw [descend_append, hi, Option.bind_some] at hj
  cases rest with
  | nil => cases hj; rfl
  | cons b rest => rw [descend_leaf_cons hkind] at hj; cases hj

end Descend

/-- Each path of a tree leads to a leaf of its symbol. -/
theorem HoldsTree.leafPath {a : Arena} {i : NodeIdx} {T : CodeTree} (h : HoldsTree a i T) :
    ∀ c ∈ T.codes, LeafPath a i c.2 c.1 := by
  induction h with
  | leaf hkind => exact List.forall_mem_singleton.mpr ⟨_, rfl, hkind, rfl⟩
  | single hkind hleft _ _ ih =>
    refine List.forall_mem_map.mpr fun c hc => ?_
    rw [LeafPath, addEdge, descend_left hkind hleft]
    exact ih c hc
  | merged hkind hleft hright _ _ ihL ihR =>
    refine List.forall_mem_append.mpr
      ⟨List.forall_mem_map.mpr fun c hc => ?_, List.forall_mem_map.mpr fun c hc => ?_⟩
    · rw [LeafPath, addEdge, descend_left hkind hleft]
      exact ihL c hc
    · rw [LeafPath, addEdge, descend_right hkind hright]
      exact ihR c hc

/-! ## The walk -/

/-- The table with each symbol of a list bound to its path below `path`. -/
def bindCodes (path : List Bool) (t : CodeTable) (cs : List (Byte × List Bool)) : CodeTable :=
  cs.foldl (fun t c => bindCode t c.1 (path ++ c.2)) t

theorem bindCodes_append (path : List Bool) (t : CodeTable) (cs cs' : List (Byte × List Bool)) :
    bindCodes path t (cs ++ cs') = bindCodes path (bindCodes path t cs) cs' := List.foldl_append

theorem bindCodes_map_addEdge (path : List Bool) (t : CodeTable) (b : Bool) (cs : List (Byte × List Bool)) :
    bindCodes path t (cs.map (addEdge b)) = bindCodes (path ++ [b]) t cs := by
  simp only [bindCodes, List.foldl_map, addEdge, List.append_assoc, List.singleton_append]

/-- The walk of R213 binds the tree's symbols to their paths. -/
theorem HoldsTree.deriveBelow {a : Arena} {i : NodeIdx} {T : CodeTree} (h : HoldsTree a i T) {depth : Nat}
    {path : List Bool} {t t' : CodeTable} (hwalk : deriveBelow a depth i path t = some t') :
    t' = bindCodes path t T.codes := by
  induction h generalizing depth path t t' with
  | leaf hkind =>
    cases depth with
    | zero => cases hwalk
    | succ depth =>
      simp only [Machine.deriveBelow, hkind] at hwalk
      cases hwalk
      simp [bindCodes, CodeTree.codes]
  | single hkind _ hright _ ih =>
    cases depth with
    | zero => cases hwalk
    | succ depth =>
      simp only [Machine.deriveBelow, hkind, hright, if_true] at hwalk
      split at hwalk
      next => cases hwalk
      next t1 ht1 =>
        cases hwalk
        rw [CodeTree.codes, bindCodes_map_addEdge]
        exact ih ht1
  | merged hkind _ hright _ _ ihL ihR =>
    cases depth with
    | zero => cases hwalk
    | succ depth =>
      simp only [Machine.deriveBelow, hkind, if_neg hright] at hwalk
      split at hwalk
      next => cases hwalk
      next t1 ht1 =>
        rw [CodeTree.codes, bindCodes_append, bindCodes_map_addEdge, bindCodes_map_addEdge, ← ihL ht1]
        exact ihR hwalk

end Sys2Proof.Machine

/-!
SUPPORT. The tree that TB.BUILD leaves under its root, as a `CodeTree`: its leaves are the used symbols, each once, and
no path is longer than 255 (spec/43_huffman_tree_builder.md R185, R186, R189; 44_huffman_encoder.md R215).
-/

namespace Sys2Proof.Machine

/-! ## Path lengths -/

theorem CodeTree.codes_length_pos (T : CodeTree) : 0 < T.codes.length := by
  induction T with
  | leaf sym => exact Nat.one_pos
  | single child ih => simpa only [codes, List.length_map] using ih
  | merged left right ihL _ => rw [codes, List.length_append, List.length_map]; omega

/-- Every path has fewer edges than the tree has leaves. -/
def CodeTree.Short (T : CodeTree) : Prop := ∀ c ∈ T.codes, c.2.length < T.codes.length

theorem CodeTree.short_leaf (sym : Byte) : (leaf sym).Short := List.forall_mem_singleton.mpr Nat.one_pos

/-- A merge adds one edge to each path, and at least one leaf. -/
theorem CodeTree.Short.merged {L R : CodeTree} (hL : L.Short) (hR : R.Short) : (merged L R).Short := by
  have hLpos := L.codes_length_pos
  have hRpos := R.codes_length_pos
  unfold Short
  rw [codes, List.length_append, List.length_map, List.length_map]
  refine List.forall_mem_append.mpr ⟨List.forall_mem_map.mpr fun c hc => ?_, List.forall_mem_map.mpr fun c hc => ?_⟩
  · have hlt := hL c hc
    rw [addEdge, List.length_cons]
    omega
  · have hlt := hR c hc
    rw [addEdge, List.length_cons]
    omega

/-- Below an internal entry every path has an edge. -/
theorem HoldsTree.path_length_pos {a : Arena} {i : NodeIdx} {T : CodeTree} (h : HoldsTree a i T)
    (hkind : (nodeAt a i).kind = .internal) : ∀ c ∈ T.codes, 0 < c.2.length := by
  cases h with
  | leaf hleaf => cases hleaf.symm.trans hkind
  | single => exact List.forall_mem_map.mpr fun c _ => Nat.succ_pos _
  | merged =>
    exact List.forall_mem_append.mpr
      ⟨List.forall_mem_map.mpr fun c _ => Nat.succ_pos _, List.forall_mem_map.mpr fun c _ => Nat.succ_pos _⟩

/-! ## The forest of the live entries -/

/-- The trees under the live entries when entry `n` is made, over the leaves of `syms`. -/
structure Forest (a : Arena) (syms : List Byte) (n : Nat) (forest : List (NodeIdx × CodeTree)) : Prop where
  nodup : (forest.map Prod.fst).Nodup
  mem_live : ∀ i : NodeIdx, i ∈ forest.map Prod.fst ↔ liveBefore a syms.length n i.toNat
  size : n + forest.length = 2 * syms.length
  holds : ∀ p ∈ forest, HoldsTree a p.1 p.2
  short : ∀ p ∈ forest, p.2.Short
  symbols : (forest.flatMap fun p => p.2.symbols).Perm syms

theorem Forest.perm {a : Arena} {syms : List Byte} {n : Nat} {forest forest' : List (NodeIdx × CodeTree)}
    (h : Forest a syms n forest) (hperm : forest.Perm forest') : Forest a syms n forest' where
  nodup := (hperm.map _).nodup_iff.mp h.nodup
  mem_live i := (hperm.map _).mem_iff.symm.trans (h.mem_live i)
  size := hperm.length_eq ▸ h.size
  holds p hp := h.holds p (hperm.mem_iff.mpr hp)
  short p hp := h.short p (hperm.mem_iff.mpr hp)
  symbols := (hperm.flatMap_right _).symm.trans h.symbols

/-- A live entry has a tree in the forest, which may stand first. -/
theorem Forest.exists_cons {a : Arena} {syms : List Byte} {n : Nat} {forest : List (NodeIdx × CodeTree)}
    (h : Forest a syms n forest) {i : NodeIdx} (hi : i ∈ forest.map Prod.fst) :
    ∃ T rest, forest.Perm ((i, T) :: rest) := by
  obtain ⟨⟨_, T⟩, hp, rfl⟩ := List.mem_map.mp hi
  obtain ⟨before, after, rfl⟩ := List.append_of_mem hp
  exact ⟨T, before ++ after, List.perm_middle⟩

section Greedy

variable {f : Freq} {a₀ a : Arena} (htree : GreedyTree f a₀ a)
include htree

/-- Before the first merge each used symbol's leaf is a tree (R183). -/
theorem GreedyTree.forest_start : ∃ forest, Forest a (usedSymbols f) (usedSymbols f).length forest := by
  have hk := usedSymbols_length_le f
  have hleaf {m : Nat} (hm : m < (usedSymbols f).length) := htree.leaf m _ (List.getElem?_eq_getElem hm)
  have hstart := merging_start a hk
  refine ⟨(List.range (usedSymbols f).length).map fun m =>
    (BitVec.ofNat 9 m, .leaf (nodeAt a (BitVec.ofNat 9 m)).sym), ?_⟩
  constructor
  case nodup => rw [List.map_map]; exact hstart.nodup
  case mem_live => rw [List.map_map]; exact hstart.mem_live
  case size => rw [List.length_map, List.length_range, Nat.two_mul]
  case holds =>
    refine List.forall_mem_map.mpr fun m hm => .leaf ?_
    rw [hleaf (List.mem_range.mp hm)]
    rfl
  case short => exact List.forall_mem_map.mpr fun m _ => CodeTree.short_leaf _
  case symbols =>
    rw [List.flatMap_map]
    simp only [CodeTree.symbols_leaf, ← List.map_eq_flatMap]
    refine .of_eq (List.ext_getElem (by simp) fun m _ hm => ?_)
    rw [List.getElem_map, List.getElem_range, hleaf hm]
    rfl

/-- Entry `n` joins the trees of its two children into one (R185). -/
theorem GreedyTree.forest_merge {n : Nat} {i j : NodeIdx} {L R : CodeTree} {rest : List (NodeIdx × CodeTree)}
    (hkn : (usedSymbols f).length ≤ n) (hn : n < 2 * (usedSymbols f).length - 1)
    (hpair : LeastPair a (usedSymbols f).length n i.toNat j.toNat)
    (hnode : nodeAt a (BitVec.ofNat 9 n) = mergeNode a i j)
    (h : Forest a (usedSymbols f) n ((i, L) :: (j, R) :: rest)) :
    Forest a (usedSymbols f) (n + 1) ((BitVec.ofNat 9 n, .merged L R) :: rest) := by
  have hk := usedSymbols_length_le f
  have hn512 : n < 512 := by omega
  have hlive (m : NodeIdx) := h.mem_live m
  have hnodup := h.nodup
  have hsize := h.size
  simp only [List.map_cons, List.nodup_cons, List.mem_cons, List.length_cons] at hlive hnodup hsize
  obtain ⟨hi, hj, hrest⟩ := hnodup
  have hfresh : BitVec.ofNat 9 n ∉ rest.map Prod.fst := by
    intro hmem
    have hlt := ((hlive _).mp (.inr (.inr hmem))).1
    rw [toNat_nodeIdx hn512] at hlt
    exact hlt.false
  have hsome {m : NodeIdx} (hm : m.toNat < n) : m ≠ Config.noneIdx := by
    rintro rfl
    have hnone : (Config.noneIdx).toNat = 511 := rfl
    omega
  constructor
  case nodup => exact List.nodup_cons.mpr ⟨hfresh, hrest⟩
  case mem_live =>
    intro m
    have hnew := liveBefore_newest (n := n) (by omega) fun m hkm hmn => htree.merge m hkm (by omega)
    rw [liveBefore_succ hpair (fun _ _ => rfl) hnode hkn hnew, List.map_cons, List.mem_cons, ← hlive]
    have hmn : m = BitVec.ofNat 9 n ↔ m.toNat = n := by rw [← BitVec.toNat_inj, toNat_nodeIdx hn512]
    rw [hmn, ne_eq, ne_eq, BitVec.toNat_inj, BitVec.toNat_inj]
    refine or_congr_right ⟨fun hm => ⟨.inr (.inr hm), ?_, ?_⟩, fun ⟨hm, hmi, hmj⟩ => ?_⟩
    · rintro rfl; exact hi (.inr hm)
    · rintro rfl; exact hj hm
    · exact (hm.resolve_left hmi).resolve_left hmj
  case size => rw [List.length_cons]; omega
  case holds =>
    have htop : HoldsTree a (BitVec.ofNat 9 n) (.merged L R) := by
      refine .merged ?_ ?_ ?_ ?_ ?_ <;> rw [hnode]
      · rfl
      · exact hsome hpair.live_fst.1
      · exact hsome hpair.live_snd.1
      · exact h.holds (i, L) (.head _)
      · exact h.holds (j, R) (.tail _ (.head _))
    exact List.forall_mem_cons.mpr ⟨htop, fun p hp => h.holds p (.tail _ (.tail _ hp))⟩
  case short =>
    have htop : (CodeTree.merged L R).Short := (h.short (i, L) (.head _)).merged (h.short (j, R) (.tail _ (.head _)))
    exact List.forall_mem_cons.mpr ⟨htop, fun p hp => h.short p (.tail _ (.tail _ hp))⟩
  case symbols =>
    simpa only [List.flatMap_cons, CodeTree.symbols_merged, List.append_assoc] using h.symbols

/-- The merges keep a forest over the used symbols. -/
theorem GreedyTree.exists_forest {n : Nat} (hkn : (usedSymbols f).length ≤ n)
    (hn : n ≤ 2 * (usedSymbols f).length - 1) : ∃ forest, Forest a (usedSymbols f) n forest := by
  have hk := usedSymbols_length_le f
  induction n, hkn using Nat.le_induction with
  | base => exact htree.forest_start
  | succ n hkn ih =>
    obtain ⟨forest, hforest⟩ := ih (by omega)
    obtain ⟨i, j, hpair, hnode, -⟩ := greedyMerge_iff.mp (htree.merge n hkn hn)
    have hidx {m : Nat} (hm : m < n) : (BitVec.ofNat 9 m).toNat = m := toNat_nodeIdx (by omega)
    rw [← hidx hpair.live_fst.1, ← hidx hpair.live_snd.1] at hpair
    have himem := (hforest.mem_live _).mpr hpair.live_fst
    have hjmem := (hforest.mem_live _).mpr hpair.live_snd
    obtain ⟨L, rest, hperm⟩ := hforest.exists_cons himem
    have hj' : BitVec.ofNat 9 j ∈ rest.map Prod.fst := by
      have hmem := (hperm.map Prod.fst).mem_iff.mp hjmem
      exact (List.mem_cons.mp hmem).resolve_left fun heq => hpair.ne (congrArg BitVec.toNat heq).symm
    obtain ⟨⟨_, R⟩, hp, rfl⟩ := List.mem_map.mp hj'
    obtain ⟨before, after, rfl⟩ := List.append_of_mem hp
    exact ⟨_, htree.forest_merge hkn hn hpair hnode (hforest.perm (hperm.trans (List.perm_middle.cons _)))⟩

end Greedy

/-! ## The tree under the root -/

/-- `T` is the tree under the root that codes the table's symbols (R189, R215). -/
structure CodingTree (f : Freq) (a : Arena) (root : NodeIdx) (T : CodeTree) : Prop where
  holds : HoldsTree a root T
  symbols : T.symbols.Perm (usedSymbols f)
  path_length : ∀ c ∈ T.codes, 0 < c.2.length ∧ c.2.length ≤ 255

/-- The forest at the end is one tree, under the last entry made. -/
theorem GreedyTree.codingTree {f : Freq} {a₀ a : Arena} (htree : GreedyTree f a₀ a)
    (hk : 2 ≤ (usedSymbols f).length) :
    ∃ T, CodingTree f a (BitVec.ofNat 9 (2 * (usedSymbols f).length - 2)) T := by
  have hk' := usedSymbols_length_le f
  obtain ⟨forest, hforest⟩ := htree.exists_forest (n := 2 * (usedSymbols f).length - 1) (by omega) le_rfl
  have hsucc : 2 * (usedSymbols f).length - 1 = 2 * (usedSymbols f).length - 2 + 1 := by omega
  have hsize := hforest.size
  obtain ⟨⟨r, T⟩, rfl⟩ := List.length_eq_one_iff.mp (show forest.length = 1 by omega)
  have hroot : BitVec.ofNat 9 (2 * (usedSymbols f).length - 2) = r := by
    have hlive := liveBefore_newest (by omega) (hsucc ▸ htree.merge)
    refine List.mem_singleton.mp ((hforest.mem_live _).mpr ?_)
    rwa [toNat_nodeIdx (by omega), hsucc]
  obtain ⟨i, j, -, hnode, -⟩ := greedyMerge_iff.mp
    (htree.merge (2 * (usedSymbols f).length - 2) (by omega) (by omega))
  have hholds : HoldsTree a r T := hforest.holds _ (.head _)
  have hsymbols : T.symbols.Perm (usedSymbols f) := by simpa using hforest.symbols
  have hshort : T.Short := hforest.short _ (.head _)
  have hlength : T.codes.length = (usedSymbols f).length := by
    rw [← hsymbols.length_eq, CodeTree.symbols, List.length_map]
  rw [hroot] at hnode ⊢
  refine ⟨T, hholds, hsymbols, fun c hc => ⟨hholds.path_length_pos (by rw [hnode]; rfl) c hc, ?_⟩⟩
  have hlt := hshort c hc
  omega

/-- The single-symbol tree (R186). -/
theorem codingTree_single {f : Freq} {a : Arena} {sym : Byte} {w : Weight} (h : usedSymbols f = [sym])
    (hleaf : nodeAt a 0#9 = leafNode f sym)
    (hroot : nodeAt a 1#9 = { kind := .internal, sym := 0#8, left := 0#9, right := 0x1FF#9, weight := w }) :
    CodingTree f a 1#9 (.single (.leaf sym)) where
  holds := by
    refine .single ?_ ?_ ?_ ?_ <;> rw [hroot]
    · nofun
    · have hholds : HoldsTree a 0#9 (.leaf (nodeAt a 0#9).sym) := .leaf (by rw [hleaf]; rfl)
      rwa [hleaf] at hholds
  symbols := by rw [h]; exact .refl _
  path_length := List.forall_mem_singleton.mpr ⟨Nat.one_pos, Nat.le_add_left 1 254⟩

/-- Every tree TB.BUILD makes codes its table's symbols. -/
theorem codingTree_of_buildTree {f : Freq} {a : Arena} {t : Built} (h : buildTree f a = some t) :
    ∃ T, CodingTree f t.arena t.root T := by
  rcases usedSymbols_cases f with hnone | ⟨sym, hone⟩ | hmany
  · cases (buildTree_nil a hnone).symm.trans h
  · cases (buildTree_singleton a hone).symm.trans h
    refine ⟨_, codingTree_single hone ?_ (nodeAt_setNode_same _ _ (by decide))⟩
    rw [nodeAt_setNode_other _ _ (by decide), nodeAt_setNode_same _ _ (by decide)]
  · obtain ⟨_, htree, hbuild⟩ := buildTree_greedy a hmany
    cases hbuild.symm.trans h
    exact htree.codingTree hmany

end Sys2Proof.Machine

/-!
SUPPORT. The code table that ENC.DERIVE writes, symbol by symbol, and the statements about it
(spec/44_huffman_encoder.md R213 to R215).
-/

namespace Sys2Proof.Machine

/-! ## One symbol's code in a table -/

/-- The length the table holds for a symbol. -/
def CodeTable.lenAt (t : CodeTable) (sym : Byte) : BitVec 8 := t.len[sym.toNat]'(by have := sym.isLt; omega)

/-- The bits the table holds for a symbol. -/
def CodeTable.bitsAt (t : CodeTable) (sym : Byte) : BitVec 255 := t.bits[sym.toNat]'(by have := sym.isLt; omega)

/-- The table's code of a symbol is the path; with the empty path the symbol has none (R36). -/
structure CodeTable.Binds (t : CodeTable) (sym : Byte) (path : List Bool) : Prop where
  len : (t.lenAt sym).toNat = path.length
  bits : ∀ j, (t.bitsAt sym).getLsbD j = path.getD j false

theorem CodeTable.empty_binds (sym : Byte) : CodeTable.empty.Binds sym [] where
  len := by simp [lenAt, empty]
  bits := by simp [bitsAt, empty]

theorem CodeTable.Binds.eq_zero {t : CodeTable} {sym : Byte} (h : t.Binds sym []) :
    t.lenAt sym = 0#8 ∧ t.bitsAt sym = 0#255 :=
  ⟨BitVec.eq_of_toNat_eq h.len, BitVec.eq_of_getLsbD_eq fun j _ => by rw [h.bits, BitVec.getLsbD_zero]; rfl⟩

theorem getLsbD_writePath (v : BitVec 255) {path : List Bool} {j : Nat} (hj : j < 255) :
    (writePath v path).getLsbD j = path[j]?.getD (v.getLsbD j) := by
  rw [writePath, BitVec.getLsbD_ofFnLE, dif_pos hj]

/-- A symbol without a code is bound to a path of at most 255 edges. -/
theorem bindCode_binds_same {t : CodeTable} {sym : Byte} {path : List Bool} (h : t.Binds sym [])
    (hlen : path.length ≤ 255) : (bindCode t sym path).Binds sym path where
  len := by
    rw [CodeTable.lenAt, bindCode, Vector.getElem_set_self]
    exact Nat.mod_eq_of_lt (by omega)
  bits j := by
    have hzero : (t.bits[sym.toNat]'(by have := sym.isLt; omega)).getLsbD j = false := h.bits j
    rw [CodeTable.bitsAt, bindCode, Vector.getElem_set_self, List.getD_eq_getElem?_getD]
    by_cases hj : j < 255
    · rw [getLsbD_writePath _ hj, hzero]
    · rw [BitVec.getLsbD_of_ge _ _ (by omega), List.getElem?_eq_none (by omega), Option.getD_none]

theorem bindCode_binds_other {t : CodeTable} {sym other : Byte} {path path' : List Bool} (h : t.Binds other path')
    (hne : other ≠ sym) : (bindCode t sym path).Binds other path' := by
  have hsym : sym.toNat < 256 := sym.isLt
  have hother : other.toNat < 256 := other.isLt
  have hidx : sym.toNat ≠ other.toNat := fun heq => hne (BitVec.eq_of_toNat_eq heq.symm)
  have hlen : (bindCode t sym path).lenAt other = t.lenAt other := Vector.getElem_set_ne hsym hother hidx
  have hbits : (bindCode t sym path).bitsAt other = t.bitsAt other := Vector.getElem_set_ne hsym hother hidx
  exact ⟨hlen ▸ h.len, hbits ▸ h.bits⟩

/-! ## A whole walk -/

theorem bindCodes_nil_cons (t : CodeTable) (c : Byte × List Bool) (cs : List (Byte × List Bool)) :
    bindCodes [] t (c :: cs) = bindCodes [] (bindCode t c.1 c.2) cs := rfl

theorem bindCodes_binds_not_mem {cs : List (Byte × List Bool)} {t : CodeTable} {sym : Byte} {path : List Bool}
    (hsym : sym ∉ cs.map Prod.fst) (h : t.Binds sym path) : (bindCodes [] t cs).Binds sym path := by
  induction cs generalizing t with
  | nil => exact h
  | cons c cs ih =>
    rw [List.map_cons, List.mem_cons, not_or] at hsym
    rw [bindCodes_nil_cons]
    exact ih hsym.2 (bindCode_binds_other h hsym.1)

theorem bindCodes_binds_mem {cs : List (Byte × List Bool)} {t : CodeTable} (hnodup : (cs.map Prod.fst).Nodup)
    (hlen : ∀ c ∈ cs, c.2.length ≤ 255) (ht : ∀ c ∈ cs, t.Binds c.1 []) :
    ∀ c ∈ cs, (bindCodes [] t cs).Binds c.1 c.2 := by
  induction cs generalizing t with
  | nil => nofun
  | cons c cs ih =>
    rw [List.map_cons, List.nodup_cons] at hnodup
    rw [List.forall_mem_cons] at hlen ht ⊢
    obtain ⟨hc, hcs⟩ := hnodup
    rw [bindCodes_nil_cons]
    refine ⟨bindCodes_binds_not_mem hc (bindCode_binds_same ht.1 hlen.1), ih hcs hlen.2 fun d hd => ?_⟩
    exact bindCode_binds_other (ht.2 d hd) fun heq => hc (heq ▸ List.mem_map_of_mem hd)

/-- The table derived from a coding tree binds each used symbol to its path from the root, and no other symbol. -/
theorem CodingTree.binds {f : Freq} {a : Arena} {root : NodeIdx} {T : CodeTree} (h : CodingTree f a root T)
    {t : CodeTable} (hderive : deriveCodes a root = some t) :
    (∀ c ∈ T.codes, t.Binds c.1 c.2) ∧ ∀ sym, freqAt f sym = 0#32 → t.Binds sym [] := by
  rw [h.holds.deriveBelow hderive]
  refine ⟨bindCodes_binds_mem (h.symbols.nodup_iff.mpr (usedSymbols_nodup f)) (fun c hc => (h.path_length c hc).2)
    fun c _ => CodeTable.empty_binds c.1, fun sym hsym => bindCodes_binds_not_mem ?_ (CodeTable.empty_binds sym)⟩
  exact fun hmem => (mem_usedSymbols f sym).mp (h.symbols.mem_iff.mp hmem) hsym

/-! ## The code table of the state -/

/-- The state's code table. -/
def State.table (s : State) : CodeTable := { len := s.codeLen, bits := s.codeBits }

theorem CodeTable.Binds.codeOf {s : State} {sym : Byte} {path : List Bool} (h : s.table.Binds sym path) :
    s.codeOf sym = path := by
  have hlen : (s.codeLenAt sym).toNat = path.length := h.len
  have hbits (j : Nat) : (s.codeBitsAt sym).getLsbD j = path.getD j false := h.bits j
  refine List.ext_getElem (by simp [State.codeOf, hlen]) fun j _ hj => ?_
  simp [State.codeOf, hbits, hj]

/-- With a table derived from the tree TB.BUILD made, each used symbol's code is its path from the root, and an unused
symbol has none (R213). -/
structure CodesArePaths (s : State) : Prop where
  unused : ∀ sym, freqAt s.freq sym = 0#32 → s.codeLenAt sym = 0#8 ∧ s.codeBitsAt sym = 0#255
  leafPath : ∀ sym, freqAt s.freq sym ≠ 0#32 → LeafPath s.node s.root (s.codeOf sym) sym
  length : ∀ sym, freqAt s.freq sym ≠ 0#32 →
    0 < (s.codeOf sym).length ∧ (s.codeLenAt sym).toNat = (s.codeOf sym).length
  past_end : ∀ sym, freqAt s.freq sym ≠ 0#32 →
    ∀ j, (s.codeOf sym).length ≤ j → (s.codeBitsAt sym).getLsbD j = false

theorem codesArePaths_of_derived {s : State} (htree : TreeInv s) (hvalid : s.treeValid = true)
    (hderive : deriveCodes s.node s.root = some s.table) : CodesArePaths s := by
  obtain ⟨a, hbuild⟩ := htree hvalid
  obtain ⟨T, hT⟩ := codingTree_of_buildTree hbuild
  obtain ⟨hused, hunused⟩ := hT.binds hderive
  have hcode (sym : Byte) (hsym : freqAt s.freq sym ≠ 0#32) :
      (sym, s.codeOf sym) ∈ T.codes ∧ s.table.Binds sym (s.codeOf sym) := by
    have hleaf : sym ∈ T.symbols := hT.symbols.mem_iff.mpr ((mem_usedSymbols s.freq sym).mpr hsym)
    obtain ⟨⟨_, path⟩, hmem, rfl⟩ := List.mem_map.mp hleaf
    have hbinds := hused _ hmem
    rw [hbinds.codeOf]
    exact ⟨hmem, hbinds⟩
  constructor
  case unused => exact fun sym hsym => (hunused sym hsym).eq_zero
  case leafPath => exact fun sym hsym => hT.holds.leafPath _ (hcode sym hsym).1
  case length => exact fun sym hsym => ⟨(hT.path_length _ (hcode sym hsym).1).1, (hcode sym hsym).2.len⟩
  case past_end =>
    intro sym hsym j hj
    exact ((hcode sym hsym).2.bits j).trans (List.getD_eq_default _ _ hj)

theorem codesArePaths {s : State} (htree : TreeInv s) (hcodes : CodesInv s) (hvalid : s.codesValid = true) :
    CodesArePaths s := by
  obtain ⟨htv, hderive⟩ := hcodes hvalid
  exact codesArePaths_of_derived htree htv hderive

/-- A symbol has no code exactly when it is not in use. -/
theorem CodesArePaths.codeLenAt_eq_zero {s : State} (h : CodesArePaths s) (sym : Byte) :
    s.codeLenAt sym = 0#8 ↔ freqAt s.freq sym = 0#32 := by
  refine ⟨fun hzero => by_contra fun hused => ?_, fun hunused => (h.unused sym hunused).1⟩
  obtain ⟨hpos, hlen⟩ := h.length sym hused
  rw [← hlen, hzero] at hpos
  exact hpos.false

/-! ## The statements -/

theorem exec_encDerive_invalid {s : State} (hidle : s.seq = .idle) (hinvalid : s.treeValid = false) :
    exec .encDerive s = .next { s with done := true, code := .protocolError } :=
  unitCommand_require (rule := ruleEncDerive) hidle (if_neg (Bool.eq_false_iff.mp hinvalid))

theorem ruleEncDerive_some {s : State} {t : CodeTable} (hvalid : s.treeValid = true)
    (h : deriveCodes s.node s.root = some t) :
    ruleEncDerive s = .ret (some (BitVec.ofNat 64 (payloadBits s.freq t.len)))
      { s with codeLen := t.len, codeBits := t.bits, codesValid := true } := by
  rw [ruleEncDerive, if_pos hvalid, h]

/-- Settles O37: the walk ends on a tree that TB.BUILD made, and binds each of its leaves' symbols, which are the used
ones, to the path it took there. -/
theorem deriveBindsRootToLeafPaths : Obligations.DeriveBindsRootToLeafPaths := by
  intro s hidle htree
  refine ⟨exec_encDerive_invalid hidle, fun hvalid => ?_⟩
  obtain ⟨t, hderive⟩ := deriveCodes_eq_some htree hvalid
  have hexec := unitCommand_ret hidle (ruleEncDerive_some (s := startCommand s) hvalid hderive)
  refine ⟨t.len, t.bits, hexec, fun sym => ?_⟩
  have hpaths : CodesArePaths
      { s with codeLen := t.len, codeBits := t.bits, codesValid := true
               result := BitVec.ofNat 64 (payloadBits s.freq t.len), done := true, code := .ok } :=
    codesArePaths_of_derived htree hvalid hderive
  exact ⟨hpaths.unused sym, fun hused => ⟨hpaths.leafPath sym hused, (hpaths.length sym hused).1,
    hpaths.past_end sym hused⟩⟩

/-- Settles O38: a code is a path to its symbol's leaf, and below a leaf no path goes on. -/
theorem codesArePrefixFree : Obligations.CodesArePrefixFree := by
  intro s htree hcodes hvalid sym
  have hpaths := codesArePaths htree hcodes hvalid
  refine ⟨hpaths.codeLenAt_eq_zero sym, fun other hsym hother hne hprefix => hne ?_⟩
  exact (hpaths.leafPath sym hsym).sym_eq_of_prefix (hpaths.leafPath other hother) hprefix

end Sys2Proof.Machine

/-!
SUPPORT. A run of byte reads with OK draws, for the loops of ENC.COUNT and DEC.HEADER, and the statements about
ENC.COUNT (spec/20_memory.md R61; 44_huffman_encoder.md R211).
-/

namespace Sys2Proof.Machine

/-! ## Runs of reads -/

/-- The state after `j` bytes are read. -/
def State.afterReads (s : State) (j : Nat) : State :=
  { s with inPos := s.inPos + BitVec.ofNat 64 j, ioDraws := s.ioDraws.drop j }

theorem afterReads_zero (s : State) : s.afterReads 0 = s := by simp [State.afterReads]

theorem afterReads_afterReads (s : State) (i j : Nat) : (s.afterReads i).afterReads j = s.afterReads (i + j) := by
  simp [State.afterReads, BitVec.add_assoc, BitVec.ofNat_add]

theorem drawsOk_mono {m n : Nat} {s : State} (h : drawsOk n s) (hmn : m ≤ n) : drawsOk m s :=
  fun d hd => h d ((List.take_prefix_take_left hmn).subset hd)

theorem drawsOk_of_all {s : State} (h : allDrawsOk s) (n : Nat) : drawsOk n s :=
  fun d hd => h d (List.mem_of_mem_take hd)

theorem allDrawsOk_of_suffix {s t : State} (h : allDrawsOk s) (ht : t.ioDraws <:+ s.ioDraws) : allDrawsOk t :=
  fun d hd => h d (ht.subset hd)

/-- After `n` accesses of `n + 1` OK draws the next draw is OK. -/
theorem drawsOk_next {n : Nat} {s : State} (h : drawsOk (n + 1) s) : (s.ioDraws.drop n).head? ≠ some .ioerr := by
  rw [List.head?_drop]
  intro hd
  have hmem : IoDraw.ioerr ∈ s.ioDraws.take (n + 1) :=
    List.mem_of_getElem? ((List.getElem?_take_of_lt (Nat.lt_succ_self n)).trans hd)
  cases h _ hmem

section Reads

variable {s : State} (hin : InputInv s)
include hin

theorem inPos_afterReads {j : Nat} (hj : j ≤ s.unread.length) : (s.afterReads j).inPos.toNat = s.inPos.toNat + j := by
  have hmax : s.input.length ≤ 2 ^ 64 - 1 := hin.2
  have hpos := hin.1
  rw [State.unread, List.length_drop] at hj
  rw [State.afterReads, BitVec.toNat_add, BitVec.toNat_ofNat, Nat.add_mod_mod, Nat.mod_eq_of_lt (by omega)]

theorem unread_afterReads {j : Nat} (hj : j ≤ s.unread.length) : (s.afterReads j).unread = s.unread.drop j := by
  rw [State.unread, inPos_afterReads hin hj, State.unread, List.drop_drop]
  rfl

theorem inputInv_afterReads {j : Nat} (hj : j ≤ s.unread.length) : InputInv (s.afterReads j) := by
  refine ⟨?_, hin.2⟩
  rw [inPos_afterReads hin hj]
  have hpos := hin.1
  rw [State.unread, List.length_drop] at hj
  show s.inPos.toNat + j ≤ s.input.length
  omega

/-- An unread byte, read. -/
theorem inRead_unread (hlen : 0 < s.unread.length) (hd : s.ioDraws.head? ≠ some .ioerr) :
    ∃ b, s.unread = b :: (s.afterReads 1).unread ∧ inRead s = (.byte b, s.afterReads 1) := by
  rw [State.unread, List.length_drop] at hlen
  have hb := List.getElem?_eq_getElem (show s.inPos.toNat < s.input.length by omega)
  refine ⟨_, unread_eq_cons hin hb s.ioDraws.tail, ?_⟩
  rw [inRead_byte hd hb, State.afterReads, List.drop_one]

/-- Once every unread byte is read, the next read is at the end of IN. -/
theorem inRead_end (hd : drawsOk (s.unread.length + 1) s) :
    inRead (s.afterReads s.unread.length) =
      (.eof, { s.afterReads s.unread.length with ioDraws := s.ioDraws.drop (s.unread.length + 1) }) := by
  have hend : (s.afterReads s.unread.length).input[(s.afterReads s.unread.length).inPos.toNat]? = none := by
    rw [inPos_afterReads hin le_rfl, List.getElem?_eq_none_iff, State.unread, List.length_drop]
    show s.input.length ≤ _
    omega
  rw [inRead_eof (drawsOk_next hd) hend, State.afterReads, List.tail_drop]

end Reads

/-- DEC.HEADER's loop on enough bytes (R251). -/
theorem readBytes_unread (n : Nat) {s : State} (hin : InputInv s) (hn : n ≤ s.unread.length) (hd : drawsOk n s) :
    readBytes n s = .ret (s.unread.take n) (s.afterReads n) := by
  induction n generalizing s with
  | zero => rw [readBytes, afterReads_zero, List.take_zero]
  | succ n ih =>
    obtain ⟨b, hcons, hread⟩ := inRead_unread hin (by omega) (drawsOk_head hd)
    have hlen := congrArg List.length hcons
    rw [List.length_cons] at hlen
    rw [readBytes, hread]
    simp only []
    rw [ih (inputInv_afterReads hin (by omega)) (by omega) (drawsOk_tail hd _ (List.drop_one ..)), Res.bind_ret,
      afterReads_afterReads, Nat.add_comm 1 n, hcons, List.take_succ_cons]

/-! ## ENC.COUNT (R211) -/

/-- ENC.COUNT's loop takes `j` bytes, of which no count overflows. -/
theorem countLoop_unread (j n : Nat) {f : Freq} {s : State} (hin : InputInv s) (hj : j ≤ s.unread.length)
    (hd : drawsOk j s) (hlt : ∀ x, (freqAt f x).toNat + (s.unread.take j).count x < 2 ^ 32) :
    ∃ f', (∀ x, (freqAt f' x).toNat = (freqAt f x).toNat + (s.unread.take j).count x) ∧
      countLoop (j + n) f s = countLoop n f' (s.afterReads j) := by
  induction j generalizing f s with
  | zero => exact ⟨f, fun x => by simp, by rw [afterReads_zero, Nat.zero_add]⟩
  | succ j ih =>
    obtain ⟨b, hcons, hread⟩ := inRead_unread hin (by omega) (drawsOk_head hd)
    have hlen := congrArg List.length hcons
    rw [List.length_cons] at hlen
    simp only [hcons, List.take_succ_cons, List.count_cons, beq_iff_eq] at hlt ⊢
    have hmax : freqAt f b ≠ BitVec.allOnes 32 := by
      intro hones
      have hb := hlt b
      rw [hones, BitVec.toNat_allOnes, if_pos rfl] at hb
      omega
    have hsucc := freqAt_count_succ f hmax
    obtain ⟨f', hf', hloop⟩ := ih (s := s.afterReads 1) (f := setFreq f b (freqAt f b + 1#32))
      (inputInv_afterReads hin (by omega)) (by omega) (drawsOk_tail hd _ (List.drop_one ..))
      fun x => by rw [hsucc]; exact (Nat.add_assoc ..).trans_lt (Nat.add_comm (if b = x then 1 else 0) _ ▸ hlt x)
    refine ⟨f', fun x => by rw [hf', hsucc, Nat.add_assoc, Nat.add_comm (if b = x then 1 else 0)], ?_⟩
    rw [Nat.add_right_comm, countLoop, hread]
    simp only [if_neg hmax]
    rw [hloop, afterReads_afterReads, Nat.add_comm 1 j]

theorem countsOf_empty_add {f : Freq} {l : List Byte}
    (h : ∀ x, (freqAt f x).toNat = (freqAt (Vector.replicate 256 0#32) x).toNat + l.count x) : CountsOf f l :=
  fun x => by rw [h x]; simp [freqAt]

/-- The total of the counts is the number of bytes counted (R33, R211). -/
theorem CountsOf.total_eq {f : Freq} {l : List Byte} (h : CountsOf f l) : total f = l.length := by
  have hmem : ∀ x ∈ (l : Multiset Byte), x ∈ (usedSymbols f).toFinset := by
    intro x hx
    rw [List.mem_toFinset, mem_usedSymbols]
    intro hzero
    have hcount := h x
    rw [hzero] at hcount
    exact absurd (List.count_pos_iff.mpr hx) (by rw [← hcount]; exact Nat.lt_irrefl 0)
  calc total f = ((usedSymbols f).map fun x => l.count x).sum := by rw [total_eq_sum_usedSymbols]; simp only [h _]
    _ = ∑ x ∈ (usedSymbols f).toFinset, l.count x := (List.sum_toFinset _ (usedSymbols_nodup f)).symm
    _ = l.length := by
      simpa only [Multiset.coe_count, Multiset.coe_card] using Multiset.sum_count_eq_card hmem

/-- The first `j` bytes counted from a cleared table. -/
theorem ruleEncCount_unread (j : Nat) {s : State} (hin : InputInv s) (hj : j ≤ s.unread.length) (hd : drawsOk j s)
    (hlt : ∀ x, (s.unread.take j).count x < 2 ^ 32) :
    ∃ f, CountsOf f (s.unread.take j) ∧
      ruleEncCount s = (countLoop (s.remaining - j + 1) f (s.afterReads j)).bind fun f' t =>
        .ret (some (BitVec.ofNat 64 (total f'))) (writeFreq f' t) := by
  have hfuel : s.remaining + 1 = j + (s.remaining - j + 1) := by
    rw [State.unread, List.length_drop] at hj
    rw [State.remaining]
    omega
  obtain ⟨f, hf, hloop⟩ := countLoop_unread j (s.remaining - j + 1) (f := Vector.replicate 256 0#32) hin hj hd
    fun x => by simpa [freqAt] using hlt x
  exact ⟨f, countsOf_empty_add hf, by rw [ruleEncCount, hfuel, hloop]⟩

/-- The count runs to the end of IN. -/
theorem ruleEncCount_ret {s : State} (hin : InputInv s) (hd : drawsOk (s.unread.length + 1) s)
    (hlt : ∀ x, s.unread.count x < 2 ^ 32) :
    ∃ f, CountsOf f s.unread ∧
      ruleEncCount s = .ret (some (BitVec.ofNat 64 s.unread.length))
        { s with freq := f, treeValid := false, codesValid := false, inPos := BitVec.ofNat 64 s.input.length
                 ioDraws := s.ioDraws.drop (s.unread.length + 1) } := by
  rw [← List.take_length (l := s.unread)] at hlt
  obtain ⟨f, hf, hrule⟩ := ruleEncCount_unread s.unread.length hin le_rfl (drawsOk_mono hd (Nat.le_succ _)) hlt
  rw [List.take_length] at hf
  have hend : s.inPos + BitVec.ofNat 64 s.unread.length = BitVec.ofNat 64 s.input.length := by
    have hpos := hin.1
    calc
      s.inPos + BitVec.ofNat 64 s.unread.length
      _ = BitVec.ofNat 64 s.inPos.toNat + BitVec.ofNat 64 s.unread.length := by
        rw [BitVec.ofNat_toNat, BitVec.setWidth_eq]
      _ = BitVec.ofNat 64 (s.inPos.toNat + (s.input.length - s.inPos.toNat)) := by
        rw [← BitVec.ofNat_add, State.unread, List.length_drop]
      _ = BitVec.ofNat 64 s.input.length := by rw [Nat.add_sub_cancel' hpos]
  refine ⟨f, hf, ?_⟩
  rw [hrule, countLoop, inRead_end hin hd]
  simp only [Res.bind_ret, hf.total_eq, State.afterReads, hend, writeFreq]

/-- A read that fails after `j` bytes. -/
theorem ruleEncCount_ioerr {s : State} {j : Nat} (hin : InputInv s) (hj : j ≤ s.unread.length) (hd : drawsFailAt j s)
    (hlt : ∀ x, (s.unread.take j).count x < 2 ^ 32) :
    ruleEncCount s = .raise .ioError
      { s with inPos := s.inPos + BitVec.ofNat 64 j, ioDraws := s.ioDraws.drop (j + 1) } := by
  obtain ⟨f, -, hrule⟩ := ruleEncCount_unread j hin hj hd.1 hlt
  have herr : (s.afterReads j).ioDraws.head? = some .ioerr := (List.head?_drop ..).trans hd.2
  rw [hrule, countLoop, inRead_ioerr herr]
  simp only [Res.bind_raise, State.afterReads, List.tail_drop]

/-- The 2^32-th occurrence of a byte value, which is read. -/
theorem ruleEncCount_overflow {s : State} {j : Nat} {b : Byte} (hin : InputInv s) (hb : s.unread[j]? = some b)
    (hd : drawsOk (j + 1) s) (hlt : ∀ x, (s.unread.take j).count x < 2 ^ 32)
    (hmax : (s.unread.take j).count b = 2 ^ 32 - 1) :
    ruleEncCount s = .raise .overflow
      { s with inPos := s.inPos + BitVec.ofNat 64 (j + 1), ioDraws := s.ioDraws.drop (j + 1) } := by
  have hj := (List.getElem?_eq_some_iff.mp hb).1
  obtain ⟨f, hf, hrule⟩ := ruleEncCount_unread j hin hj.le (drawsOk_mono hd (Nat.le_succ j)) hlt
  have hunread := unread_afterReads hin hj.le
  obtain ⟨c, hcons, hread⟩ := inRead_unread (inputInv_afterReads hin hj.le)
    (by rw [hunread, List.length_drop]; omega) (drawsOk_next hd)
  have hcb : c = b := by
    rw [hunread, List.drop_eq_getElem_cons hj] at hcons
    rw [List.getElem?_eq_getElem hj] at hb
    exact (List.cons.inj hcons).1.symm.trans (Option.some.inj hb)
  have hones : freqAt f c = BitVec.allOnes 32 :=
    BitVec.eq_of_toNat_eq (by rw [hf, hcb, hmax, BitVec.toNat_allOnes])
  rw [hrule, countLoop, hread, afterReads_afterReads]
  simp only [if_pos hones, Res.bind_raise]
  rfl

/-- Settles O34: the loop takes every unread byte and stops at the end of IN. -/
theorem countCountsTheUnreadBytes : Obligations.CountCountsTheUnreadBytes := by
  intro s hidle hin hd hlt
  obtain ⟨f, hf, hrule⟩ := ruleEncCount_ret (s := startCommand s) hin hd hlt
  exact ⟨f, hf, unitCommand_ret hidle hrule⟩

/-- Settles O35: the loop takes `j` bytes, and its next pass raises. -/
theorem countFailsPrecisely : Obligations.CountFailsPrecisely := by
  intro s j hidle hin hj hlt
  constructor
  · intro hd
    exact unitCommand_raise_of_idle hidle (ruleEncCount_ioerr (s := startCommand s) hin hj hd hlt) hidle
  · intro b hb hmax hd
    exact unitCommand_raise_of_idle hidle (ruleEncCount_overflow (s := startCommand s) hin hb hd hlt hmax) hidle

end Sys2Proof.Machine

/-!
SUPPORT. The statements about ENC.HEADER, ENC.CODELEN and ENC.CODEWORD (spec/44_huffman_encoder.md R212, R216, R217).
-/

namespace Sys2Proof.Machine

/-! ## ENC.HEADER (R212) -/

theorem headerBytes_length (f : Freq) : (headerBytes f).length = 1024 := by
  have hfield : f.toList.map (fun c => (fieldBytes c).length) = f.toList.map fun _ => 4 := rfl
  rw [headerBytes, List.length_flatMap, hfield, List.map_const', List.sum_replicate, Vector.length_toList]
  rfl

/-- Byte `j` of a field is its bits from 24 − 8j on (R65). -/
theorem getElem?_fieldBytes (c : BitVec 32) {j : Nat} (hj : j < 4) :
    (fieldBytes c)[j]? = some (c.extractLsb' (24 - 8 * j) 8) := by
  interval_cases j <;> rfl

/-- Field `i` stands at bytes `4i` to `4i + 3`. -/
theorem getElem?_flatMap_fieldBytes {cs : List (BitVec 32)} {i j : Nat} (hi : i < cs.length) (hj : j < 4) :
    (cs.flatMap fieldBytes)[4 * i + j]? = some (cs[i].extractLsb' (24 - 8 * j) 8) := by
  induction cs generalizing i with
  | nil => cases hi
  | cons c cs ih =>
    have hlen : (fieldBytes c).length = 4 := rfl
    rw [List.flatMap_cons]
    cases i with
    | zero => rw [List.getElem?_append_left (by omega), Nat.mul_zero, Nat.zero_add, getElem?_fieldBytes c hj]; rfl
    | succ i =>
      rw [List.getElem?_append_right (by omega), hlen, show 4 * (i + 1) + j - 4 = 4 * i + j by omega]
      exact ih (Nat.lt_of_succ_lt_succ hi)

theorem getElem?_headerBytes (f : Freq) (sym : Byte) {j : Nat} (hj : j < 4) :
    (headerBytes f)[4 * sym.toNat + j]? = some ((freqAt f sym).extractLsb' (24 - 8 * j) 8) := by
  have hsym : sym.toNat < f.toList.length := by rw [Vector.length_toList]; exact sym.isLt
  rw [headerBytes, getElem?_flatMap_fieldBytes hsym hj, Vector.getElem_toList]
  rfl

theorem ruleEncHeader_ok {s : State} (hd : drawsOk 1024 s) :
    ruleEncHeader s = .ret none { s with out := s.out ++ headerBytes s.freq, ioDraws := s.ioDraws.drop 1024 } := by
  rw [← headerBytes_length s.freq] at hd ⊢
  rw [ruleEncHeader, writeBytes_ok _ s hd, Res.bind_ret]

theorem ruleEncHeader_ioerr {s : State} {n : Nat} (hn : n < 1024) (hd : drawsFailAt n s) :
    ruleEncHeader s = .raise .ioError
      { s with out := s.out ++ (headerBytes s.freq).take n, ioDraws := s.ioDraws.drop (n + 1) } := by
  rw [← headerBytes_length s.freq] at hn
  rw [ruleEncHeader, writeBytes_fail _ s n hn hd, Res.bind_raise]

/-- Settles O36: the rule writes the table's header bytes, which are its fields' bytes in symbol order. -/
theorem headerWritesTheCounts : Obligations.HeaderWritesTheCounts := by
  refine ⟨rfl, fun s hidle => ⟨headerBytes s.freq, headerBytes_length s.freq,
    fun sym _ hj => getElem?_headerBytes s.freq sym hj, fun hd => ?_, fun n hn hd => ?_⟩⟩
  · exact unitCommand_ret hidle (ruleEncHeader_ok (s := startCommand s) hd)
  · exact unitCommand_raise_of_idle hidle (ruleEncHeader_ioerr (s := startCommand s) hn hd) hidle

/-! ## ENC.CODELEN (R216) -/

theorem encode_encCodelen (sym : Byte) : encode (.encCodelen sym) = 0x43000000#32 ||| sym.setWidth 32 :=
  encode_eq_opcode_or (show 0x43#8 ++ 0#15 ++ BitVec.ofBool false ++ 0#8 = _ by decide)

/-- Settles O39: the `require` of R216, failed and met. -/
theorem codelenReadsTheLength : Obligations.CodelenReadsTheLength :=
  ⟨encode_encCodelen, fun _ sym hidle =>
    ⟨fun hinvalid => unitCommand_require (rule := ruleEncCodelen sym) hidle (if_neg (Bool.eq_false_iff.mp hinvalid)),
      fun hvalid => unitCommand_ret (rule := ruleEncCodelen sym) hidle (if_pos hvalid)⟩⟩

/-! ## ENC.CODEWORD (R217) -/

theorem encode_encCodeword (sym : Byte) : encode (.encCodeword sym) = 0x44000000#32 ||| sym.setWidth 32 :=
  encode_eq_opcode_or (show 0x44#8 ++ 0#15 ++ BitVec.ofBool false ++ 0#8 = _ by decide)

theorem getLsbD_codewordResult (len : BitVec 8) (bits : BitVec 255) (k : BitVec 2) {j : Nat} (hj : j < 64) :
    (codewordResult len bits k).getLsbD (63 - j) =
      if 64 * k.toNat + j < len.toNat then bits.getLsbD (64 * k.toNat + j) else false := by
  have hplace : 63 - (63 - j) = j := by omega
  rw [codewordResult, BitVec.getLsbD_ofFnLE, dif_pos (by omega)]
  simp only [hplace]
  split
  next hlt => rw [decide_eq_true hlt, Bool.true_and]
  next hge => rw [decide_eq_false hge, Bool.false_and]

theorem exec_encCodeword_valid {s : State} (sym : Byte) (hidle : s.seq = .idle) (hvalid : s.codesValid = true) :
    exec (.encCodeword sym) s = .next
      { s with result := codewordResult (s.codeLenAt sym) (s.codeBitsAt sym) (chunkOperand s), done := true
               code := .ok } :=
  unitCommand_ret (rule := ruleEncCodeword sym) hidle (if_pos hvalid)

/-- Settles O40: the `require` of R217, and the places of the chunk's bits. -/
theorem codewordReadsAChunk : Obligations.CodewordReadsAChunk := by
  refine ⟨encode_encCodeword, fun s sym hidle => ⟨fun hinvalid => ?_, fun hvalid => ?_⟩⟩
  · exact unitCommand_require (rule := ruleEncCodeword sym) hidle (if_neg (Bool.eq_false_iff.mp hinvalid))
  · exact ⟨_, exec_encCodeword_valid sym hidle hvalid, fun _ hj => getLsbD_codewordResult _ _ _ hj⟩

end Sys2Proof.Machine

/-!
SUPPORT. A run of bits through the writer, and the statements about ENC.EMIT and ENC.STEP (spec/41_bit_stream_writer.md
R140; 44_huffman_encoder.md R218 to R220).
-/

namespace Sys2Proof.Machine

/-! ## PutBit of each bit in turn (R218)

The buffered bits and the new ones are cut into those that make whole bytes and the rest. -/

theorem bufferedBits_length_lt (w : Writer) : (bufferedBits w).length < 8 := by
  rw [bufferedBits_eq_lowBits, lowBits_length]
  exact w.n.isLt

/-- The first byte's bits are the first of those that make whole bytes. -/
theorem split_first_byte {byte bits full rest : List Bool} (h : byte ++ bits = full ++ rest)
    (hle : byte.length ≤ full.length) : ∃ full', full = byte ++ full' ∧ bits = full' ++ rest := by
  obtain ⟨full', rfl⟩ := List.prefix_of_prefix_length_le ⟨bits, h⟩ (List.prefix_append full rest) hle
  rw [List.append_assoc, List.append_cancel_left_eq] at h
  exact ⟨full', rfl, h⟩

section EighthBit

variable {w : Writer} {b : Bool} (hn : w.n = 7#3)
include hn

theorem bufferedBits_append_length : (bufferedBits w ++ [b]).length = 8 := by
  rw [List.length_append, bufferedBits_eq_lowBits, lowBits_length, hn]
  rfl

/-- The 8th bit makes the first byte of the packing. -/
theorem packBits_eighth (bits : List Bool) :
    packBits (bufferedBits w ++ [b] ++ bits) = shiftIn w.acc b :: packBits bits := by
  rw [packBits_append (m := 1) (bufferedBits_append_length hn), packBits_bufferedBits_append b hn]
  rfl

end EighthBit

/-- With every write OK the whole bytes are sent and the rest stays buffered. -/
theorem putBits_sent {m : Nat} {s : State} {bits full rest : List Bool} (hopen : s.bsw.isOpen = true)
    (hbits : bufferedBits s.bsw ++ bits = full ++ rest) (hfull : full.length = 8 * m) (hrest : rest.length < 8)
    (hd : drawsOk m s) :
    ∃ w : Writer, w.isOpen = true ∧ bufferedBits w = rest ∧
      putBits bits s = .ret () { s with bsw := w, out := s.out ++ packBits full, ioDraws := s.ioDraws.drop m } := by
  induction bits generalizing m s full with
  | nil =>
    have hlt := bufferedBits_length_lt s.bsw
    rw [List.append_nil] at hbits
    rw [hbits, List.length_append] at hlt
    obtain rfl : m = 0 := by omega
    obtain rfl := List.length_eq_zero_iff.mp hfull
    exact ⟨s.bsw, hopen, hbits, by simp [putBits]⟩
  | cons b bits ih =>
    rw [List.append_cons] at hbits
    by_cases hn : s.bsw.n = 7#3
    · have hbyte := bufferedBits_append_length (b := b) hn
      have hlength := congrArg List.length hbits
      rw [List.length_append, hbyte, List.length_append] at hlength
      obtain ⟨full', rfl, hbits'⟩ := split_first_byte hbits (by omega)
      rw [List.length_append, hbyte] at hfull
      obtain ⟨m, rfl⟩ : ∃ m', m = m' + 1 := ⟨m - 1, by omega⟩
      rw [putBits, putBit_sent b hn (drawsOk_head hd), Res.bind_ret, packBits_eighth hn]
      obtain ⟨w, hw, hbuf, hput⟩ := ih (m := m)
        (s := { s with bsw := { s.bsw with acc := 0#8, n := 0#3 }, ioDraws := s.ioDraws.tail
                       out := s.out ++ [shiftIn s.bsw.acc b] }) hopen hbits' (by omega) (drawsOk_tail hd _ rfl)
      exact ⟨w, hw, hbuf, by rw [hput]; simp⟩
    · rw [putBits, putBit_buffer b hn, Res.bind_ret]
      exact ih (s := { s with bsw := { s.bsw with acc := shiftIn s.bsw.acc b, n := s.bsw.n + 1#3 } }) hopen
        ((congrArg (· ++ bits) (bufferedBits_shiftIn b hn)).trans hbits) hfull hd

/-- When the write after the first `n` fails, the bytes before it are sent and the writer is closed. -/
theorem putBits_lost {n : Nat} {s : State} {bits full rest : List Bool}
    (hbits : bufferedBits s.bsw ++ bits = full ++ rest) (hfull : full.length = 8 * n) (hrest : 8 ≤ rest.length)
    (hd : drawsFailAt n s) :
    putBits bits s = .raise .ioError
      { s with bsw := { isOpen := false, acc := 0#8, n := 0#3 }, out := s.out ++ packBits full
               ioDraws := s.ioDraws.drop (n + 1) } := by
  induction bits generalizing n s full with
  | nil =>
    have hlt := bufferedBits_length_lt s.bsw
    rw [List.append_nil] at hbits
    rw [hbits, List.length_append] at hlt
    omega
  | cons b bits ih =>
    obtain ⟨hok, herr⟩ := hd
    rw [List.append_cons] at hbits
    by_cases hn : s.bsw.n = 7#3
    · cases n with
      | zero =>
        obtain rfl := List.length_eq_zero_iff.mp hfull
        rw [putBits, putBit_lost b hn ((List.head?_eq_getElem? ..).trans herr), Res.bind_raise]
        simp
      | succ n =>
        have hbyte := bufferedBits_append_length (b := b) hn
        obtain ⟨full', rfl, hbits'⟩ := split_first_byte hbits (by omega)
        rw [List.length_append, hbyte] at hfull
        have hput := ih (n := n)
          (s := { s with bsw := { s.bsw with acc := 0#8, n := 0#3 }, ioDraws := s.ioDraws.tail
                         out := s.out ++ [shiftIn s.bsw.acc b] }) hbits' (by omega)
          ⟨drawsOk_tail hok _ rfl, (List.getElem?_tail ..).trans herr⟩
        rw [putBits, putBit_sent b hn (drawsOk_head hok), Res.bind_ret, packBits_eighth hn, hput]
        simp
    · rw [putBits, putBit_buffer b hn, Res.bind_ret]
      exact ih (s := { s with bsw := { s.bsw with acc := shiftIn s.bsw.acc b, n := s.bsw.n + 1#3 } })
        ((congrArg (· ++ bits) (bufferedBits_shiftIn b hn)).trans hbits) hfull ⟨hok, herr⟩

/-- The cut after `n` bytes. -/
theorem cut_bits (bits : List Bool) {n : Nat} (hn : n ≤ bits.length / 8) :
    bits = bits.take (8 * n) ++ bits.drop (8 * n) ∧ (bits.take (8 * n)).length = 8 * n ∧
      (bits.drop (8 * n)).length = bits.length - 8 * n :=
  ⟨(List.take_append_drop ..).symm, by rw [List.length_take]; omega, List.length_drop⟩

/-! ## ENC.EMIT (R219) -/

theorem encode_encEmit (sym : Byte) : encode (.encEmit sym) = 0x45000000#32 ||| sym.setWidth 32 :=
  encode_eq_opcode_or (show 0x45#8 ++ 0#15 ++ BitVec.ofBool false ++ 0#8 = _ by decide)

theorem ruleEncEmit_require {s : State} {sym : Byte}
    (h : s.codesValid = false ∨ s.bsw.isOpen = false ∨ s.codeLenAt sym = 0#8) :
    ruleEncEmit sym s = .raise .protocolError s := by
  unfold ruleEncEmit
  split_ifs with hcodes hopen hlen
  · rfl
  · rfl
  · rfl
  · exact absurd h (by simp [hcodes, hopen, hlen])

section Emit

variable {s : State} {sym : Byte} (hcodes : s.codesValid = true) (hopen : s.bsw.isOpen = true)
  (hlen : s.codeLenAt sym ≠ 0#8)
include hcodes hopen hlen

theorem ruleEncEmit_coded : ruleEncEmit sym s = (putBits (s.codeOf sym) s).bind fun _ t => .ret none t := by
  rw [ruleEncEmit, if_neg (by simp [hcodes]), if_neg (by simp [hopen]), if_neg hlen, emitCode]

variable {full rest : List Bool} (hbits : bufferedBits s.bsw ++ s.codeOf sym = full ++ rest)
include hbits

theorem ruleEncEmit_sent {m : Nat} (hfull : full.length = 8 * m) (hrest : rest.length < 8) (hd : drawsOk m s) :
    ∃ w : Writer, w.isOpen = true ∧ bufferedBits w = rest ∧
      ruleEncEmit sym s = .ret none
        { s with bsw := w, out := s.out ++ packBits full, ioDraws := s.ioDraws.drop m } := by
  obtain ⟨w, hw, hbuf, hput⟩ := putBits_sent hopen hbits hfull hrest hd
  exact ⟨w, hw, hbuf, by rw [ruleEncEmit_coded hcodes hopen hlen, hput, Res.bind_ret]⟩

theorem ruleEncEmit_lost {n : Nat} (hfull : full.length = 8 * n) (hrest : 8 ≤ rest.length) (hd : drawsFailAt n s) :
    ruleEncEmit sym s = .raise .ioError
      { s with bsw := { isOpen := false, acc := 0#8, n := 0#3 }, out := s.out ++ packBits full
               ioDraws := s.ioDraws.drop (n + 1) } := by
  rw [ruleEncEmit_coded hcodes hopen hlen, putBits_lost hbits hfull hrest hd, Res.bind_raise]

end Emit

/-- Settles O41: the three tests of R219, then the code's bits through the writer, cut into whole bytes. -/
theorem emitSendsOneCode : Obligations.EmitSendsOneCode := by
  refine ⟨encode_encEmit, fun s sym hidle => ?_⟩
  intro bits m
  refine ⟨fun h => ?_, fun hcodes hopen hlen => ⟨fun hd => ?_, fun n hn hd => ?_⟩⟩
  · exact unitCommand_require (rule := ruleEncEmit sym) hidle (ruleEncEmit_require (s := startCommand s) h)
  · obtain ⟨hcut, hfull, hrest⟩ := cut_bits bits (le_refl m)
    obtain ⟨w, hw, hbuf, hrule⟩ :=
      ruleEncEmit_sent (s := startCommand s) hcodes hopen hlen hcut hfull (by omega) hd
    exact ⟨w, hw, hbuf, unitCommand_ret hidle hrule⟩
  · obtain ⟨hcut, hfull, hrest⟩ := cut_bits bits hn.le
    exact unitCommand_raise_of_idle hidle
      (ruleEncEmit_lost (s := startCommand s) hcodes hopen hlen hcut hfull (by omega) hd) hidle

/-! ## ENC.STEP (R220) -/

theorem encStepByte_require {s : State} (h : s.codesValid = false ∨ s.bsw.isOpen = false) :
    encStepByte s = .raise .protocolError s := by
  unfold encStepByte
  split_ifs with hcodes hopen
  · rfl
  · rfl
  · exact absurd h (by simp [hcodes, hopen])

section Step

variable {s : State} (hcodes : s.codesValid = true) (hopen : s.bsw.isOpen = true)
include hcodes hopen

theorem encStepByte_ioerr (hd : s.ioDraws.head? = some .ioerr) :
    encStepByte s = .raise .ioError { s with ioDraws := s.ioDraws.tail } := by
  rw [encStepByte, if_neg (by simp [hcodes]), if_neg (by simp [hopen]), inRead_ioerr hd]

theorem encStepByte_eof (hd : s.ioDraws.head? ≠ some .ioerr) (hb : s.input[s.inPos.toNat]? = none) :
    encStepByte s = .ret none { s with ioDraws := s.ioDraws.tail } := by
  rw [encStepByte, if_neg (by simp [hcodes]), if_neg (by simp [hopen]), inRead_eof hd hb]

variable {b : Byte} (hb : s.input[s.inPos.toNat]? = some b)
include hb

theorem encStepByte_uncoded (hd : s.ioDraws.head? ≠ some .ioerr) (hlen : s.codeLenAt b = 0#8) :
    encStepByte s = .raise .protocolError { s with inPos := s.inPos + 1#64, ioDraws := s.ioDraws.tail } := by
  rw [encStepByte, if_neg (by simp [hcodes]), if_neg (by simp [hopen]), inRead_byte hd hb]
  exact if_pos hlen

variable (hlen : s.codeLenAt b ≠ 0#8)
include hlen

theorem encStepByte_coded (hd : s.ioDraws.head? ≠ some .ioerr) :
    encStepByte s = (putBits (s.codeOf b) { s with inPos := s.inPos + 1#64, ioDraws := s.ioDraws.tail }).bind
      fun _ t => .ret (some b) t := by
  rw [encStepByte, if_neg (by simp [hcodes]), if_neg (by simp [hopen]), inRead_byte hd hb]
  exact if_neg hlen

variable {full rest : List Bool} (hbits : bufferedBits s.bsw ++ s.codeOf b = full ++ rest)
include hbits

theorem encStepByte_sent {m : Nat} (hfull : full.length = 8 * m) (hrest : rest.length < 8) (hd : drawsOk (m + 1) s) :
    ∃ w : Writer, w.isOpen = true ∧ bufferedBits w = rest ∧
      encStepByte s = .ret (some b)
        { s with inPos := s.inPos + 1#64, bsw := w, out := s.out ++ packBits full
                 ioDraws := s.ioDraws.drop (m + 1) } := by
  obtain ⟨w, hw, hbuf, hput⟩ := putBits_sent
    (s := { s with inPos := s.inPos + 1#64, ioDraws := s.ioDraws.tail }) hopen hbits hfull hrest (drawsOk_tail hd _ rfl)
  refine ⟨w, hw, hbuf, ?_⟩
  rw [encStepByte_coded hcodes hopen hb hlen (drawsOk_head hd), hput, Res.bind_ret, List.drop_tail]

theorem encStepByte_lost {n : Nat} (hfull : full.length = 8 * n) (hrest : 8 ≤ rest.length)
    (hd : drawsFailAt (n + 1) s) :
    encStepByte s = .raise .ioError
      { s with inPos := s.inPos + 1#64, bsw := { isOpen := false, acc := 0#8, n := 0#3 }
               out := s.out ++ packBits full, ioDraws := s.ioDraws.drop (n + 2) } := by
  obtain ⟨hok, herr⟩ := hd
  have hput := putBits_lost (s := { s with inPos := s.inPos + 1#64, ioDraws := s.ioDraws.tail }) hbits hfull hrest
    ⟨drawsOk_tail hok _ rfl, (List.getElem?_tail ..).trans herr⟩
  rw [encStepByte_coded hcodes hopen hb hlen (drawsOk_head hok), hput, Res.bind_raise, List.drop_tail]

end Step

theorem exec_encStep_ret {s t : State} {r : Option Byte} (hidle : s.seq = .idle)
    (h : encStepByte (startCommand s) = .ret r t) : exec .encStep s = .next (endOk (some (stepResult r)) t) :=
  unitCommand_ret (rule := ruleEncStep) hidle (by rw [ruleEncStep, h, Res.bind_ret])

theorem exec_encStep_raise {s t : State} {e : StatusCode} (hidle : s.seq = .idle)
    (h : encStepByte (startCommand s) = .raise e t) (ht : t.seq = .idle) :
    exec .encStep s = .next { t with done := true, code := e } :=
  unitCommand_raise_of_idle (rule := ruleEncStep) hidle (by rw [ruleEncStep, h, Res.bind_raise]) ht

/-- Settles O42: one lemma for each outcome of R220; the code's bits are cut into whole bytes as in ENC.EMIT. -/
theorem stepReadsAByteAndSendsItsCode : Obligations.StepReadsAByteAndSendsItsCode := by
  refine ⟨rfl, fun s hidle => ⟨fun h => ?_, fun hcodes hopen =>
    ⟨fun hd => ?_, fun hd hb => ?_, fun b hd hb => ?_⟩⟩⟩
  · refine unitCommand_require (rule := ruleEncStep) hidle ?_
    rw [ruleEncStep, encStepByte_require (s := startCommand s) h, Res.bind_raise]
  · exact exec_encStep_raise hidle (encStepByte_ioerr (s := startCommand s) hcodes hopen hd) hidle
  · exact exec_encStep_ret hidle (encStepByte_eof (s := startCommand s) hcodes hopen hd hb)
  · intro bits m
    refine ⟨fun hlen => ?_, fun hlen hok => ?_, fun hlen n hn hfail => ?_⟩
    · exact exec_encStep_raise hidle (encStepByte_uncoded (s := startCommand s) hcodes hopen hb hd hlen) hidle
    · obtain ⟨hcut, hfull, hrest⟩ := cut_bits bits (le_refl m)
      obtain ⟨w, hw, hbuf, hstep⟩ :=
        encStepByte_sent (s := startCommand s) hcodes hopen hb hlen hcut hfull (by omega) hok
      exact ⟨w, hw, hbuf, exec_encStep_ret hidle hstep⟩
    · obtain ⟨hcut, hfull, hrest⟩ := cut_bits bits hn.le
      exact exec_encStep_raise hidle
        (encStepByte_lost (s := startCommand s) hcodes hopen hb hlen hcut hfull (by omega) hfail) hidle

end Sys2Proof.Machine

/-!
SUPPORT. The errors a RUN's core step can end with: where the invariants hold, the tests that a sub-command could fail
are met (spec/44_huffman_encoder.md R221; 45_huffman_decoder.md R254).
-/

namespace Sys2Proof.Machine

/-! ## The sub-commands' tests are met -/

/-- A table with a total has a tree (R187). -/
theorem buildTree_of_total_ne_zero {f : Freq} (a : Arena) (h : total f ≠ 0) : ∃ t, buildTree f a = some t := by
  cases hused : usedSymbols f with
  | nil => exact absurd (by rw [total_eq_sum_usedSymbols, hused]; rfl) h
  | cons sym l => exact buildTree_eq_some a ((mem_usedSymbols f sym).mp (hused ▸ List.mem_cons_self))

theorem ruleTbBuild_stops_of_total {F : Prop} {s : State} (h : total s.freq ≠ 0) : (ruleTbBuild s).Stops [] F := by
  obtain ⟨t, ht⟩ := buildTree_of_total_ne_zero s.node h
  rw [ruleTbBuild_some ht]
  trivial

theorem ruleEncDerive_stops_of_valid {F : Prop} {s : State} (htree : TreeInv s) (hvalid : s.treeValid = true) :
    (ruleEncDerive s).Stops [] F := by
  obtain ⟨t, ht⟩ := deriveCodes_eq_some htree hvalid
  rw [ruleEncDerive_some hvalid ht]
  trivial

theorem ruleBswOpen_stops_of_closed {F : Prop} {s : State} (h : s.bsw = Writer.closed) :
    (ruleBswOpen s).Stops [] F := by
  rw [ruleBswOpen, h, if_neg (by decide)]
  trivial

theorem ruleBsrOpen_stops_of_closed {F : Prop} {s : State} (u : Bool) (h : s.bsr = Reader.closed) :
    (ruleBsrOpen u s).Stops [] F := by
  rw [ruleBsrOpen, h, if_neg (by decide)]
  trivial

/-- A byte of the counted input is in use, so it has a code. -/
theorem codeLenAt_ne_zero_of_mem {s : State} {l : List Byte} (hpaths : CodesArePaths s) (hcounts : CountsOf s.freq l)
    {b : Byte} (hb : b ∈ l) : s.codeLenAt b ≠ 0#8 := by
  rw [ne_eq, hpaths.codeLenAt_eq_zero]
  intro hzero
  have hcount := hcounts b
  rw [hzero] at hcount
  exact (List.count_pos_iff.mpr hb).ne hcount

theorem encStepByte_stops_of_coded {F : Prop} {s : State} (hcodes : s.codesValid = true)
    (hopen : s.bsw.isOpen = true) (hcoded : ∀ b ∈ s.input, s.codeLenAt b ≠ 0#8) :
    (encStepByte s).Stops [.ioError] F := by
  by_cases hd : s.ioDraws.head? = some .ioerr
  · rw [encStepByte_ioerr hcodes hopen hd]
    exact .require
  · cases hb : s.input[s.inPos.toNat]? with
    | none => rw [encStepByte_eof hcodes hopen hd hb]; trivial
    | some b =>
      rw [encStepByte_coded hcodes hopen hb (hcoded b (List.mem_of_getElem? hb)) hd]
      exact (putBits_stops List.mem_cons_self _ _).map _ _

theorem ruleBswClose_stops_of_open {F : Prop} {s : State} (hopen : s.bsw.isOpen = true) :
    (ruleBswClose s).Stops [.ioError] F := by
  by_cases hn : s.bsw.n = 0#3
  · rw [ruleBswClose, if_pos hopen, if_pos hn]
    trivial
  · by_cases hd : s.ioDraws.head? = some .ioerr
    · rw [ruleBswClose_lost hopen hn hd]
      exact .require
    · rw [ruleBswClose_sent hopen hn hd]
      trivial

theorem ruleDecSymbol_stops_of_valid {F : Prop} {s : State} (hvalid : s.treeValid = true)
    (hopen : s.bsr.isOpen = true) : (ruleDecSymbol s).Stops [.ioError, .formatError, .corruptStream] F := by
  rw [ruleDecSymbol, if_neg (by simp [hvalid]), if_neg (by simp [hopen])]
  exact (decodeWalk_stops (by decide) (by decide) (by decide) _ _ s).map _ _

/-! ## Each label's errors -/

/-- The errors of the rule at each label (R221, R254). -/
def runErrors : Seq → List StatusCode
  | .eCount => [.ioError, .overflow]
  | .eHeader | .eStep | .eClose => [.ioError]
  | .dHeader => [.ioError, .formatError]
  | .dSymbol => [.ioError, .formatError, .corruptStream]
  | .idle | .eBuild | .eDerive | .eRewind | .eOpen | .dBuild | .dOpen => []

/-- Where the invariants hold, a label's sub-command stops, and only with the label's own errors. -/
theorem subCommand_stops {s : State} {i : Instr} {rule : State → UnitRes} (hs : Inv s)
    (hi : subCommand s.seq = some i) (hrule : unitRule i = some rule) : (rule s).Stops (runErrors s.seq) False := by
  have hp := hs.run.2
  cases hq : s.seq <;> simp only [PhaseInv, hq] at hi hp <;> cases hi <;> cases hrule
  case eCount => exact (unitRule_stops (i := .encCount) rfl s).of_never fun h => nomatch h.1
  case eHeader => exact (unitRule_stops (i := .encHeader) rfl s).of_never fun h => nomatch h.1
  case eBuild =>
    obtain ⟨-, -, htotal⟩ := hp
    exact ruleTbBuild_stops_of_total htotal
  case eDerive =>
    obtain ⟨-, -, hvalid⟩ := hp
    exact ruleEncDerive_stops_of_valid hs.tree hvalid
  case eRewind => trivial
  case eOpen =>
    obtain ⟨-, hclosed, -⟩ := hp
    exact ruleBswOpen_stops_of_closed hclosed
  case eStep =>
    obtain ⟨hcounts, hopen, hcodes⟩ := hp
    have hpaths := codesArePaths hs.tree hs.codes hcodes
    exact (encStepByte_stops_of_coded hcodes hopen fun b => codeLenAt_ne_zero_of_mem hpaths hcounts).map _ _
  case eClose => exact ruleBswClose_stops_of_open hp
  case dHeader => exact (unitRule_stops (i := .decHeader) rfl s).of_never fun h => nomatch h.1
  case dBuild =>
    obtain ⟨-, htotal, -⟩ := hp
    exact ruleTbBuild_stops_of_total htotal
  case dOpen =>
    obtain ⟨hclosed, -⟩ := hp
    exact ruleBsrOpen_stops_of_closed true hclosed
  case dSymbol =>
    obtain ⟨hopen, -, hvalid, -⟩ := hp
    exact ruleDecSymbol_stops_of_valid hvalid hopen

theorem apply_code {u : State} (next : RunNext) (h : u.code = .ok) : (next.apply u).code = .ok := by
  cases next with
  | label q => exact h
  | finish r => rfl

/-- Where the invariants hold, a RUN's core step gives a next state, with CODE = OK or one of its label's errors. -/
theorem coreStep_errors {s : State} (hs : Inv s) (hbusy : s.seq ≠ .idle) :
    ∃ t, coreStep s = .next t ∧ (t.code = .ok ∨ t.code ∈ runErrors s.seq) := by
  cases hi : subCommand s.seq with
  | none => exact absurd (seq_eq_idle_of_subCommand hi) hbusy
  | some i =>
    obtain ⟨rule, hrule⟩ := unitRule_of_subCommand hi
    have hstops := subCommand_stops hs hi hrule
    rw [coreStep_eq_afterSub hi hrule]
    cases hr : rule s with
    | ret v u =>
      have hcode : u.code = .ok := ((unitRule_keeps hrule s).of_ret hr).code.trans (hs.run.1 hbusy).2
      exact ⟨_, rfl, .inl (apply_code _ hcode)⟩
    | raise e u => exact ⟨_, rfl, .inr (hstops.of_raise hr)⟩
    | stuck f => exact (hstops.of_stuck hr).elim

/-- Settles O60: the label's errors are those the statement names. -/
theorem runsRaiseOnlyTheirOwnErrors : Obligations.RunsRaiseOnlyTheirOwnErrors := by
  intro s hs hbusy
  obtain ⟨t, ht, hcode⟩ := coreStep_errors hs hbusy
  refine ⟨t, ht, hcode.imp_right fun herr => ?_⟩
  cases hq : s.seq <;> rw [hq] at herr
  case eCount | eHeader | eStep | eClose | dHeader | dSymbol => simpa [runErrors] using herr
  all_goals cases herr

end Sys2Proof.Machine

/-!
SUPPORT. ENC.RUN with every draw OK, step by step: the counts and the header, then the code table
(spec/44_huffman_encoder.md R221 to R223).
-/

namespace Sys2Proof.Machine

/-! ## The core steps of ENC.RUN that end normally -/

section Steps

variable {s : State}

/-- A core step whose rule ends normally goes on as the table says (R124). -/
theorem coreStep_of_ret {u : State} {q : Seq} {i : Instr} {rule : State → UnitRes} {v : Option Word64}
    (hq : s.seq = q) (hi : subCommand q = some i) (hrule : unitRule i = some rule) (hr : rule s = .ret v u) :
    coreStep s = .next ((runNext q u (v.getD s.result)).apply u) := by
  subst hq
  rw [coreStep_eq_afterSub hi hrule, hr]
  rfl

theorem coreStep_eCount_ok (hq : s.seq = .eCount) (hin : InputInv s) (hok : allDrawsOk s)
    (hlt : ∀ x, s.unread.count x < 2 ^ 32) :
    ∃ f, CountsOf f s.unread ∧ coreStep s = .next
      { s with freq := f, treeValid := false, codesValid := false, inPos := BitVec.ofNat 64 s.input.length
               ioDraws := s.ioDraws.drop (s.unread.length + 1), seq := .eHeader } := by
  obtain ⟨f, hf, hrule⟩ := ruleEncCount_ret hin (drawsOk_of_all hok _) hlt
  exact ⟨f, hf, coreStep_of_ret (i := .encCount) hq rfl rfl hrule⟩

theorem coreStep_eHeader_ok (hq : s.seq = .eHeader) (hok : allDrawsOk s) :
    coreStep s = .next
      (afterEHeader { s with out := s.out ++ headerBytes s.freq, ioDraws := s.ioDraws.drop 1024 }) := by
  rw [coreStep_of_ret (i := .encHeader) hq rfl rfl (ruleEncHeader_ok (drawsOk_of_all hok _)), ← afterEHeader_eq]

theorem coreStep_eBuild_ok {b : Built} (hq : s.seq = .eBuild) (hb : buildTree s.freq s.node = some b) :
    coreStep s = .next
      { s with node := b.arena, nodeCount := b.count, root := b.root, treeValid := true, codesValid := false
               seq := .eDerive } :=
  coreStep_of_ret (i := .tbBuild) hq rfl rfl (ruleTbBuild_some hb)

theorem coreStep_eDerive_ok {t : CodeTable} (hq : s.seq = .eDerive) (hvalid : s.treeValid = true)
    (ht : deriveCodes s.node s.root = some t) :
    coreStep s = .next { s with codeLen := t.len, codeBits := t.bits, codesValid := true, seq := .eRewind } :=
  coreStep_of_ret (i := .encDerive) hq rfl rfl (ruleEncDerive_some hvalid ht)

theorem coreStep_eRewind_ok (hq : s.seq = .eRewind) : coreStep s = .next { s with inPos := 0#64, seq := .eOpen } :=
  coreStep_of_ret (i := .ctrlRewind) hq rfl rfl rfl

theorem coreStep_eOpen_ok (hq : s.seq = .eOpen) (hclosed : s.bsw.isOpen = false) :
    coreStep s = .next { s with bsw := { isOpen := true, acc := 0#8, n := 0#3 }, seq := .eStep } :=
  coreStep_of_ret (i := .bswOpen) hq rfl rfl (if_neg (Bool.eq_false_iff.mp hclosed))

theorem coreStep_eStep_ok {u : State} {r : Option Byte} (hq : s.seq = .eStep) (h : encStepByte s = .ret r u) :
    coreStep s = .next (afterEStep r u) := by
  simp only [coreStep, hq, h, afterSub]

/-- BSW.CLOSE sends what is buffered as the last byte, if anything is. -/
theorem ruleBswClose_packBits (hopen : s.bsw.isOpen = true) (hok : allDrawsOk s) :
    ∃ ds, ruleBswClose s = .ret none
      { s with bsw := Writer.closed, out := s.out ++ packBits (bufferedBits s.bsw), ioDraws := ds } := by
  by_cases hn : s.bsw.n = 0#3
  · have hnone : bufferedBits s.bsw = [] := by simp [bufferedBits_eq_lowBits, hn]
    refine ⟨s.ioDraws, ?_⟩
    rw [ruleBswClose, if_pos hopen, if_pos hn, hnone, packBits_nil, List.append_nil]
  · exact ⟨_, packBits_bufferedBits hn ▸ ruleBswClose_sent hopen hn (allDrawsOk_head hok)⟩

theorem coreStep_eClose_ok (hq : s.seq = .eClose) (hopen : s.bsw.isOpen = true) (hok : allDrawsOk s) :
    ∃ ds, coreStep s = .next
      (finishRun (BitVec.ofNat 64 (s.out ++ packBits (bufferedBits s.bsw)).length)
        { s with bsw := Writer.closed, out := s.out ++ packBits (bufferedBits s.bsw), ioDraws := ds }) := by
  obtain ⟨ds, hrule⟩ := ruleBswClose_packBits hopen hok
  exact ⟨ds, coreStep_of_ret (i := .bswClose) hq rfl rfl hrule⟩

end Steps

/-! ## The counts and the header -/

/-- The state before E_HEADER's successor is chosen: `f` counts the unread bytes, and its header is in OUT. -/
def State.headed (s : State) (f : Freq) : State :=
  { s with freq := f, treeValid := false, codesValid := false, inPos := BitVec.ofNat 64 s.input.length
           out := s.out ++ headerBytes f, ioDraws := (s.ioDraws.drop (s.unread.length + 1)).drop 1024, seq := .eHeader }

theorem run_headed {s : State} (hq : s.seq = .eCount) (hsilent : s.hostMoves = []) (hin : InputInv s)
    (hok : allDrawsOk s) (hlt : ∀ x, s.unread.count x < 2 ^ 32) :
    ∃ f, CountsOf f s.unread ∧ ∀ n,
      Host.Core.run Sys2Proof.core (n + 2) s = Host.Core.run Sys2Proof.core n (afterEHeader (s.headed f)) := by
  obtain ⟨f, hf, hcount⟩ := coreStep_eCount_ok hq hin hok hlt
  refine ⟨f, hf, fun n => ?_⟩
  refine Eq.trans (run_succ_of_coreStep hsilent hcount (n + 1)) ?_
  exact run_succ_of_coreStep (by exact hsilent)
    (coreStep_eHeader_ok rfl (allDrawsOk_of_suffix hok (List.drop_suffix _ _))) n

/-! ## The code table -/

/-- `p` is the state at the first E_STEP that E_BUILD to E_OPEN lead to from `s`: the tree and the codes of the counts
are valid, the writer is open with nothing buffered, and in_pos is at the start. -/
structure Prepared (s p : State) : Prop where
  seq : p.seq = .eStep
  hostMoves : p.hostMoves = s.hostMoves
  ioDraws : p.ioDraws = s.ioDraws
  input : p.input = s.input
  inPos : p.inPos = 0#64
  out : p.out = s.out
  bsw : p.bsw = { isOpen := true, acc := 0#8, n := 0#3 }
  freq : p.freq = s.freq
  tree : TreeInv p
  codes : CodesInv p
  codesValid : p.codesValid = true

theorem run_prepared {s : State} (hq : s.seq = .eBuild) (hsilent : s.hostMoves = []) (hbsw : s.bsw = Writer.closed)
    (htotal : total s.freq ≠ 0) :
    ∃ p, Prepared s p ∧ ∀ n, Host.Core.run Sys2Proof.core (n + 4) s = Host.Core.run Sys2Proof.core n p := by
  obtain ⟨b, hb⟩ := buildTree_of_total_ne_zero s.node htotal
  have htree : TreeInv { s with node := b.arena, nodeCount := b.count, root := b.root, treeValid := true } :=
    fun _ => ⟨s.node, hb⟩
  obtain ⟨t, ht⟩ : ∃ t, deriveCodes b.arena b.root = some t := deriveCodes_eq_some htree rfl
  have hclosed : s.bsw.isOpen = false := by rw [hbsw]; rfl
  refine ⟨{ s with node := b.arena, nodeCount := b.count, root := b.root, treeValid := true, codeLen := t.len
                   codeBits := t.bits, codesValid := true, inPos := 0#64
                   bsw := { isOpen := true, acc := 0#8, n := 0#3 }, seq := .eStep },
    ⟨rfl, rfl, rfl, rfl, rfl, rfl, rfl, rfl, htree, fun _ => ⟨rfl, ht⟩, rfl⟩, fun n => ?_⟩
  refine Eq.trans (run_succ_of_coreStep hsilent (coreStep_eBuild_ok hq hb) (n + 3)) ?_
  refine Eq.trans (run_succ_of_coreStep (by exact hsilent) (coreStep_eDerive_ok rfl rfl ht) (n + 2)) ?_
  refine Eq.trans (run_succ_of_coreStep (by exact hsilent) (coreStep_eRewind_ok rfl) (n + 1)) ?_
  exact run_succ_of_coreStep (by exact hsilent) (coreStep_eOpen_ok rfl (by exact hclosed)) n

end Sys2Proof.Machine

/-!
SUPPORT. The payload of ENC.RUN, and the statements about whole RUNs of the encoder and of both RUNs on nothing
(spec/44_huffman_encoder.md R222, R223; 45_huffman_decoder.md R255).
-/

namespace Sys2Proof.Machine

/-! ## The payload -/

/-- The end of ENC.RUN with OUT = `out`: everything is read and the writer is closed. -/
def State.encoded (s : State) (out : List Byte) (ds : List IoDraw) : State :=
  { s with inPos := BitVec.ofNat 64 s.input.length, bsw := Writer.closed, out := out, ioDraws := ds, seq := .idle
           result := BitVec.ofNat 64 out.length, done := true, code := .ok }

theorem inPos_of_unread_eq_nil {s : State} (hin : InputInv s) (h : s.unread = []) :
    s.inPos = BitVec.ofNat 64 s.input.length := by
  have hlen := List.drop_eq_nil_iff.mp h
  have hpos := hin.1
  rw [show s.input.length = s.inPos.toNat by omega, BitVec.ofNat_toNat, BitVec.setWidth_eq]

/-- E_STEP on an unread byte sends the whole bytes of what is buffered and the byte's code, and buffers the rest. -/
theorem coreStep_eStep_byte {s : State} {b : Byte} (hq : s.seq = .eStep) (hok : allDrawsOk s)
    (hcodes : s.codesValid = true) (hopen : s.bsw.isOpen = true) (hb : s.input[s.inPos.toNat]? = some b)
    (hlen : s.codeLenAt b ≠ 0#8) :
    ∃ w bytes ds, w.isOpen = true ∧ ds <:+ s.ioDraws ∧
      (∀ bits, packBits (bufferedBits s.bsw ++ (s.codeOf b ++ bits)) = bytes ++ packBits (bufferedBits w ++ bits)) ∧
      coreStep s = .next
        { s with inPos := s.inPos + 1#64, bsw := w, out := s.out ++ bytes, ioDraws := ds, seq := .eStep } := by
  obtain ⟨hcut, hfull, hrest⟩ := cut_bits (bufferedBits s.bsw ++ s.codeOf b) le_rfl
  obtain ⟨w, hw, hbuf, hread⟩ :=
    encStepByte_sent hcodes hopen hb hlen hcut hfull (by omega) (drawsOk_of_all hok _)
  refine ⟨w, _, _, hw, List.drop_suffix _ _, fun bits => ?_, coreStep_eStep_ok hq hread⟩
  rw [hbuf, ← packBits_append hfull, ← List.append_assoc, ← List.append_assoc, ← hcut]

/-- From E_STEP, one step for each unread byte, one for the end of IN and one for the final byte: OUT gets the packing
of the bits already buffered followed by the codes of the unread bytes. -/
theorem run_payload {s : State} (hq : s.seq = .eStep) (hsilent : s.hostMoves = []) (hin : InputInv s)
    (hok : allDrawsOk s) (hcodes : s.codesValid = true) (hopen : s.bsw.isOpen = true)
    (hcoded : ∀ b ∈ s.unread, s.codeLenAt b ≠ 0#8) :
    ∃ ds, Host.Core.run Sys2Proof.core (s.unread.length + 2) s =
      .next (s.encoded (s.out ++ packBits (bufferedBits s.bsw ++ s.unread.flatMap s.codeOf)) ds) := by
  generalize hunread : s.unread = unread at hcoded ⊢
  induction unread generalizing s with
  | nil =>
    have hb : s.input[s.inPos.toNat]? = none := List.getElem?_eq_none_iff.mpr (List.drop_eq_nil_iff.mp hunread)
    have hstep := coreStep_eStep_ok hq (encStepByte_eof hcodes hopen (allDrawsOk_head hok) hb)
    obtain ⟨ds, hclose⟩ := coreStep_eClose_ok (s := goTo .eClose { s with ioDraws := s.ioDraws.tail }) rfl hopen
      (allDrawsOk_of_suffix hok (List.tail_suffix _))
    refine ⟨ds, ?_⟩
    refine Eq.trans (run_succ_of_coreStep hsilent hstep 1) ?_
    refine Eq.trans (run_succ_of_coreStep (by exact hsilent) hclose 0) ?_
    rw [State.encoded, ← inPos_of_unread_eq_nil hin hunread, List.flatMap_nil, List.append_nil]
    rfl
  | cons b unread ih =>
    rw [List.forall_mem_cons] at hcoded
    have hb : s.input[s.inPos.toNat]? = some b := by
      rw [← Nat.add_zero s.inPos.toNat, ← List.getElem?_drop, ← State.unread, hunread]
      rfl
    obtain ⟨w, bytes, ds, hw, hds, hpack, hstep⟩ := coreStep_eStep_byte hq hok hcodes hopen hb hcoded.1
    obtain ⟨ds', hrun⟩ := ih
      (s := { s with inPos := s.inPos + 1#64, bsw := w, out := s.out ++ bytes, ioDraws := ds, seq := .eStep })
      rfl hsilent (coreStep_keeps_silent hsilent hin hstep).2 (allDrawsOk_of_suffix hok hds) hcodes hw
      (List.cons.inj ((unread_eq_cons hin hb ds).symm.trans hunread)).2 hcoded.2
    refine ⟨ds', ?_⟩
    rw [List.flatMap_cons, hpack, ← List.append_assoc]
    exact Eq.trans (run_succ_of_coreStep hsilent hstep _) hrun

/-- The payload after the code table is made: the codes of all of IN. -/
theorem run_of_prepared {s p : State} (hp : Prepared s p) (hsilent : s.hostMoves = []) (hok : allDrawsOk s)
    (hlen : s.input.length ≤ Config.inLenMax) (hcounts : CountsOf s.freq s.input) :
    ∃ ds, Host.Core.run Sys2Proof.core (s.input.length + 2) p =
      .next (p.encoded (s.out ++ packBits (s.input.flatMap p.codeOf)) ds) := by
  have hunread : p.unread = s.input := by rw [State.unread, hp.inPos, hp.input]; rfl
  have hbuf : bufferedBits p.bsw = [] := by rw [hp.bsw]; rfl
  have hin : InputInv p := ⟨by rw [hp.inPos]; exact Nat.zero_le _, by rw [hp.input]; exact hlen⟩
  have hopen : p.bsw.isOpen = true := by rw [hp.bsw]
  have hpaths := codesArePaths hp.tree hp.codes hp.codesValid
  have hpayload := run_payload hp.seq (hp.hostMoves.trans hsilent) hin
    (allDrawsOk_of_suffix hok (hp.ioDraws ▸ List.suffix_rfl)) hp.codesValid hopen
    fun b hb => codeLenAt_ne_zero_of_mem hpaths (hp.freq ▸ hcounts) (hunread ▸ hb)
  rwa [hunread, hbuf, hp.out, List.nil_append] at hpayload

/-! ## The encoder law (R223) -/

theorem encRun_accepted {s s1 : State} (hidle : s.seq = .idle) (h : exec .encRun s = .next s1) :
    s1 = acceptRun .eCount (startCommand s) :=
  (Host.Outcome.next.inj ((runCommand_idle .eCount hidle).symm.trans h)).symm

/-- After acceptance all of IN is unread, and its counts and their header come first. -/
theorem run_headed_accepted {s : State} (hsilent : s.hostMoves = []) (hok : allDrawsOk s)
    (hlen : s.input.length ≤ Config.inLenMax) (hlt : ∀ b, s.input.count b < 2 ^ 32) :
    ∃ f, CountsOf f s.input ∧ ∀ n,
      Host.Core.run Sys2Proof.core (n + 2) (acceptRun .eCount (startCommand s)) =
        Host.Core.run Sys2Proof.core n (afterEHeader ((acceptRun .eCount (startCommand s)).headed f)) :=
  run_headed (s := acceptRun .eCount (startCommand s)) rfl hsilent ⟨Nat.zero_le _, hlen⟩ hok hlt

/-- On an empty input the RUN ends after the header (R222). -/
theorem run_encRun_empty {s : State} (hsilent : s.hostMoves = []) (hok : allDrawsOk s) (hempty : s.input = []) :
    ∃ f, CountsOf f [] ∧
      Host.Core.run Sys2Proof.core 2 (acceptRun .eCount (startCommand s)) = .next
        (finishRun (BitVec.ofNat 64 (headerBytes f).length) ((acceptRun .eCount (startCommand s)).headed f)) := by
  obtain ⟨f, hf, hrun⟩ := run_headed_accepted hsilent hok (by rw [hempty]; exact Nat.zero_le _)
    (by rw [hempty]; exact fun _ => Nat.two_pow_pos 32)
  rw [hempty] at hf
  exact ⟨f, hf, (hrun 0).trans (congrArg Host.Outcome.next (if_pos hf.total_eq))⟩

/-- On a nonempty input the RUN ends with the packed codes after the header, the codes being those derived from the
tree of the counts. -/
theorem run_encRun_nonempty {s : State} (hsilent : s.hostMoves = []) (hok : allDrawsOk s)
    (hlen : s.input.length ≤ Config.inLenMax) (hlt : ∀ b, s.input.count b < 2 ^ 32) (hne : s.input ≠ []) :
    ∃ p ds, Host.Core.run Sys2Proof.core (s.input.length + 8) (acceptRun .eCount (startCommand s)) =
        .next (State.encoded p (headerBytes p.freq ++ packBits (s.input.flatMap p.codeOf)) ds) ∧
      p.input = s.input ∧ CountsOf p.freq s.input ∧ TreeInv p ∧ CodesInv p ∧ p.codesValid = true := by
  obtain ⟨f, hf, hheaded⟩ := run_headed_accepted hsilent hok hlen hlt
  have htotal : total f ≠ 0 := by rw [hf.total_eq]; exact (List.length_pos_iff.mpr hne).ne'
  have hnext : afterEHeader ((acceptRun .eCount (startCommand s)).headed f) =
      goTo .eBuild ((acceptRun .eCount (startCommand s)).headed f) := if_neg htotal
  obtain ⟨p, hp, hprepared⟩ := run_prepared
    (s := goTo .eBuild ((acceptRun .eCount (startCommand s)).headed f)) rfl hsilent rfl htotal
  have hdraws : allDrawsOk ((acceptRun .eCount (startCommand s)).headed f) :=
    allDrawsOk_of_suffix hok ((List.drop_suffix _ _).trans (List.drop_suffix _ _))
  obtain ⟨ds, hpayload⟩ := run_of_prepared hp hsilent hdraws hlen hf
  have hfreq : p.freq = f := hp.freq
  refine ⟨p, ds, ?_, hp.input, hfreq ▸ hf, hp.tree, hp.codes, hp.codesValid⟩
  rw [hfreq]
  exact (hheaded (s.input.length + 6)).trans (hnext ▸ (hprepared (s.input.length + 2)).trans hpayload)

/-- Settles O50: the two RUNs, on an empty and on a nonempty input. -/
theorem encoderLaw : Obligations.EncoderLaw := by
  intro s s1 hidle hsilent hok hlen hlt hexec
  rw [encRun_accepted hidle hexec]
  by_cases hempty : s.input = []
  · obtain ⟨f, hf, hrun⟩ := run_encRun_empty hsilent hok hempty
    rw [if_pos hempty]
    refine ⟨_, hrun, rfl, rfl, rfl, hempty ▸ hf, fun hne => absurd hempty hne, ?_, rfl, rfl⟩
    rw [hempty, List.flatMap_nil, packBits_nil, List.append_nil]
    rfl
  · obtain ⟨p, ds, hrun, hinput, hcounts, htree, hcodes, hvalid⟩ := run_encRun_nonempty hsilent hok hlen hlt hempty
    rw [if_neg hempty]
    exact ⟨_, hrun, rfl, rfl, rfl, hcounts, fun _ => ⟨hcodes, htree, hvalid⟩, rfl, rfl, hinput ▸ rfl⟩

/-! ## RUNs on nothing (R222, R255) -/

/-- The counts of nothing. -/
theorem CountsOf.eq_zero {f : Freq} (h : CountsOf f []) : f = Vector.replicate 256 0#32 := by
  ext1 i hi
  have hidx : (BitVec.ofNat 8 i).toNat = i := Nat.mod_eq_of_lt hi
  have hzero : freqAt f (BitVec.ofNat 8 i) = 0#32 := BitVec.eq_of_toNat_eq (h (BitVec.ofNat 8 i))
  simpa only [freqAt, hidx, Vector.getElem_replicate] using hzero

theorem headerBytes_zero : headerBytes (Vector.replicate 256 0#32) = List.replicate 1024 0#8 := by
  have hfield : fieldBytes 0#32 = List.replicate 4 0#8 := by decide
  rw [headerBytes, Vector.toList_replicate, List.flatMap_replicate, hfield, List.flatten_replicate_replicate]

theorem headerFreq_zero : headerFreq (List.replicate 1024 0#8) = Vector.replicate 256 0#32 :=
  headerBytes_zero ▸ headerRoundTrip (Vector.replicate 256 0#32)

theorem total_zero : total (Vector.replicate 256 0#32) = 0 := by
  rw [total, Vector.toList_replicate, List.map_replicate, List.sum_replicate]
  rfl

/-- DEC.RUN's first step on a header of total 0, whatever follows it. -/
theorem coreStep_dHeader_zero {s : State} {rest : List Byte} (hq : s.seq = .dHeader) (hin : InputInv s)
    (hok : allDrawsOk s) (hunread : s.unread = List.replicate 1024 0#8 ++ rest) :
    coreStep s = .next (finishRun 0#64
      { writeFreq (Vector.replicate 256 0#32) (s.afterReads 1024) with emitted := 0#40 }) := by
  have hlen : 1024 ≤ s.unread.length := by rw [hunread, List.length_append, List.length_replicate]; omega
  have htake : s.unread.take 1024 = List.replicate 1024 0#8 := by
    rw [hunread, List.take_left' List.length_replicate]
  have hread := readBytes_unread 1024 hin hlen (drawsOk_of_all hok 1024)
  have hrule : ruleDecHeader s = .ret (some (BitVec.ofNat 64 (total (Vector.replicate 256 0#32))))
      { writeFreq (Vector.replicate 256 0#32) (s.afterReads 1024) with emitted := 0#40 } := by
    rw [ruleDecHeader, hread, htake, Res.bind_ret, headerFreq_zero]
  rw [coreStep_of_ret (i := .decHeader) hq rfl rfl hrule, ← afterDHeader_eq]
  exact congrArg Host.Outcome.next (if_pos total_zero)

/-- Settles O48: the counts of nothing are 0, so each RUN ends at its header. -/
theorem runsOnEmptyInput : Obligations.RunsOnEmptyInput := by
  constructor
  · intro s s1 hidle hsilent hempty hok hexec
    obtain ⟨f, hf, hrun⟩ := run_encRun_empty hsilent hok hempty
    rw [encRun_accepted hidle hexec]
    rw [hf.eq_zero, headerBytes_zero, List.length_replicate] at hrun
    exact ⟨_, hrun, rfl, rfl, rfl, (List.nil_append _).trans headerBytes_zero, rfl, rfl, rfl⟩
  · intro s s1 rest hidle hsilent hinput hlen hok hexec
    obtain rfl := Host.Outcome.next.inj ((runCommand_idle .dHeader hidle).symm.trans hexec)
    have hstep := coreStep_dHeader_zero (s := acceptRun .dHeader (startCommand s)) rfl ⟨Nat.zero_le _, hlen⟩ hok
      hinput
    exact ⟨_, run_succ_of_coreStep (by exact hsilent) hstep 0, rfl, rfl, rfl, rfl, rfl, rfl⟩

end Sys2Proof.Machine

/-!
SUPPORT. The statement about DEC.HEADER (spec/45_huffman_decoder.md R251): its byte loop after some bytes read, and the
table those bytes hold.
-/

namespace Sys2Proof.Machine

/-! ## The bytes of a field (R65) -/

/-- Byte `j` of a field, read back from the bytes that make it. -/
theorem extractLsb'_headerField (h : List Byte) (i : Nat) {j : Nat} (hj : j < 4) :
    (headerField h i).extractLsb' (24 - 8 * j) 8 = h[4 * i + j]?.getD 0#8 := by
  have last {n : Nat} (x : BitVec n) (b : Byte) : (x ++ b).extractLsb' 0 8 = b :=
    (BitVec.extractLsb'_append_eq_of_add_le le_rfl).trans BitVec.extractLsb'_eq_self
  have before {n : Nat} (x : BitVec n) (b : Byte) (k : Nat) : (x ++ b).extractLsb' (k + 8) 8 = x.extractLsb' k 8 :=
    BitVec.extractLsb'_append_eq_of_le (Nat.le_add_left 8 k)
  interval_cases j
  · exact ((before _ _ 16).trans (before _ _ 8)).trans (BitVec.extractLsb'_append_eq_left)
  · exact ((before _ _ 8).trans (before _ _ 0)).trans (last _ _)
  · exact (before _ _ 0).trans (last _ _)
  · exact last _ _

/-- Byte `j` of the field of symbol `sym` in the table that a header's bytes hold. -/
theorem getElem?_headerFreq {h : List Byte} (hlen : h.length = 1024) (sym : Byte) {j : Nat} (hj : j < 4) :
    h[4 * sym.toNat + j]? = some ((freqAt (headerFreq h) sym).extractLsb' (24 - 8 * j) 8) := by
  have hsym : sym.toNat < 256 := sym.isLt
  have hfield : freqAt (headerFreq h) sym = headerField h sym.toNat := by simp [freqAt, headerFreq]
  rw [hfield, extractLsb'_headerField h sym.toNat hj, List.getElem?_eq_getElem (by omega), Option.getD_some]

/-! ## DEC.HEADER (R251) -/

section Reads

variable {s : State} (hin : InputInv s)
include hin

/-- The loop after its first `j` bytes. -/
theorem readBytes_add (j n : Nat) (hj : j ≤ s.unread.length) (hd : drawsOk j s) :
    readBytes (j + n) s = (readBytes n (s.afterReads j)).bind fun bs t => .ret (s.unread.take j ++ bs) t := by
  induction j generalizing s with
  | zero =>
    rw [Nat.zero_add, afterReads_zero, List.take_zero]
    cases readBytes n s <;> rfl
  | succ j ih =>
    obtain ⟨b, hcons, hread⟩ := inRead_unread hin (by omega) (drawsOk_head hd)
    have hlen := congrArg List.length hcons
    rw [List.length_cons] at hlen
    rw [Nat.add_right_comm, readBytes, hread]
    simp only []
    rw [ih (inputInv_afterReads hin (by omega)) (by omega) (drawsOk_tail hd _ (List.drop_one ..)),
      afterReads_afterReads, Nat.add_comm 1 j, hcons, List.take_succ_cons]
    cases readBytes n (s.afterReads (j + 1)) <;> rfl

/-- IN ends after `j` bytes. -/
theorem ruleDecHeader_short (hlen : s.unread.length < 1024) (hd : drawsOk (s.unread.length + 1) s) :
    ruleDecHeader s = .raise .formatError
      { s with inPos := BitVec.ofNat 64 s.input.length, ioDraws := s.ioDraws.drop (s.unread.length + 1) } := by
  have hend := inPos_of_unread_eq_nil (inputInv_afterReads hin le_rfl)
    ((unread_afterReads hin le_rfl).trans List.drop_length)
  have hbytes : Config.hdrBytes = s.unread.length + (1024 - s.unread.length - 1 + 1) := by
    show 1024 = _
    omega
  rw [ruleDecHeader, hbytes, readBytes_add hin _ _ le_rfl (drawsOk_mono hd (Nat.le_succ _)), readBytes,
    inRead_end hin hd]
  simp only [Res.bind_raise]
  rw [hend]
  rfl

/-- A read that fails after `j` bytes. -/
theorem ruleDecHeader_ioerr {j : Nat} (hlt : j < 1024) (hj : j ≤ s.unread.length) (hd : drawsFailAt j s) :
    ruleDecHeader s = .raise .ioError
      { s with inPos := s.inPos + BitVec.ofNat 64 j, ioDraws := s.ioDraws.drop (j + 1) } := by
  have herr : (s.afterReads j).ioDraws.head? = some .ioerr := (List.head?_drop ..).trans hd.2
  have hbytes : Config.hdrBytes = j + (1024 - j - 1 + 1) := by
    show 1024 = _
    omega
  rw [ruleDecHeader, hbytes, readBytes_add hin _ _ hj hd.1, readBytes, inRead_ioerr herr]
  simp only [Res.bind_raise, State.afterReads, List.tail_drop]

/-- The next 1024 bytes are read, and hold the table `f`. -/
theorem ruleDecHeader_ret {f : Freq} (hlen : 1024 ≤ s.unread.length) (hd : drawsOk 1024 s)
    (hf : headerFreq (s.unread.take 1024) = f) :
    ruleDecHeader s = .ret (some (BitVec.ofNat 64 (total f)))
      { s with freq := f, treeValid := false, codesValid := false, emitted := 0#40, inPos := s.inPos + 1024#64
               ioDraws := s.ioDraws.drop 1024 } := by
  rw [ruleDecHeader, readBytes_unread 1024 hin hlen hd, Res.bind_ret, hf]
  simp only [writeFreq, State.afterReads]

end Reads

/-- Settles O43: the loop reads the 1024 bytes whose fields are the counts, or raises after those it could read. -/
theorem decHeaderReadsTheCounts : Obligations.DecHeaderReadsTheCounts := by
  refine ⟨rfl, fun s hidle hin => ⟨fun hlen hd => ?_, fun hlen hd => ?_, fun j hlt hj hd => ?_⟩⟩
  · have hbytes (sym : Byte) (j : Nat) (hj : j < 4) :=
      getElem?_headerFreq (List.length_take_of_le hlen) sym hj
    generalize hf : headerFreq (s.unread.take 1024) = f at hbytes
    refine ⟨f, unitCommand_ret hidle (ruleDecHeader_ret (s := startCommand s) hin hlen hd hf), fun sym j hj => ?_⟩
    have hsym : sym.toNat < 256 := sym.isLt
    rw [← hbytes sym j hj, List.getElem?_take_of_lt (by omega)]
  · exact unitCommand_raise_of_idle hidle (ruleDecHeader_short (s := startCommand s) hin hlen hd) hidle
  · exact unitCommand_raise_of_idle hidle (ruleDecHeader_ioerr (s := startCommand s) hin hlt hj hd) hidle

end Sys2Proof.Machine

/-!
SUPPORT. DecodeSymbol's walk along the reader's next bits, and the statement about DEC.SYMBOL
(spec/42_bit_stream_reader.md R160; 45_huffman_decoder.md R252, R253).
-/

namespace Sys2Proof.Machine

/-! ## The reader's next bits -/

/-- What NextBit can change (R160): the reader, in_pos and the draws. -/
def BitsRead (s t : State) : Prop := ∃ p ip ds, t = { s with bsr := p, inPos := ip, ioDraws := ds }

theorem BitsRead.refl (s : State) : BitsRead s s := ⟨s.bsr, s.inPos, s.ioDraws, rfl⟩

theorem BitsRead.trans {s t u : State} (h : BitsRead s t) (k : BitsRead t u) : BitsRead s u := by
  obtain ⟨_, _, _, rfl⟩ := h
  obtain ⟨p, ip, ds, rfl⟩ := k
  exact ⟨p, ip, ds, rfl⟩

theorem BitsRead.node {s t : State} (h : BitsRead s t) : t.node = s.node := by
  obtain ⟨_, _, _, rfl⟩ := h
  rfl

theorem nextBit_bitsRead {s t : State} {r : Option Bool} (h : nextBit s = .ret r t) : BitsRead s t := by
  rcases nextBit_frame s with ⟨_, p, ip, ds, heq⟩ | heq
  · cases heq.symm.trans h
    exact ⟨p, ip, ds, rfl⟩
  · cases heq.symm.trans h

theorem nextBit_raise {s t : State} {e : StatusCode} (h : nextBit s = .raise e t) :
    e = .ioError ∧ BitsRead s t := by
  rcases nextBit_frame s with ⟨_, _, _, _, heq⟩ | heq
  · cases heq.symm.trans h
  · cases heq.symm.trans h
    exact ⟨rfl, s.bsr, s.inPos, s.ioDraws.tail, rfl⟩

/-- The decoder's bound on the bits left counts the bits ahead. -/
theorem bitsLeft_eq (s : State) : s.bitsLeft = s.bitsAhead.length := by
  rw [State.bitsLeft, State.bitsAhead, List.length_append, lowBits_length, bitsOfBytes_length, State.remaining,
    State.unread, List.length_drop]

/-- NextBit takes the first of the bits ahead, or none of them at END. -/
theorem nextBit_bitsAhead {s t : State} {r : Option Bool} (hin : InputInv s) (h : nextBit s = .ret r t) :
    s.bitsAhead = r.toList ++ t.bitsAhead := by
  by_cases hended : s.bsr.ended = true
  · cases (nextBit_ended hended).symm.trans h
    rfl
  rw [Bool.not_eq_true] at hended
  by_cases hmore : s.bsr.unlimited = true ∨ s.bsr.count ≠ s.bsr.target
  · by_cases hpos : s.bsr.pos = 8
    · by_cases hd : s.ioDraws.head? = some .ioerr
      · cases (nextBit_ioerr hended hmore hpos hd).symm.trans h
      · cases hb : s.input[s.inPos.toNat]? with
        | none =>
          cases (nextBit_eof hended hmore hpos hd hb).symm.trans h
          rfl
        | some b =>
          cases (nextBit_byte hended hmore hpos hd hb).symm.trans h
          exact bitsAhead_byte hin hpos hb _ _
    · cases (nextBit_buffered hended hmore hpos).symm.trans h
      exact bitsAhead_buffered hpos _
  · obtain ⟨hunl, htarget⟩ := not_or.mp hmore
    cases (nextBit_target hended (Bool.eq_false_iff.mpr hunl) (not_not.mp htarget)).symm.trans h
    rfl

/-! ## Runs of NextBit -/

/-- Everything a run of at least one NextBit can do when it ends normally. -/
theorem readBits_succ_cases {n : Nat} {s t : State} {bits : List Bool} (h : readBits (n + 1) s = .ret bits t) :
    (bits = [] ∧ nextBit s = .ret none t) ∨
      ∃ b rest u, bits = b :: rest ∧ nextBit s = .ret (some b) u ∧ readBits n u = .ret rest t := by
  obtain ⟨r, u, hbit, hrest⟩ := Res.bind_eq_ret h
  cases r with
  | none =>
    cases hrest
    exact .inl ⟨rfl, hbit⟩
  | some b =>
    obtain ⟨rest, v, hread, hret⟩ := Res.bind_eq_ret hrest
    cases hret
    exact .inr ⟨b, rest, u, rfl, hbit, hread⟩

theorem readBits_cons {n : Nat} {s t u : State} {b : Bool} {bits : List Bool} (hbit : nextBit s = .ret (some b) u)
    (hread : readBits n u = .ret bits t) : readBits (n + 1) s = .ret (b :: bits) t := by
  rw [readBits, hbit, Res.bind_ret]
  simp only []
  rw [hread, Res.bind_ret]

/-- A run of NextBit, cut where some of its bits are read. -/
theorem readBits_append {n : Nat} {s t : State} {path rest : List Bool} (h : readBits n s = .ret (path ++ rest) t) :
    ∃ u, readBits path.length s = .ret path u ∧ readBits (n - path.length) u = .ret rest t := by
  induction path generalizing n s with
  | nil => exact ⟨s, rfl, h⟩
  | cons b path ih =>
    cases n with
    | zero => cases h
    | succ n =>
      obtain ⟨hnil, -⟩ | ⟨_, _, u, hcons, hbit, hread⟩ := readBits_succ_cases h
      · cases hnil
      · cases hcons
        obtain ⟨v, hpath, hrest⟩ := ih hread
        refine ⟨v, readBits_cons hbit hpath, ?_⟩
        rwa [List.length_cons, Nat.add_sub_add_right]

/-- The last bit of a run. -/
theorem readBits_append_singleton {s t : State} {path : List Bool} {b : Bool}
    (h : readBits (path ++ [b]).length s = .ret (path ++ [b]) t) :
    ∃ u, readBits path.length s = .ret path u ∧ nextBit u = .ret (some b) t := by
  obtain ⟨u, hpath, hlast⟩ := readBits_append h
  rw [List.length_append, List.length_singleton, Nat.add_sub_cancel_left] at hlast
  obtain ⟨hnil, -⟩ | ⟨_, _, v, hcons, hbit, hread⟩ := readBits_succ_cases hlast
  · cases hnil
  · cases hcons
    cases hread
    exact ⟨u, hpath, hbit⟩

/-- A run that is short of its bits ended at END. -/
theorem readBits_end {n : Nat} {s t : State} {bits : List Bool} (h : readBits n s = .ret bits t)
    (hlt : bits.length < n) : ∃ u, readBits bits.length s = .ret bits u ∧ nextBit u = .ret none t := by
  rw [← List.append_nil bits] at h
  obtain ⟨u, hbits, hend⟩ := readBits_append h
  rw [show n - bits.length = n - bits.length - 1 + 1 by omega] at hend
  obtain ⟨-, hbit⟩ | ⟨_, _, _, hcons, -⟩ := readBits_succ_cases hend
  · exact ⟨u, hbits, hbit⟩
  · cases hcons

theorem readBits_bitsRead {n : Nat} {s t : State} {bits : List Bool} (h : readBits n s = .ret bits t) :
    BitsRead s t := by
  induction n generalizing s bits with
  | zero =>
    cases h
    exact BitsRead.refl _
  | succ n ih =>
    obtain ⟨-, hbit⟩ | ⟨_, _, u, -, hbit, hread⟩ := readBits_succ_cases h
    · exact nextBit_bitsRead hbit
    · exact (nextBit_bitsRead hbit).trans (ih hread)

/-- The bits read are the first of those ahead. -/
theorem readBits_bitsAhead {n : Nat} {s t : State} {bits : List Bool} (hopen : s.bsr.isOpen = true) (hin : InputInv s)
    (h : readBits n s = .ret bits t) : s.bitsAhead = bits ++ t.bitsAhead := by
  induction n generalizing s bits with
  | zero =>
    cases h
    rfl
  | succ n ih =>
    obtain ⟨rfl, hbit⟩ | ⟨b, rest, u, rfl, hbit, hread⟩ := readBits_succ_cases h
    · exact nextBit_bitsAhead hin hbit
    · obtain ⟨hframe, -⟩ := (nextBit_readFrame hopen).of_ret hbit
      rw [nextBit_bitsAhead hin hbit, ih (hframe.isOpen.trans hopen) (hframe.input hin) hread]
      rfl

/-! ## One pass of the walk (R252) -/

/-- The child an edge leads to: 0 to the left, 1 to the right (R11). -/
def Node.child (e : Node) (b : Bool) : NodeIdx := if b then e.right else e.left

/-- A path's first edge leaves an internal node for a child that is there. -/
theorem descend_cons {a : Arena} {i j : NodeIdx} {b : Bool} {path : List Bool}
    (h : descend a i (b :: path) = some j) :
    (nodeAt a i).kind = .internal ∧ (nodeAt a i).child b ≠ Config.noneIdx ∧
      descend a ((nodeAt a i).child b) path = some j := by
  rw [descend] at h
  split at h
  next => cases h
  next hkind =>
    change (if (nodeAt a i).child b = Config.noneIdx then none else descend a ((nodeAt a i).child b) path) = some j at h
    split_ifs at h with hchild
    exact ⟨hkind, hchild, h⟩

/-- A path that ends at an internal node has met no leaf. -/
theorem descend_kind {a : Arena} {i j : NodeIdx} {path : List Bool} (h : descend a i path = some j)
    (hkind : (nodeAt a j).kind = .internal) : (nodeAt a i).kind = .internal := by
  cases path with
  | nil =>
    cases h
    exact hkind
  | cons b path => exact (descend_cons h).1

/-- The last edge of a path. -/
theorem descend_append_singleton {a : Arena} {root j : NodeIdx} {path : List Bool} {b : Bool}
    (h : descend a root (path ++ [b]) = some j) :
    ∃ i, descend a root path = some i ∧ (nodeAt a i).kind = .internal ∧ (nodeAt a i).child b ≠ Config.noneIdx ∧
      (nodeAt a i).child b = j := by
  rw [descend_append] at h
  obtain ⟨i, hpath, hlast⟩ := Option.bind_eq_some_iff.mp h
  obtain ⟨hkind, hchild, hend⟩ := descend_cons hlast
  exact ⟨i, hpath, hkind, hchild, Option.some.inj hend⟩

/-- What the walk does at a leaf: OutWrite of its symbol, and one more symbol emitted (R252). -/
def emitSymbol (sym : Byte) (t : State) : Res Byte :=
  match outWrite sym t with
  | (.ioerr, u) => .raise .ioError u
  | (.ok, u) => .ret sym { u with emitted := u.emitted + 1#40 }

theorem emitSymbol_sent (sym : Byte) {t : State} (hd : t.ioDraws.head? ≠ some .ioerr) :
    emitSymbol sym t = .ret sym
      { t with out := t.out ++ [sym], emitted := t.emitted + 1#40, ioDraws := t.ioDraws.tail } := by
  rw [emitSymbol, outWrite_ok sym hd]

theorem emitSymbol_lost (sym : Byte) {t : State} (hd : t.ioDraws.head? = some .ioerr) :
    emitSymbol sym t = .raise .ioError { t with ioDraws := t.ioDraws.tail } := by
  rw [emitSymbol, outWrite_ioerr sym hd]

section Pass

variable {u t : State} {i : NodeIdx} (fuel : Nat)

theorem decodeWalk_raise {e : StatusCode} (hbit : nextBit u = .raise e t) :
    decodeWalk (fuel + 1) i u = .raise e t := by
  rw [decodeWalk, hbit, Res.bind_raise]

theorem decodeWalk_end (hbit : nextBit u = .ret none t) : decodeWalk (fuel + 1) i u = .raise .formatError t := by
  rw [decodeWalk, hbit, Res.bind_ret]

variable {b : Bool} (hbit : nextBit u = .ret (some b) t)
include hbit

theorem decodeWalk_absent (hchild : (nodeAt t.node i).child b = Config.noneIdx) :
    decodeWalk (fuel + 1) i u = .raise .corruptStream t := by
  rw [decodeWalk, hbit, Res.bind_ret]
  exact if_pos hchild

variable (hchild : (nodeAt t.node i).child b ≠ Config.noneIdx)
include hchild

theorem decodeWalk_internal (hkind : (nodeAt t.node ((nodeAt t.node i).child b)).kind = .internal) :
    decodeWalk (fuel + 1) i u = decodeWalk fuel ((nodeAt t.node i).child b) t := by
  have hleaf : ¬ (nodeAt t.node ((nodeAt t.node i).child b)).kind = .leaf := by simp [hkind]
  rw [decodeWalk, hbit, Res.bind_ret]
  exact (if_neg hchild).trans (if_neg hleaf)

variable (hkind : (nodeAt t.node ((nodeAt t.node i).child b)).kind = .leaf)
include hkind

theorem decodeWalk_leaf :
    decodeWalk (fuel + 1) i u = emitSymbol (nodeAt t.node ((nodeAt t.node i).child b)).sym t := by
  rw [decodeWalk, hbit, Res.bind_ret]
  exact (if_neg hchild).trans (if_pos hkind)

end Pass

/-! ## The walk along a path (R252) -/

/-- The bits of a path to an internal node take the walk there. -/
theorem decodeWalk_path {path : List Bool} {s u : State} {cur i : NodeIdx} (fuel : Nat)
    (hread : readBits path.length s = .ret path u) (hpath : descend s.node cur path = some i)
    (hkind : (nodeAt s.node i).kind = .internal) :
    decodeWalk (path.length + fuel) cur s = decodeWalk fuel i u := by
  induction path generalizing s cur with
  | nil =>
    cases hread
    cases hpath
    rw [List.length_nil, Nat.zero_add]
  | cons b path ih =>
    obtain ⟨hnil, -⟩ | ⟨_, _, t, hcons, hbit, hrest⟩ := readBits_succ_cases hread
    · cases hnil
    · cases hcons
      obtain ⟨-, hchild, hbelow⟩ := descend_cons hpath
      rw [← (nextBit_bitsRead hbit).node] at hchild hbelow hkind
      rw [List.length_cons, Nat.add_right_comm, decodeWalk_internal _ hbit hchild (descend_kind hbelow hkind)]
      exact ih hrest hbelow hkind

section Walk

variable {path : List Bool} {s u : State} {i : NodeIdx} (hopen : s.bsr.isOpen = true) (hin : InputInv s)
include hopen hin

/-- The bits the reader has left are enough for the walk to take a pass after a path it has read. -/
theorem decodeOne_path (hread : readBits path.length s = .ret path u) (hpath : descend s.node s.root path = some i)
    (hkind : (nodeAt s.node i).kind = .internal) : ∃ fuel, decodeOne s = decodeWalk (fuel + 1) i u := by
  have hlen := congrArg List.length (readBits_bitsAhead hopen hin hread)
  rw [← bitsLeft_eq, List.length_append] at hlen
  refine ⟨s.bitsLeft - path.length, ?_⟩
  rw [← decodeWalk_path _ hread hpath hkind, decodeOne]
  congr 1
  omega

/-- The payload ends at an internal node. -/
theorem decodeOne_end {n : Nat} (hread : readBits n s = .ret path u) (hlt : path.length < n)
    (hpath : descend s.node s.root path = some i) (hkind : (nodeAt s.node i).kind = .internal) :
    decodeOne s = .raise .formatError u := by
  obtain ⟨t, hbits, hend⟩ := readBits_end hread hlt
  obtain ⟨fuel, hwalk⟩ := decodeOne_path hopen hin hbits hpath hkind
  rw [hwalk, decodeWalk_end fuel hend]

/-- A read fails at an internal node. -/
theorem decodeOne_raise {e : StatusCode} {t : State} (hread : readBits path.length s = .ret path u)
    (hpath : descend s.node s.root path = some i) (hkind : (nodeAt s.node i).kind = .internal)
    (hbit : nextBit u = .raise e t) : decodeOne s = .raise e t := by
  obtain ⟨fuel, hwalk⟩ := decodeOne_path hopen hin hread hpath hkind
  rw [hwalk, decodeWalk_raise fuel hbit]

/-- The last bit leads to an absent child. -/
theorem decodeOne_absent {b : Bool} (hread : readBits (path ++ [b]).length s = .ret (path ++ [b]) u)
    (hpath : descend s.node s.root path = some i) (hkind : (nodeAt s.node i).kind = .internal)
    (hchild : (nodeAt s.node i).child b = Config.noneIdx) : decodeOne s = .raise .corruptStream u := by
  obtain ⟨t, hbits, hbit⟩ := readBits_append_singleton hread
  obtain ⟨fuel, hwalk⟩ := decodeOne_path hopen hin hbits hpath hkind
  rw [← (readBits_bitsRead hread).node] at hchild
  rw [hwalk, decodeWalk_absent fuel hbit hchild]

variable {sym : Byte} (hne : path ≠ []) (hread : readBits path.length s = .ret path u)
  (hleaf : LeafPath s.node s.root path sym)
include hne hread hleaf

/-- The bits of a path to a leaf take the walk to the write of its symbol. -/
theorem decodeOne_leaf : decodeOne s = emitSymbol sym u := by
  obtain ⟨init, b, rfl⟩ : ∃ init b, path = init ++ [b] := ⟨_, _, (List.dropLast_concat_getLast hne).symm⟩
  obtain ⟨j, hdescend, hkind, rfl⟩ := hleaf
  obtain ⟨i, hinit, hinternal, hchild, rfl⟩ := descend_append_singleton hdescend
  obtain ⟨t, hbits, hbit⟩ := readBits_append_singleton hread
  obtain ⟨fuel, hwalk⟩ := decodeOne_path hopen hin hbits hinit hinternal
  rw [← (readBits_bitsRead hread).node] at hchild hkind ⊢
  rw [hwalk]
  exact decodeWalk_leaf fuel hbit hchild hkind

theorem decodeOne_sent (hd : u.ioDraws.head? ≠ some .ioerr) :
    decodeOne s = .ret sym
      { u with out := s.out ++ [sym], emitted := s.emitted + 1#40, ioDraws := u.ioDraws.tail } := by
  rw [decodeOne_leaf hopen hin hne hread hleaf, emitSymbol_sent sym hd]
  obtain ⟨_, _, _, rfl⟩ := readBits_bitsRead hread
  rfl

theorem decodeOne_lost (hd : u.ioDraws.head? = some .ioerr) :
    decodeOne s = .raise .ioError { u with ioDraws := u.ioDraws.tail } := by
  rw [decodeOne_leaf hopen hin hne hread hleaf, emitSymbol_lost sym hd]

end Walk

/-! ## DEC.SYMBOL (R253) -/

theorem ruleDecSymbol_require {s : State} (h : s.treeValid = false ∨ s.bsr.isOpen = false) :
    ruleDecSymbol s = .raise .protocolError s := by
  unfold ruleDecSymbol
  split_ifs with htree hopen
  · rfl
  · rfl
  · exact absurd h (by simp [htree, hopen])

section Symbol

variable {s : State} (htree : s.treeValid = true) (hopen : s.bsr.isOpen = true)
include htree hopen

theorem ruleDecSymbol_valid : ruleDecSymbol s = (decodeOne s).bind fun sym t => .ret (some (zext64 sym)) t := by
  rw [ruleDecSymbol, if_neg (by simp [htree]), if_neg (by simp [hopen])]

theorem exec_decSymbol_ret {sym : Byte} {t : State} (hidle : s.seq = .idle)
    (h : decodeOne (startCommand s) = .ret sym t) :
    exec .decSymbol s = .next { t with result := sym.setWidth 64, done := true, code := .ok } := by
  have hrule : ruleDecSymbol (startCommand s) = .ret (some (zext64 sym)) t := by
    rw [ruleDecSymbol_valid (s := startCommand s) htree hopen, h, Res.bind_ret]
  exact unitCommand_ret hidle hrule

theorem exec_decSymbol_raise {e : StatusCode} {t : State} (hidle : s.seq = .idle)
    (h : decodeOne (startCommand s) = .raise e t) (ht : BitsRead (startCommand s) t) :
    exec .decSymbol s = .next { t with done := true, code := e } := by
  refine unitCommand_raise_of_idle (rule := ruleDecSymbol) hidle ?_ ?_
  · rw [ruleDecSymbol_valid (s := startCommand s) htree hopen, h, Res.bind_raise]
  · obtain ⟨_, _, _, rfl⟩ := ht
    exact hidle

end Symbol

/-- Settles O44: the walk takes the bits read, then its last pass does what the next bit or the last bit's child
says. -/
theorem decSymbolWalksToALeaf : Obligations.DecSymbolWalksToALeaf := by
  refine ⟨rfl, fun s hidle => ⟨fun h => ?_, fun htree hopen hin n bits s1 hread => ?_⟩⟩
  · exact unitCommand_require (rule := ruleDecSymbol) hidle (ruleDecSymbol_require (s := startCommand s) h)
  have hs1 := readBits_bitsRead hread
  refine ⟨fun sym hn hpos hleaf hd => ?_, fun sym hn hpos hleaf hd => ?_, fun i hlt hpath hkind => ?_,
    fun i path b hbits hn hpath hkind hchild => ?_, fun i s2 hn hpath hkind hbit => ?_⟩
  · subst hn
    have hne := List.ne_nil_of_length_pos (Nat.pos_of_ne_zero hpos)
    exact exec_decSymbol_ret htree hopen hidle
      (decodeOne_sent (s := startCommand s) hopen hin hne hread hleaf hd)
  · subst hn
    have hne := List.ne_nil_of_length_pos (Nat.pos_of_ne_zero hpos)
    refine exec_decSymbol_raise htree hopen hidle
      (decodeOne_lost (s := startCommand s) hopen hin hne hread hleaf hd) ?_
    exact hs1.trans ⟨s1.bsr, s1.inPos, s1.ioDraws.tail, rfl⟩
  · exact exec_decSymbol_raise htree hopen hidle
      (decodeOne_end (s := startCommand s) hopen hin hread hlt hpath hkind) hs1
  · subst hn hbits
    exact exec_decSymbol_raise htree hopen hidle
      (decodeOne_absent (s := startCommand s) hopen hin hread hpath hkind hchild) hs1
  · subst hn
    exact exec_decSymbol_raise htree hopen hidle
      (decodeOne_raise (s := startCommand s) hopen hin hread hpath hkind hbit) (hs1.trans (nextBit_raise hbit).2)

end Sys2Proof.Machine

/-!
SUPPORT. A RUN's core step that ends OK ends the same when the host draws OK at every access (spec/40_control.md R124,
R129): a failed access would have ended it.
-/

namespace Sys2Proof.Machine

/-! ## Rules that end normally do not tell the draws apart -/

/-- The same state with the host drawing OK at every access (assumption 2). -/
def State.okDraws (s : State) : State := { s with ioDraws := [] }

/-- If the first rule ends normally, so does the second, with the same value and, but for the draws, the same state. -/
def Res.EndsAs {α : Type} : Res α → Res α → Prop
  | .ret a t, r => r = .ret a t.okDraws
  | .raise .., _ | .stuck .., _ => True

theorem Res.EndsAs.of_ret {α : Type} {r r' : Res α} {a : α} {t : State} (h : r.EndsAs r') (hr : r = .ret a t) :
    r' = .ret a t.okDraws := by
  subst hr
  exact h

/-- Where the rule ends normally, it does the same with every draw OK. -/
def OkBlind {α : Type} (g : State → Res α) : Prop := ∀ s, (g s).EndsAs (g s.okDraws)

theorem OkBlind.bind {α β : Type} {g : State → Res α} {k : α → State → Res β} (hg : OkBlind g)
    (hk : ∀ a, OkBlind (k a)) : OkBlind fun s => (g s).bind k := by
  intro s
  have hs := hg s
  cases hr : g s with
  | ret a t =>
    simp only [hr, hs.of_ret hr]
    exact hk a t
  | raise e t =>
    simp only [hr]
    trivial
  | stuck f =>
    simp only [hr]
    trivial

theorem okBlind_ret {α : Type} (a : α) : OkBlind (.ret a) := fun _ => rfl

/-- A test of what the draws are no part of. -/
theorem OkBlind.ite {α : Type} {c : State → Prop} [DecidablePred c] {g g' : State → Res α} (hg : OkBlind g)
    (hg' : OkBlind g') (hc : ∀ s, c s.okDraws ↔ c s := by exact fun _ => Iff.rfl) :
    OkBlind fun s => if c s then g s else g' s := by
  intro s
  simp only [hc s]
  split
  · exact hg s
  · exact hg' s

/-- A read that does not fail. -/
theorem inRead_okDraws {s t : State} {o : ReadOutcome} (h : inRead s = (o, t)) (ho : o ≠ .ioerr := by nofun) :
    inRead s.okDraws = (o, t.okDraws) := by
  have hok : s.okDraws.ioDraws.head? ≠ some .ioerr := nofun
  rcases inRead_cases s with ⟨_, hr⟩ | ⟨_, hb, hr⟩ | ⟨_, b, hb, hr⟩ <;> cases hr.symm.trans h
  · exact absurd rfl ho
  · exact inRead_eof hok hb
  · exact inRead_byte hok hb

/-- A write that does not fail. -/
theorem outWrite_okDraws {b : Byte} {s t : State} (h : outWrite b s = (.ok, t)) :
    outWrite b s.okDraws = (.ok, t.okDraws) := by
  have hok : s.okDraws.ioDraws.head? ≠ some .ioerr := nofun
  rcases outWrite_cases b s with ⟨_, hw⟩ | ⟨_, hw⟩ <;> cases hw.symm.trans h
  exact outWrite_ok b hok

theorem writeBytes_okBlind (bs : List Byte) : OkBlind (writeBytes bs) := by
  induction bs with
  | nil => exact fun _ => rfl
  | cons b bs ih =>
    intro s
    rw [writeBytes, writeBytes]
    rcases hw : outWrite b s with ⟨_ | _, t⟩
    · rw [outWrite_okDraws hw]
      exact ih t
    · trivial

theorem putBit_okBlind (b : Bool) : OkBlind (putBit b) := by
  refine .ite (fun s => ?_) fun _ => rfl
  rcases hw : outWrite (shiftIn s.bsw.acc b) { s with bsw := { s.bsw with acc := 0#8, n := 0#3 } } with ⟨_ | _, t⟩
  · have hok := outWrite_okDraws hw
    simp only [State.okDraws] at hok ⊢
    rw [hok]
    rfl
  · trivial

theorem putBits_okBlind (bs : List Bool) : OkBlind (putBits bs) := by
  induction bs with
  | nil => exact fun _ => rfl
  | cons b bs ih => exact (putBit_okBlind b).bind fun _ => ih

theorem nextBit_okBlind : OkBlind nextBit := by
  refine .ite (fun _ => rfl) <| .ite (fun _ => rfl) <| .ite (fun s => ?_) fun _ => rfl
  rcases hr : inRead s with ⟨b | _ | _, t⟩
  · rw [inRead_okDraws hr]
    rfl
  · rw [inRead_okDraws hr]
    rfl
  · trivial

theorem countLoop_okBlind (n : Nat) (f : Freq) : OkBlind (countLoop n f) := by
  induction n generalizing f with
  | zero => exact fun _ => rfl
  | succ n ih =>
    intro s
    rw [countLoop, countLoop]
    rcases hr : inRead s with ⟨b | _ | _, t⟩
    · rw [inRead_okDraws hr]
      simp only []
      split
      · trivial
      · exact ih _ t
    · rw [inRead_okDraws hr]
      rfl
    · trivial

theorem readBytes_okBlind (n : Nat) : OkBlind (readBytes n) := by
  induction n with
  | zero => exact fun _ => rfl
  | succ n ih =>
    intro s
    rw [readBytes, readBytes]
    rcases hr : inRead s with ⟨b | _ | _, t⟩
    · rw [inRead_okDraws hr]
      exact ih.bind (fun bs => okBlind_ret (b :: bs)) t
    · trivial
    · trivial

theorem emitSymbol_okBlind (sym : Byte) : OkBlind (emitSymbol sym) := by
  intro s
  rw [emitSymbol, emitSymbol]
  rcases hw : outWrite sym s with ⟨_ | _, t⟩
  · rw [outWrite_okDraws hw]
    rfl
  · trivial

theorem decodeWalk_okBlind (n : Nat) (cur : NodeIdx) : OkBlind (decodeWalk n cur) := by
  induction n generalizing cur with
  | zero => exact fun _ => trivial
  | succ n ih =>
    refine nextBit_okBlind.bind fun r => ?_
    cases r with
    | none => exact fun _ => trivial
    | some bit =>
      have hleaf : OkBlind fun s => emitSymbol (nodeAt s.node ((nodeAt s.node cur).child bit)).sym s :=
        fun s => emitSymbol_okBlind _ s
      exact .ite (fun _ => trivial) <| .ite hleaf fun s => ih ((nodeAt s.node cur).child bit) s

theorem encStepByte_okBlind : OkBlind encStepByte := by
  refine .ite (fun _ => trivial) <| .ite (fun _ => trivial) fun s => ?_
  rcases hr : inRead s with ⟨b | _ | _, t⟩
  · have hbyte : OkBlind fun t : State =>
        if t.codeLenAt b = 0#8 then .raise .protocolError t else (emitCode b t).bind fun _ u => .ret (some b) u :=
      .ite (fun _ => trivial) fun t => (putBits_okBlind (t.codeOf b)).bind (fun _ => okBlind_ret _) t
    rw [inRead_okDraws hr]
    exact hbyte t
  · rw [inRead_okDraws hr]
    rfl
  · trivial

theorem ruleTbBuild_okBlind : OkBlind ruleTbBuild := by
  intro s
  cases hb : buildTree s.freq s.node with
  | none =>
    rw [ruleTbBuild_none hb]
    trivial
  | some b =>
    rw [ruleTbBuild_some hb]
    exact ruleTbBuild_some (s := s.okDraws) hb

theorem ruleEncDerive_okBlind : OkBlind ruleEncDerive := by
  refine .ite (fun s => ?_) fun _ => trivial
  simp only [State.okDraws]
  cases deriveCodes s.node s.root with
  | none => trivial
  | some t => rfl

theorem ruleBswClose_okBlind : OkBlind ruleBswClose := by
  refine .ite (.ite (fun _ => rfl) fun s => ?_) fun _ => trivial
  rcases hw : outWrite (paddedByte s.bsw.acc s.bsw.n) { s with bsw := Writer.closed } with ⟨_ | _, t⟩
  · have hok := outWrite_okDraws hw
    simp only [State.okDraws] at hok ⊢
    rw [hok]
    rfl
  · trivial

/-- Where a RUN's sub-command ends normally, it does the same with every draw OK (R221, R254). -/
theorem subCommand_okBlind {q : Seq} {i : Instr} {rule : State → UnitRes} (hi : subCommand q = some i)
    (hrule : unitRule i = some rule) : OkBlind rule := by
  cases q <;> cases hi <;> cases hrule
  case eCount =>
    intro s
    refine (countLoop_okBlind _ _).bind (fun _ _ => ?_) s
    rfl
  case eHeader => exact fun s => (writeBytes_okBlind _).bind (fun _ => okBlind_ret none) s
  case eBuild | dBuild => exact ruleTbBuild_okBlind
  case eDerive => exact ruleEncDerive_okBlind
  case eRewind => exact fun _ => rfl
  case eOpen | dOpen => exact .ite (fun _ => trivial) fun _ => rfl
  case eStep => exact encStepByte_okBlind.bind fun _ _ => rfl
  case eClose => exact ruleBswClose_okBlind
  case dHeader => exact (readBytes_okBlind _).bind fun _ _ => rfl
  case dSymbol =>
    exact .ite (fun _ => trivial) <| .ite (fun _ => trivial) fun s =>
      (decodeWalk_okBlind _ _).bind (fun sym => okBlind_ret (some (zext64 sym))) s

/-! ## Core steps that end OK -/

/-- A core step that leaves CODE = OK ran its sub-command to a normal end (R124). -/
theorem ret_of_coreStep_ok {s t : State} {i : Instr} {rule : State → UnitRes} (hi : subCommand s.seq = some i)
    (hrule : unitRule i = some rule) (h : coreStep s = .next t) (hok : t.code = .ok) :
    ∃ v u, rule s = .ret v u ∧ t = (runNext s.seq u (v.getD s.result)).apply u := by
  rw [coreStep_eq_afterSub hi hrule] at h
  rcases afterSub_cases h with hret | ⟨e, u, hr, rfl⟩
  · exact hret
  · exact absurd hok (ne_ok_of_mem_unitErrors ((unitRule_stops hrule s).of_raise hr))

/-- The "next" column does not look at the draws. -/
theorem apply_runNext_okDraws (q : Seq) (u : State) (w : Word64) :
    (runNext q u.okDraws w).apply u.okDraws = ((runNext q u w).apply u).okDraws := by
  have hnext : runNext q u.okDraws w = runNext q u w := by cases q <;> rfl
  rw [hnext]
  cases runNext q u w <;> rfl

/-- A core step that leaves CODE = OK does the same with every draw OK. -/
theorem coreStep_okDraws {s t : State} (h : coreStep s = .next t) (hok : t.code = .ok) :
    coreStep s.okDraws = .next t.okDraws := by
  cases hi : subCommand s.seq with
  | none =>
    have hidle := seq_eq_idle_of_subCommand hi
    have hidle' : s.okDraws.seq = .idle := hidle
    simp only [coreStep, hidle] at h
    cases h
    simp only [coreStep, hidle']
  | some i =>
    obtain ⟨rule, hrule⟩ := unitRule_of_subCommand hi
    obtain ⟨v, u, hr, rfl⟩ := ret_of_coreStep_ok hi hrule h hok
    have hr' := (subCommand_okBlind hi hrule s).of_ret hr
    rw [coreStep_of_ret (s := s.okDraws) (q := s.seq) rfl hi hrule hr', ← apply_runNext_okDraws]
    rfl

end Sys2Proof.Machine

/-!
SUPPORT. Runs that end OK, and what ENC.RUN left when it ended OK, whatever the host drew (spec/40_control.md R124,
R129; 44_huffman_encoder.md R223).
-/

namespace Sys2Proof.Machine

/-! ## Runs of a silent host -/

/-- The first step of a run, and the rest. -/
theorem run_succ_cases {n : Nat} {s t : State} (hsilent : s.hostMoves = [])
    (h : Host.Core.run Sys2Proof.core (n + 1) s = .next t) :
    ∃ s', coreStep s = .next s' ∧ s'.hostMoves = [] ∧ Host.Core.run Sys2Proof.core n s' = .next t := by
  cases hstep : coreStep s with
  | next s' =>
    obtain ⟨_, _, _, hmoves⟩ := commandsKeepTheHostsRegisters.2 s s' hstep
    exact ⟨s', rfl, hmoves.trans hsilent, (run_succ_of_coreStep hsilent hstep n).symm.trans h⟩
  | fault f =>
    have hfault : Sys2Proof.core.step s = .fault f := (step_silent hsilent).trans hstep
    simp only [Host.Core.run, hfault] at h
    cases h
  | refused r =>
    have hrefused : Sys2Proof.core.step s = .refused r := (step_silent hsilent).trans hstep
    simp only [Host.Core.run, hrefused] at h
    cases h

theorem coreStep_idle {s : State} (hidle : s.seq = .idle) : coreStep s = .next s := by
  simp only [coreStep, hidle]

/-- An idle block stays as it is (R295). -/
theorem run_idle (n : Nat) {s : State} (hsilent : s.hostMoves = []) (hidle : s.seq = .idle) :
    Host.Core.run Sys2Proof.core n s = .next s := by
  induction n with
  | zero => rfl
  | succ n ih => exact (run_succ_of_coreStep hsilent (coreStep_idle hidle) n).trans ih

/-- A run that is idle at its end is so in the same state after any more steps. -/
theorem run_add_of_idle {n : Nat} {s t : State} (k : Nat) (hsilent : s.hostMoves = [])
    (h : Host.Core.run Sys2Proof.core n s = .next t) (hidle : t.seq = .idle) :
    Host.Core.run Sys2Proof.core (n + k) s = .next t := by
  induction n generalizing s with
  | zero =>
    cases h
    exact run_idle _ hsilent hidle
  | succ n ih =>
    obtain ⟨s', hstep, hsilent', hrest⟩ := run_succ_cases hsilent h
    rw [Nat.add_right_comm, run_succ_of_coreStep hsilent hstep]
    exact ih hsilent' hrest

/-- Two runs from one state that are idle at their ends end in one state. -/
theorem run_idle_unique {m n : Nat} {s t u : State} (hsilent : s.hostMoves = [])
    (ht : Host.Core.run Sys2Proof.core m s = .next t) (hidle : t.seq = .idle)
    (hu : Host.Core.run Sys2Proof.core n s = .next u) (hidle' : u.seq = .idle) : t = u := by
  have ht' := run_add_of_idle n hsilent ht hidle
  have hu' := run_add_of_idle m hsilent hu hidle'
  rw [Nat.add_comm] at hu'
  exact Host.Outcome.next.inj (ht'.symm.trans hu')

/-! ## Runs that end OK -/

/-- A core step that ends with an error ends the RUN (R124). -/
theorem idle_of_coreStep_error {s t : State} (hcode : s.code = .ok) (h : coreStep s = .next t) (herr : t.code ≠ .ok) :
    t.seq = .idle := by
  cases hi : subCommand s.seq with
  | none =>
    have hidle := seq_eq_idle_of_subCommand hi
    cases (coreStep_idle hidle).symm.trans h
    exact hidle
  | some i =>
    obtain ⟨rule, hrule⟩ := unitRule_of_subCommand hi
    rw [coreStep_eq_afterSub hi hrule] at h
    rcases afterSub_cases h with ⟨v, u, hr, rfl⟩ | ⟨e, u, -, rfl⟩
    · exact absurd (apply_code _ (((unitRule_keeps hrule s).of_ret hr).code.trans hcode)) herr
    · rfl

/-- No step before the end of a run that ends OK has ended the RUN with an error (R281). -/
theorem run_succ_ok {n : Nat} {s t : State} (hsilent : s.hostMoves = []) (hcode : s.code = .ok)
    (h : Host.Core.run Sys2Proof.core (n + 1) s = .next t) (hok : t.code = .ok) :
    ∃ s', coreStep s = .next s' ∧ s'.code = .ok ∧ s'.hostMoves = [] ∧
      Host.Core.run Sys2Proof.core n s' = .next t := by
  obtain ⟨s', hstep, hsilent', hrest⟩ := run_succ_cases hsilent h
  refine ⟨s', hstep, by_contra fun herr => ?_, hsilent', hrest⟩
  cases (run_idle n hsilent' (idle_of_coreStep_error hcode hstep herr)).symm.trans hrest
  exact herr hok

/-- A run that ends OK does the same with every draw OK. -/
theorem run_okDraws {n : Nat} {s t : State} (hsilent : s.hostMoves = []) (hcode : s.code = .ok)
    (h : Host.Core.run Sys2Proof.core n s = .next t) (hok : t.code = .ok) :
    Host.Core.run Sys2Proof.core n s.okDraws = .next t.okDraws := by
  induction n generalizing s with
  | zero =>
    cases h
    rfl
  | succ n ih =>
    obtain ⟨s', hstep, hcode', hsilent', hrest⟩ := run_succ_ok hsilent hcode h hok
    have hstep' := run_succ_of_coreStep (s := s.okDraws) hsilent (coreStep_okDraws hstep hcode') n
    exact hstep'.trans (ih hsilent' hcode' hrest)

/-! ## Paths in a built tree (R190) -/

theorem ChildrenBefore.mono {a : Arena} {m n : Nat} (h : ChildrenBefore a n) (hmn : m ≤ n) : ChildrenBefore a m :=
  fun i hi => h i (hi.trans_le hmn)

/-- A child that is there stands before its parent. -/
theorem ChildrenBefore.child_lt {a : Arena} {n : Nat} (h : ChildrenBefore a n) {i : NodeIdx} (hi : i.toNat < n)
    (hkind : (nodeAt a i).kind = .internal) {b : Bool} (hchild : (nodeAt a i).child b ≠ Config.noneIdx) :
    ((nodeAt a i).child b).toNat < n := by
  obtain ⟨hleft, hright⟩ := h i hi hkind
  cases b with
  | false => exact hleft.trans hi
  | true => exact (hright.resolve_left hchild).trans hi

theorem descend_cons_internal {a : Arena} {i : NodeIdx} {b : Bool} {path : List Bool}
    (hkind : (nodeAt a i).kind = .internal) (hchild : (nodeAt a i).child b ≠ Config.noneIdx) :
    descend a i (b :: path) = descend a ((nodeAt a i).child b) path := by
  cases b with
  | false => exact descend_left hkind hchild
  | true => exact descend_right hkind hchild

/-- Below an entry whose children stand before it, a path is the same in an arena that agrees up to the entry. -/
theorem descend_agreeBelow {a a' : Arena} {n : Nat} (hchildren : ChildrenBefore a n) (hagree : AgreeBelow n a a')
    {i j : NodeIdx} {path : List Bool} (hi : i.toNat < n) (h : descend a i path = some j) :
    descend a' i path = some j ∧ j.toNat < n := by
  induction path generalizing i with
  | nil =>
    cases h
    exact ⟨rfl, hi⟩
  | cons b path ih =>
    obtain ⟨hkind, hchild, hbelow⟩ := descend_cons h
    have hlt := hchildren.child_lt hi hkind hchild
    have hnode := hagree.nodeAt hi
    rw [descend_cons_internal (hnode ▸ hkind) (hnode ▸ hchild), ← hnode]
    exact ih hlt hbelow

/-- The root is one of the entries of the tree (R186, R188). -/
theorem root_lt_count {f : Freq} {a : Arena} {t : Built} (h : buildTree f a = some t) :
    t.root.toNat < t.count.toNat := by
  rcases usedSymbols_cases f with hnone | ⟨sym, hone⟩ | hmany
  · cases (buildTree_nil a hnone).symm.trans h
  · cases (buildTree_singleton a hone).symm.trans h
    exact Nat.one_lt_two
  · have hk := usedSymbols_length_le f
    obtain ⟨_, -, hbuild⟩ := buildTree_greedy a hmany
    cases hbuild.symm.trans h
    rw [BitVec.toNat_ofNat, BitVec.toNat_ofNat, Nat.mod_eq_of_lt (by omega), Nat.mod_eq_of_lt (by omega)]
    omega

/-- The counts determine the root-to-leaf paths, whatever arena the tree is built in. -/
theorem leafPath_of_buildTree {f : Freq} {a a' : Arena} {t t' : Built} {path : List Bool} {sym : Byte}
    (h : buildTree f a = some t) (h' : buildTree f a' = some t') (hpath : LeafPath t.arena t.root path sym) :
    LeafPath t'.arena t'.root path sym := by
  obtain ⟨arena, hagree, hbuild⟩ := buildTree_arena (b := a') h
  cases hbuild.symm.trans h'
  obtain ⟨n, hchildren, hroot⟩ := childrenBefore_buildTree h
  have hagree' := hagree.mono (min_le_right n t.count.toNat)
  obtain ⟨i, hdescend, hkind, rfl⟩ := hpath
  obtain ⟨hdescend', hi⟩ := descend_agreeBelow (hchildren.mono (min_le_left n t.count.toNat)) hagree'
    (lt_min hroot (root_lt_count h)) hdescend
  have hnode := hagree'.nodeAt hi
  exact ⟨i, hdescend', hnode ▸ hkind, by rw [← hnode]⟩

/-! ## What ENC.RUN left -/

/-- `out` is the container of `l` (R65, R66, R223): the header of the counts `f`, and the packed codes of the bytes,
each code a root-to-leaf path of the tree TB.BUILD makes of the counts. -/
structure Container (l out : List Byte) (f : Freq) (code : Byte → List Bool) : Prop where
  counts : CountsOf f l
  out : out = headerBytes f ++ packBits (l.flatMap code)
  leafPath : ∀ x ∈ l, ∀ a t, buildTree f a = some t → LeafPath t.arena t.root (code x) x
  code_ne_nil : ∀ x ∈ l, code x ≠ []
  code_length : ∀ x, (code x).length ≤ 255

theorem codeOf_length_le (s : State) (sym : Byte) : (s.codeOf sym).length ≤ 255 := by
  rw [State.codeOf, List.length_map, List.length_range]
  exact Nat.le_of_lt_succ (s.codeLenAt sym).isLt

/-- A byte that is counted is in use. -/
theorem CountsOf.freqAt_ne_zero {f : Freq} {l : List Byte} (h : CountsOf f l) {x : Byte} (hx : x ∈ l) :
    freqAt f x ≠ 0#32 := by
  intro hzero
  have hcount := h x
  rw [hzero] at hcount
  exact (List.count_pos_iff.mpr hx).ne hcount

/-- The codes of a state with a valid code table make the container of what its table counts. -/
theorem container_of_codesValid {s : State} {l : List Byte} (hcounts : CountsOf s.freq l)
    (hvalid : l ≠ [] → CodesInv s ∧ TreeInv s ∧ s.codesValid = true) :
    Container l (headerBytes s.freq ++ packBits (l.flatMap s.codeOf)) s.freq s.codeOf := by
  have hpaths {x : Byte} (hx : x ∈ l) : CodesArePaths s := by
    obtain ⟨hcodes, htree, hv⟩ := hvalid (List.ne_nil_of_mem hx)
    exact codesArePaths htree hcodes hv
  constructor
  case counts => exact hcounts
  case out => rfl
  case leafPath =>
    intro x hx a t hbuild
    obtain ⟨hcodes, htree, hv⟩ := hvalid (List.ne_nil_of_mem hx)
    obtain ⟨a', hbuild'⟩ := htree (hcodes hv).1
    exact leafPath_of_buildTree hbuild' hbuild ((hpaths hx).leafPath x (hcounts.freqAt_ne_zero hx))
  case code_ne_nil =>
    intro x hx
    exact List.ne_nil_of_length_pos ((hpaths hx).length x (hcounts.freqAt_ne_zero hx)).1
  case code_length => exact codeOf_length_le s

section EncRun

variable {s t : State} {n : Nat} (hidle : s.seq = .idle) (hsilent : s.hostMoves = [])
  (hlen : s.input.length ≤ Config.inLenMax)
  (h : Host.Core.run Sys2Proof.core n (acceptRun .eCount (startCommand s)) = .next t) (hend : t.seq = .idle)
  (hok : t.code = .ok)
include hsilent hlen h hend hok

/-- ENC.RUN that ended OK has counted, without OVERFLOW (R211). -/
theorem count_lt_of_encRun_ok (x : Byte) : s.input.count x < 2 ^ 32 := by
  cases n with
  | zero =>
    cases h
    cases hend
  | succ n =>
    obtain ⟨s', hstep, hcode, -⟩ := run_succ_ok (s := acceptRun .eCount (startCommand s)) hsilent rfl h hok
    obtain ⟨v, u, hrule, -⟩ := ret_of_coreStep_ok (i := .encCount) rfl rfl hstep hcode
    have hcounts := ruleEncCount_counts (s := acceptRun .eCount (startCommand s)) ⟨Nat.zero_le _, hlen⟩ rfl hrule
    exact hcounts x ▸ (freqAt u.freq x).isLt

include hidle

/-- ENC.RUN that ended OK left what the encoder law says, since it would have with every draw OK. -/
theorem container_of_encRun_ok : ∃ f code, Container s.input t.out f code := by
  have hlt := count_lt_of_encRun_ok hsilent hlen h hend hok
  obtain ⟨w, hrun, hwidle, -, -, hcounts, hvalid, hout, -⟩ := encoderLaw s.okDraws _ hidle hsilent nofun hlen hlt
    (runCommand_idle .eCount hidle)
  have hrun' := run_okDraws (s := acceptRun .eCount (startCommand s)) hsilent rfl h hok
  have hw : w = t.okDraws :=
    run_idle_unique (s := acceptRun .eCount (startCommand s.okDraws)) hsilent hrun hwidle hrun' hend
  have hout' : t.out = headerBytes w.freq ++ packBits (s.input.flatMap w.codeOf) := by
    rw [hw] at hout ⊢
    exact hout
  rw [hout']
  exact ⟨w.freq, w.codeOf, container_of_codesValid hcounts hvalid⟩

end EncRun

end Sys2Proof.Machine

/-!
SUPPORT. DEC.RUN on a container with every draw OK, and the round trip (spec/45_huffman_decoder.md R254 to R258).
-/

namespace Sys2Proof.Machine

/-! ## Packed bits, read back (R66, R68) -/

/-- A packed byte's bits begin with the bits packed in it. -/
theorem lowBits_packByte_prefix {bits : List Bool} (hle : bits.length ≤ 8) :
    bits <+: lowBits (packByte bits 0) 8 := by
  rw [List.prefix_iff_getElem]
  refine ⟨by rwa [lowBits_length], fun i hi => ?_⟩
  have hbit : (lowBits (packByte bits 0) 8).getD i false = bits.getD i false := by
    rw [lowBits_getD, if_pos (by omega), getLsbD_packByte _ _ (by omega)]
    congr 1
    omega
  rwa [List.getD_eq_getElem _ _ hi, List.getD_eq_getElem _ _ (by rw [lowBits_length]; omega), eq_comm] at hbit

/-- The bits of the packed bytes begin with the bits packed. -/
theorem bitsOfBytes_packBits_prefix (bits : List Bool) : bits <+: bitsOfBytes (packBits bits) := by
  induction hn : bits.length using Nat.strong_induction_on generalizing bits with
  | _ n ih =>
    subst hn
    rcases Nat.eq_zero_or_pos bits.length with hzero | hpos
    · rw [List.length_eq_zero_iff.mp hzero]
      exact List.nil_prefix
    by_cases hle : bits.length ≤ 8
    · rw [packBits_eq_singleton hpos hle, bitsOfBytes_cons]
      exact (lowBits_packByte_prefix hle).trans (List.prefix_append _ _)
    · have htake : (bits.take 8).length = 8 := List.length_take_of_le (by omega)
      have hfirst := (lowBits_packByte_prefix htake.le).eq_of_length (by rw [htake, lowBits_length])
      have hrest := ih (bits.drop 8).length (by rw [List.length_drop]; omega) (bits.drop 8) rfl
      have hpack : packBits bits = packByte (bits.take 8) 0 :: packBits (bits.drop 8) := by
        rw [← List.singleton_append, ← packBits_eq_singleton (by omega) htake.le,
          ← packBits_append (m := 1) htake, List.take_append_drop]
      rw [hpack, bitsOfBytes_cons, ← hfirst]
      conv_lhs => rw [← List.take_append_drop 8 bits]
      exact (List.prefix_append_right_inj _).mpr hrest

theorem bitsOfBytes_packBits (bits : List Bool) :
    ∃ pad, pad.length < 8 ∧ bitsOfBytes (packBits bits) = bits ++ pad := by
  obtain ⟨pad, hpad⟩ := bitsOfBytes_packBits_prefix bits
  have hlen := congrArg List.length hpad
  rw [List.length_append, bitsOfBytes_length, packBits_length] at hlen
  exact ⟨pad, by omega, hpad.symm⟩

/-! ## A reader with bits ahead -/

/-- An open, unlimited reader that has not met END, with every draw OK. -/
structure Streaming (s : State) : Prop where
  isOpen : s.bsr.isOpen = true
  unlimited : s.bsr.unlimited = true
  ended : s.bsr.ended = false
  drawsOk : allDrawsOk s
  input : InputInv s

/-- NextBit yields the first bit ahead. -/
theorem nextBit_streaming {s : State} {b : Bool} {rest : List Bool} (hs : Streaming s)
    (hbits : s.bitsAhead = b :: rest) :
    ∃ t, nextBit s = .ret (some b) t ∧ Streaming t ∧ t.bitsAhead = rest := by
  have hstep : ∃ c t, nextBit s = .ret (some c) t ∧ t.bsr.ended = false ∧ t.ioDraws <:+ s.ioDraws := by
    by_cases hpos : s.bsr.pos = 8
    · cases hb : s.input[s.inPos.toNat]? with
      | none => cases (bitsAhead_eof hpos hb).symm.trans hbits
      | some x =>
        exact ⟨_, _, nextBit_byte hs.ended (.inl hs.unlimited) hpos (allDrawsOk_head hs.drawsOk) hb, hs.ended,
          List.tail_suffix _⟩
    · exact ⟨_, _, nextBit_buffered hs.ended (.inl hs.unlimited) hpos, hs.ended, List.suffix_rfl⟩
  obtain ⟨c, t, hnext, hended, hdraws⟩ := hstep
  obtain ⟨hframe, -⟩ := (nextBit_readFrame hs.isOpen).of_ret hnext
  have hahead := nextBit_bitsAhead hs.input hnext
  rw [hbits] at hahead
  cases hahead
  exact ⟨t, hnext, ⟨hframe.isOpen.trans hs.isOpen, hframe.unlimited.trans hs.unlimited, hended,
    allDrawsOk_of_suffix hs.drawsOk hdraws, hframe.input hs.input⟩, rfl⟩

/-- A run of NextBit yields the bits ahead in order. -/
theorem readBits_streaming {path rest : List Bool} {s : State} (hs : Streaming s) (hbits : s.bitsAhead = path ++ rest) :
    ∃ t, readBits path.length s = .ret path t ∧ Streaming t ∧ t.bitsAhead = rest := by
  induction path generalizing s with
  | nil => exact ⟨s, rfl, hs, hbits⟩
  | cons b path ih =>
    obtain ⟨t, hbit, ht, hahead⟩ := nextBit_streaming hs hbits
    obtain ⟨u, hread, hu, hrest⟩ := ih ht hahead
    exact ⟨u, readBits_cons hbit hread, hu, hrest⟩

/-- One symbol is decoded: it is in OUT and counted, and the reader goes on with the bits after its path (R252). -/
structure SymbolDecoded (sym : Byte) (rest : List Bool) (s t : State) : Prop where
  frame : BitsRead { s with out := s.out ++ [sym], emitted := s.emitted + 1#40 } t
  streaming : Streaming t
  bitsAhead : t.bitsAhead = rest

/-- When the bits ahead begin with a root-to-leaf path, its symbol is decoded (R252). -/
theorem ruleDecSymbol_streaming {path rest : List Bool} {sym : Byte} {s : State} (hs : Streaming s)
    (htree : s.treeValid = true) (hbits : s.bitsAhead = path ++ rest) (hne : path ≠ [])
    (hleaf : LeafPath s.node s.root path sym) :
    ∃ t, ruleDecSymbol s = .ret (some (zext64 sym)) t ∧ SymbolDecoded sym rest s t := by
  obtain ⟨u, hread, hu, hrest⟩ := readBits_streaming hs hbits
  have hone := decodeOne_sent hs.isOpen hs.input hne hread hleaf (allDrawsOk_head hu.drawsOk)
  refine ⟨_, by rw [ruleDecSymbol_valid htree hs.isOpen, hone, Res.bind_ret], ?_, ?_, ?_⟩
  · obtain ⟨p, ip, ds, rfl⟩ := readBits_bitsRead hread
    exact ⟨p, ip, ds.tail, rfl⟩
  · exact ⟨hu.isOpen, hu.unlimited, hu.ended, allDrawsOk_of_suffix hu.drawsOk (List.tail_suffix _), hu.input⟩
  · exact hrest

/-! ## D_SYMBOL (R254) -/

/-- DEC.RUN is at D_SYMBOL with the bytes `left` still to decode: their codes are the bits ahead, but for fewer than
eight bits of padding. -/
structure Decoding (code : Byte → List Bool) (left : List Byte) (s : State) : Prop where
  seq : s.seq = .dSymbol
  hostMoves : s.hostMoves = []
  streaming : Streaming s
  treeValid : s.treeValid = true
  leafPath : ∀ x ∈ left, LeafPath s.node s.root (code x) x
  code_ne_nil : ∀ x ∈ left, code x ≠ []
  bitsAhead : ∃ pad, pad.length < 8 ∧ s.bitsAhead = left.flatMap code ++ pad
  emitted : s.emitted.toNat + left.length = total s.freq

/-- The end of DEC.RUN from `s` with `out` in OUT: all of IN is read, and RESULT is the total. -/
structure Decoded (out : List Byte) (s v : State) : Prop where
  seq : v.seq = .idle
  done : v.done = true
  code : v.code = .ok
  out : v.out = out
  result : v.result = BitVec.ofNat 64 (total s.freq)
  inPos : v.inPos = BitVec.ofNat 64 s.input.length

/-- With only padding ahead all of IN is read. -/
theorem inPos_of_bitsAhead_lt {s : State} (hin : InputInv s) (h : s.bitsAhead.length < 8) :
    s.inPos = BitVec.ofNat 64 s.input.length := by
  rw [State.bitsAhead, List.length_append, bitsOfBytes_length] at h
  exact inPos_of_unread_eq_nil hin (List.length_eq_zero_iff.mp (by omega))

/-- One symbol is decoded; the RUN ends after the last. -/
theorem coreStep_decoding {code : Byte → List Bool} {x : Byte} {left : List Byte} {s : State}
    (h : Decoding code (x :: left) s) :
    ∃ u, coreStep s = .next (afterDSymbol u) ∧ BitsRead { s with out := s.out ++ [x], emitted := s.emitted + 1#40 } u ∧
      Decoding code left u := by
  obtain ⟨pad, hpad, hbits⟩ := h.bitsAhead
  rw [List.flatMap_cons, List.append_assoc] at hbits
  obtain ⟨u, hrule, hframe, hstreaming, hahead⟩ := ruleDecSymbol_streaming h.streaming h.treeValid hbits
    (h.code_ne_nil x List.mem_cons_self) (h.leafPath x List.mem_cons_self)
  refine ⟨u, by simp only [coreStep, h.seq, hrule, afterSub], hframe, ?_⟩
  have hsum := h.emitted
  rw [List.length_cons] at hsum
  have hemitted : (s.emitted + 1#40).toNat = s.emitted.toNat + 1 := by
    have hbound := total_lt s.freq
    bv_omega
  obtain ⟨p, ip, ds, rfl⟩ := hframe
  exact ⟨h.seq, h.hostMoves, hstreaming, h.treeValid, fun y hy => h.leafPath y (List.mem_cons_of_mem x hy),
    fun y hy => h.code_ne_nil y (List.mem_cons_of_mem x hy), ⟨pad, hpad, hahead⟩, by simp only [hemitted]; omega⟩

/-- From D_SYMBOL with bytes to decode, one step for each byte ends the RUN with the bytes in OUT (R254). -/
theorem run_decoding {code : Byte → List Bool} {x : Byte} {left : List Byte} {s : State}
    (h : Decoding code (x :: left) s) :
    ∃ v, Host.Core.run Sys2Proof.core (left.length + 1) s = .next v ∧ Decoded (s.out ++ x :: left) s v := by
  induction left generalizing x s with
  | nil =>
    obtain ⟨u, hstep, hframe, hu⟩ := coreStep_decoding h
    have hsum := hu.emitted
    rw [List.length_nil, Nat.add_zero] at hsum
    have hend : afterDSymbol u = finishRun (zext64 u.emitted) u := if_pos hsum
    obtain ⟨pad, hpad, hbits⟩ := hu.bitsAhead
    have hinPos := inPos_of_bitsAhead_lt hu.streaming.input (by rwa [hbits])
    have hresult : zext64 u.emitted = BitVec.ofNat 64 (total u.freq) := by rw [zext64_eq_ofNat, hsum]
    rw [hend] at hstep
    refine ⟨_, run_succ_of_coreStep h.hostMoves hstep 0, ?_⟩
    obtain ⟨p, ip, ds, rfl⟩ := hframe
    exact ⟨rfl, rfl, rfl, rfl, hresult, hinPos⟩
  | cons y left ih =>
    obtain ⟨u, hstep, hframe, hu⟩ := coreStep_decoding h
    have hsum := hu.emitted
    rw [List.length_cons] at hsum
    have hnext : afterDSymbol u = u := by
      have hgo : afterDSymbol u = goTo .dSymbol u := if_neg (by omega)
      rw [hgo, goTo, ← hu.seq]
    rw [hnext] at hstep
    obtain ⟨v, hrun, hv⟩ := ih hu
    refine ⟨v, (run_succ_of_coreStep h.hostMoves hstep _).trans hrun, ?_⟩
    obtain ⟨p, ip, ds, rfl⟩ := hframe
    refine ⟨hv.seq, hv.done, hv.code, ?_, hv.result, hv.inPos⟩
    rw [hv.out]
    simp

/-! ## D_HEADER to D_OPEN (R254) -/

theorem Container.length_le {l out : List Byte} {f : Freq} {code : Byte → List Bool} (h : Container l out f code) :
    out.length ≤ Config.inLenMax := by
  have hbits : (l.flatMap code).length ≤ l.length * 255 := by
    rw [List.length_flatMap]
    have hsum := List.sum_le_card_nsmul (l.map fun x => (code x).length) 255
      (List.forall_mem_map.mpr fun x _ => h.code_length x)
    rwa [List.length_map, smul_eq_mul] at hsum
  have hl := total_lt f
  rw [h.counts.total_eq] at hl
  rw [h.out, List.length_append, headerBytes_length, packBits_length]
  show _ ≤ 2 ^ 64 - 1
  omega

/-- The state D_HEADER leaves when it read the table `f` from the start of IN. -/
def State.tableRead (u : State) (f : Freq) : State :=
  { acceptRun .dHeader (startCommand u) with
      freq := f, treeValid := false, codesValid := false, emitted := 0#40, inPos := 1024#64
      ioDraws := u.ioDraws.drop 1024 }

/-- The state at the first D_SYMBOL: the tree is `b` and the reader is open with nothing read. -/
def State.decodingStart (u : State) (f : Freq) (b : Built) : State :=
  { u.tableRead f with
      node := b.arena, nodeCount := b.count, root := b.root, treeValid := true, bsr := openedReader true u.arg
      seq := .dSymbol }

section DecRun

variable {l : List Byte} {f : Freq} {code : Byte → List Bool} {u : State} (hsilent : u.hostMoves = [])
  (hdraws : allDrawsOk u) (h : Container l u.input f code)
include hdraws h

/-- D_HEADER reads the table of the counts (R251). -/
theorem coreStep_dHeader_container :
    coreStep (acceptRun .dHeader (startCommand u)) = .next (afterDHeader (u.tableRead f)) := by
  have hunread : (acceptRun .dHeader (startCommand u)).unread = headerBytes f ++ packBits (l.flatMap code) := h.out
  have hlen : 1024 ≤ (acceptRun .dHeader (startCommand u)).unread.length := by
    rw [hunread, List.length_append, headerBytes_length]
    exact Nat.le_add_right ..
  have htable : headerFreq ((acceptRun .dHeader (startCommand u)).unread.take 1024) = f := by
    rw [hunread, List.take_left' (headerBytes_length f)]
    exact headerRoundTrip f
  have hrule : ruleDecHeader (acceptRun .dHeader (startCommand u)) = .ret _ (u.tableRead f) :=
    ruleDecHeader_ret (s := acceptRun .dHeader (startCommand u)) ⟨Nat.zero_le _, h.length_le⟩ hlen
      (drawsOk_of_all hdraws 1024) htable
  exact (coreStep_of_ret (q := .dHeader) (i := .decHeader) rfl rfl rfl hrule).trans
    (congrArg _ (afterDHeader_eq _ _).symm)

include hsilent

/-- An empty container ends the RUN (R255). -/
theorem run_decRun_empty (hempty : l = []) :
    Host.Core.run Sys2Proof.core 1 (acceptRun .dHeader (startCommand u)) = .next (finishRun 0#64 (u.tableRead f)) := by
  have hend : afterDHeader (u.tableRead f) = finishRun 0#64 (u.tableRead f) :=
    if_pos (h.counts.total_eq.trans (by rw [hempty]; rfl))
  exact run_succ_of_coreStep (by exact hsilent) ((coreStep_dHeader_container hdraws h).trans (congrArg _ hend)) 0

/-- D_BUILD and D_OPEN lead to D_SYMBOL with the whole payload ahead. -/
theorem run_decodingStart (hne : l ≠ []) :
    ∃ b, Decoding code l (u.decodingStart f b) ∧ ∀ n,
      Host.Core.run Sys2Proof.core (n + 3) (acceptRun .dHeader (startCommand u)) =
        Host.Core.run Sys2Proof.core n (u.decodingStart f b) := by
  have htotal : total f ≠ 0 := by
    rw [h.counts.total_eq]
    exact (List.length_pos_iff.mpr hne).ne'
  have hnext : afterDHeader (u.tableRead f) = goTo .dBuild (u.tableRead f) := if_neg htotal
  obtain ⟨b, hb⟩ := buildTree_of_total_ne_zero u.node htotal
  refine ⟨b, ?_, fun n => ?_⟩
  · have hunread : (u.decodingStart f b).unread = packBits (l.flatMap code) := by
      show u.input.drop 1024 = _
      rw [h.out, List.drop_left' (headerBytes_length f)]
    have hlen : 1024 ≤ u.input.length := by
      rw [h.out, List.length_append, headerBytes_length]
      exact Nat.le_add_right ..
    obtain ⟨pad, hpad, hbits⟩ := bitsOfBytes_packBits (l.flatMap code)
    constructor
    case seq => rfl
    case hostMoves => exact hsilent
    case streaming => exact ⟨rfl, rfl, rfl, allDrawsOk_of_suffix hdraws (List.drop_suffix _ _), hlen, h.length_le⟩
    case treeValid => rfl
    case leafPath => exact fun x hx => h.leafPath x hx _ b hb
    case code_ne_nil => exact h.code_ne_nil
    case bitsAhead => exact ⟨pad, hpad, by rw [bitsAhead_of_pos_eq rfl, hunread, hbits]⟩
    case emitted => exact (Nat.zero_add _).trans h.counts.total_eq.symm
  · have hheader := (coreStep_dHeader_container hdraws h).trans (congrArg _ hnext)
    have hbuild := coreStep_of_ret (s := goTo .dBuild (u.tableRead f)) (i := .tbBuild) rfl rfl rfl (ruleTbBuild_some hb)
    refine Eq.trans (run_succ_of_coreStep (by exact hsilent) hheader (n + 2)) ?_
    refine Eq.trans (run_succ_of_coreStep (by exact hsilent) hbuild (n + 1)) ?_
    exact run_succ_of_coreStep (by exact hsilent) (coreStep_of_ret (i := .bsrOpen true) rfl rfl rfl (if_neg nofun)) n

end DecRun

/-- Settles O51: ENC.RUN that ended OK left the container of its input, and DEC.RUN's walks read its codes back, byte by
byte. -/
theorem decodeOfEncodedInputIsTheInput : Obligations.DecodeOfEncodedInputIsTheInput := by
  intro s s1 t u u1 n hidle hsilent hlen hexec hrun hend hok huidle husilent hdraws hinput huexec
  rw [encRun_accepted hidle hexec] at hrun
  obtain ⟨f, code, hcontainer⟩ := container_of_encRun_ok hidle hsilent hlen hrun hend hok
  obtain rfl := Host.Outcome.next.inj ((runCommand_idle .dHeader huidle).symm.trans huexec)
  rw [← hinput] at hcontainer ⊢
  by_cases hempty : s.input = []
  · have hout : u.input.length = 1024 := by
      rw [hcontainer.out, hempty, List.flatMap_nil, packBits_nil, List.append_nil, headerBytes_length]
    refine ⟨1, _, run_decRun_empty husilent hdraws hcontainer hempty, rfl, rfl, rfl, hempty.symm, ?_, ?_⟩
    · rw [hempty]; rfl
    · rw [hout]; rfl
  · obtain ⟨b, hstart, hrun⟩ := run_decodingStart husilent hdraws hcontainer hempty
    obtain ⟨x, left, hcons⟩ := List.exists_cons_of_ne_nil hempty
    have htotal := hcontainer.counts.total_eq
    rw [hcons] at hstart htotal ⊢
    obtain ⟨v, hsymbols, hv⟩ := run_decoding hstart
    exact ⟨_, v, (hrun _).trans hsymbols, hv.seq, hv.done, hv.code, hv.out, htotal ▸ hv.result, hv.inPos⟩

end Sys2Proof.Machine

/-!
SUPPORT. Commands and core steps that end with an error, and an idle block (spec/60_exceptions.md R280 to R285, R295).
-/

namespace Sys2Proof.Machine

/-! ## Ends with an error -/

/-- From `s` to `t` the block took error `e` (R281), at a state that holds CMD and RESULT as `s` did. -/
def TakesError (e : StatusCode) (s t : State) : Prop :=
  ∃ u, t = endError e u ∧ u.cmd = s.cmd ∧ u.result = s.result

theorem TakesError.code {e : StatusCode} {s t : State} (h : TakesError e s t) : t.code = e := by
  obtain ⟨u, rfl, _, _⟩ := h
  rfl

/-- What the error records, and what it keeps (R281). -/
theorem TakesError.records {e : StatusCode} {s t : State} (h : TakesError e s t) :
    t.done = true ∧ t.seq = .idle ∧ t.cmd = s.cmd ∧ t.result = s.result := by
  obtain ⟨u, rfl, hcmd, hresult⟩ := h
  exact ⟨rfl, rfl, hcmd, hresult⟩

/-- A command issued while BUSY ends the RUN with an error (R121, R125). -/
theorem exec_busy_takesError {i : Instr} {s t : State} (hbusy : s.seq ≠ .idle) (h : exec i s = .next t) :
    ∃ e, TakesError e s t := by
  by_cases hi : i = .ctrlAbort
  · subst hi
    exact ⟨.aborted, s, (Host.Outcome.next.inj ((exec_ctrlAbort_busy hbusy).symm.trans h)).symm, rfl, rfl⟩
  · exact ⟨.protocolError, s, (Host.Outcome.next.inj ((exec_busy hi hbusy).symm.trans h)).symm, rfl, rfl⟩

/-- A command issued while idle that does not leave CODE = OK is a unit command whose rule raised one of its errors
(R285). -/
theorem exec_idle_takesError {i : Instr} {s t : State} (hidle : s.seq = .idle) (h : exec i s = .next t)
    (herr : t.code ≠ .ok) : ∃ e ∈ unitErrors i, TakesError e s t := by
  cases hrule : unitRule i with
  | some rule =>
    rw [exec_eq_unitCommand hrule] at h
    rcases unitCommand_cases h with ⟨hbusy, -⟩ | ⟨-, v, u, -, rfl⟩ | ⟨-, e, u, hr, rfl⟩
    · exact absurd hidle hbusy
    · exact absurd rfl herr
    · have hkeeps := (unitRule_keeps hrule _).of_raise hr
      exact ⟨e, (unitRule_stops hrule _).of_raise hr, u, rfl, hkeeps.cmd, hkeeps.result⟩
  | none =>
    have hok : t.code = .ok := by
      rcases unitRule_eq_none hrule with rfl | rfl | rfl
      · cases (exec_ctrlAbort_idle hidle).symm.trans h; rfl
      · cases (runCommand_idle .eCount hidle).symm.trans h; rfl
      · cases (runCommand_idle .dHeader hidle).symm.trans h; rfl
    exact absurd hok herr

/-- A core step of a RUN that does not leave CODE = OK is one whose sub-command raised (R124). -/
theorem coreStep_takesError {s t : State} (hbusy : s.seq ≠ .idle) (hcode : s.code = .ok) (h : coreStep s = .next t)
    (herr : t.code ≠ .ok) : ∃ e, TakesError e s t := by
  cases hi : subCommand s.seq with
  | none => exact absurd (seq_eq_idle_of_subCommand hi) hbusy
  | some i =>
    obtain ⟨rule, hrule⟩ := unitRule_of_subCommand hi
    rw [coreStep_eq_afterSub hi hrule] at h
    rcases afterSub_cases h with ⟨v, u, hr, rfl⟩ | ⟨e, u, hr, rfl⟩
    · have hkeeps := (unitRule_keeps hrule s).of_ret hr
      exact absurd (apply_code _ (hkeeps.code.trans hcode)) herr
    · have hkeeps := (unitRule_keeps hrule s).of_raise hr
      exact ⟨e, u, rfl, hkeeps.cmd, hkeeps.result⟩

/-! ## The statements -/

/-- Settles O53: every end other than OK takes its error by `endError`, after a rule that writes neither CMD nor
RESULT. -/
theorem errorsRecordOnlyCodeAndDone : Obligations.ErrorsRecordOnlyCodeAndDone := by
  constructor
  · intro i s t h herr
    by_cases hidle : s.seq = .idle
    · obtain ⟨_, _, htakes⟩ := exec_idle_takesError hidle h herr
      exact htakes.records
    · obtain ⟨_, htakes⟩ := exec_busy_takesError hidle h
      exact htakes.records
  · intro s t hbusy hcode h herr
    obtain ⟨_, htakes⟩ := coreStep_takesError hbusy hcode h herr
    exact htakes.records

/-- Settles O54: the errors a command's rule can raise are those of its row, and a command without a rule ends OK. -/
theorem errorMatrix : Obligations.ErrorMatrix := by
  intro i s t hidle h
  refine or_iff_not_imp_left.mpr fun herr => ?_
  obtain ⟨e, hmem, htakes⟩ := exec_idle_takesError hidle h herr
  rw [htakes.code]
  cases i
  case ctrlAbort | ctrlRewind | encRun | decRun | tbSetfreq | tbGetfreq => cases hmem
  -- The statement lists the errors of a row in the order of their codes, `unitErrors` in the order of the tests.
  all_goals simpa [unitErrors, or_comm, or_left_comm] using hmem

/-- Settles O47: with no host move pending the step is the core's, and an idle core keeps the state. -/
theorem idleBlockWaits : Obligations.IdleBlockWaits :=
  ⟨fun _ hsilent hidle => (step_silent hsilent).trans (coreStep_idle hidle), fun _ _ hmoves => step_move hmoves,
    fun _ => step_silent⟩

end Sys2Proof.Machine

/-!
SUPPORT. The reset event, the state after power-on, and the invariants there (spec/70_reset_and_hazards.md R310 to
R312).
-/

namespace Sys2Proof.Machine

/-! ## The tables at reset -/

/-- Every index reads as the reset entry; index 511 is out of the arena and reads as it by default (assumption 9). -/
theorem nodeAt_reset (i : NodeIdx) : nodeAt State.reset.node i = Node.reset := by
  simp only [nodeAt, State.reset, Vector.getElem?_replicate]
  split <;> rfl

theorem codeLenAt_reset (sym : Byte) : State.reset.codeLenAt sym = 0#8 := Vector.getElem_replicate _

theorem codeBitsAt_reset (sym : Byte) : State.reset.codeBitsAt sym = 0#255 := Vector.getElem_replicate _

/-! ## The invariants after a reset -/

/-- The reset event makes every invariant hold, whatever held before, as long as IN, which it keeps, is of a legal
length (R26, R310). -/
theorem hardReset_inv {s : State} (hlen : s.input.length ≤ Config.inLenMax) : Inv (hardReset s) where
  writer := writerInv_closed rfl
  reader := ⟨fun _ => rfl, fun hopen => absurd hopen Bool.false_ne_true⟩
  input := ⟨Nat.zero_le _, hlen⟩
  tree hvalid := absurd hvalid Bool.false_ne_true
  codes hvalid := absurd hvalid Bool.false_ne_true
  run := runInv_of_idle rfl

/-- The state after power-on is one the reset event leaves as it is: power-on is a reset (R310). -/
theorem hardReset_reset : hardReset State.reset = State.reset := rfl

/-! ## The statements -/

/-- Settles O10: the pending reset is taken off the host's moves, and `hardReset` puts every element but IN and the
host's own lists at its reset value. -/
theorem resetEvent : Obligations.ResetEvent := by
  intro s rest hmoves
  have hstep : step s = .next (hardReset { s with hostMoves := rest }) := step_move hmoves
  rw [hstep]
  rfl

/-- Settles O11: the registers, units and flags hold their values by definition of the state after power-on, and the
tables by what they read as at each index. -/
theorem powerOnState : Obligations.PowerOnState := by
  have hfreq : ∀ sym, freqAt State.reset.freq sym = 0#32 := fun _ => Vector.getElem_replicate _
  have hcodes : ∀ sym, State.reset.codeLenAt sym = 0#8 ∧ State.reset.codeBitsAt sym = 0#255 := fun sym =>
    ⟨codeLenAt_reset sym, codeBitsAt_reset sym⟩
  exact ⟨rfl, rfl, rfl, by decide, rfl, rfl, rfl, rfl, rfl, rfl, hfreq, nodeAt_reset, rfl, rfl, rfl, hcodes, rfl, rfl⟩

/-- Settles O59: power-on is a reset, with IN empty. -/
theorem resetMeetsTheInvariants : Obligations.ResetMeetsTheInvariants := by
  have hinv : Inv (hardReset State.reset) := hardReset_inv (Nat.zero_le _)
  rwa [hardReset_reset] at hinv

end Sys2Proof.Machine
